-- ==== Sys2Proof/Word.lean ====
section
/-! DEFINITION. The word types of the LCD command sequencer (R8, R9, R10): every value of the block is unsigned. -/

namespace Sys2Proof

/-- A byte: an opcode, a length, a payload byte, the only addressable unit of a sequence space (R8, R50). -/
abbrev Byte := BitVec 8

/-- A 16-bit value: a coordinate, a colour, a host register, a byte address in a sequence space (R8, R9, R29). -/
abbrev U16 := BitVec 16

/-- A 32-bit value: a post-delay in milliseconds, a pixel count (R8, R9). -/
abbrev U32 := BitVec 32

end Sys2Proof
end

