-- ==== Sys2Proof/Config.lean ====
section
/-! DEFINITION. The configuration record `CFG` of R7, and the free values the spec leaves open.
The record is plain data and State carries it (field `cfg`), so that every statement is about every configuration;
no step changes it (R42). -/

namespace Sys2Proof

/-- `CFG` (R7). Integers are `Nat`; their ranges and the other constraints of R7 are `Config.legal`
(Machine/Tables.lean). The two named configurations are `Config.ref` and `Config.tiny` (Machine/Configs.lean). -/
structure Config where
  /-- `PANEL_W` (R7): 1 to 65535. -/
  panelW : Nat
  /-- `PANEL_H` (R7): 1 to 65535. -/
  panelH : Nat
  /-- `OP_END` (R7, R85): the sentinel. -/
  opEnd : Byte
  /-- `OP_CASET` (R7, R93): column-address-set. -/
  opCaset : Byte
  /-- `OP_RASET` (R7, R93): row-address-set. -/
  opRaset : Byte
  /-- `OP_RAMWR` (R7, R93): memory-write. -/
  opRamwr : Byte
  /-- `OP_SWRESET` (R7, R93): software reset. -/
  opSwreset : Byte
  /-- `OP_SLPIN` (R7, R93): sleep-in. -/
  opSlpin : Byte
  /-- `OP_SLPOUT` (R7, R93): sleep-out. -/
  opSlpout : Byte
  /-- `OP_INVON` (R7, R93): inversion on. -/
  opInvon : Byte
  /-- `OP_DISPOFF` (R7, R93): display off. -/
  opDispoff : Byte
  /-- `OP_DISPON` (R7, R93): display on. -/
  opDispon : Byte
  /-- `OP_MADCTL` (R7, R93): addressing mode. -/
  opMadctl : Byte
  /-- `OP_COLMOD` (R7, R93): colour mode. -/
  opColmod : Byte
  /-- `OP_RAMCTRL` (R7, R93): RAM access control. -/
  opRamctrl : Byte
  /-- `OP_RGBCTRL` (R7, R93): RGB interface timing. -/
  opRgbctrl : Byte
  /-- `OP_CMD2EN` (R7, R93): enable extended command set. -/
  opCmd2en : Byte
  /-- `RESET_DELAY_MS` (R7, R53). -/
  resetDelayMs : U32
  /-- `DISPON_DELAY_MS` (R7, R53). -/
  disponDelayMs : U32
  /-- `DISPOFF_DELAY_MS` (R7, R53). -/
  dispoffDelayMs : U32
  /-- `ROM1` (R7, R51, R132). -/
  rom1 : List Byte
  /-- `ROM2` (R7, R52, R133). -/
  rom2 : List Byte
  /-- `INIT_CLEAR_COLOR` (R7, R130). -/
  initClearColor : U16
  /-- `INIT_CALLS_TINIT` (R7, R130): INIT brings the transport up itself. -/
  initCallsTinit : Bool
  /-- `GEOM_CHECK` (R7, R182): SETWIN and FILL are checked at the write to `OPREG`. -/
  geomCheck : Bool
  /-- `TERR` (R7, R186): the transport reports failure. -/
  terr : Bool
  /-- `FILL_BURST` (R7, R40): pixel words per data transaction, 1 to 127. -/
  fillBurst : Nat
  /-- `SEQ_AW` (R7, R56): address width of the external sequence memory, 1 to 16. -/
  seqAw : Nat
deriving DecidableEq, Repr

/-- The fourteen named opcodes of R93, in the order in which R97 names them. -/
def Config.namedOps (c : Config) : List Byte :=
  [c.opSwreset, c.opSlpin, c.opSlpout, c.opInvon, c.opDispoff, c.opDispon, c.opCaset, c.opRaset, c.opRamwr,
    c.opMadctl, c.opColmod, c.opRamctrl, c.opRgbctrl, c.opCmd2en]

/-- Free value: whether the transport answers success to the transaction that is the `n`-th entry of the trace,
under `TERR`, once the queue of answers that State holds is used up (R186 gives no rule for the answer; log entry 7). -/
opaque Config.freeAnswerOk : Nat → Bool

/-- Free value: which of the values that a byte of `EXT` has held during the running operation a read of it sees, when
the host has stored to it during that operation (R70: "either its old or its new value"; log entry 6). The arguments are
the model's counter of such stores, the length of the trace, and the byte's offset from `SP`. -/
opaque Config.freeExtPick : Nat → Nat → Nat → Nat

end Sys2Proof
end

