-- ==== Sys2Proof/Machine/Configs.lean ====
section
/-! DEFINITION. The two named configurations of R7, with the tables of R136, R137 and R138. No rule depends on them; they
instantiate the rules. Every number of REF is the spec's "from general knowledge" (93_implementation_defined.md G1 to G4). -/

namespace Sys2Proof

/-- `ROM1` of REF, descriptors at addresses 0 to 67 (R136). -/
def romRefOneHead : List Byte :=
  [0x10, 0x00, 0x00, 0x00, 0x00, 0x78] ++
  [0x01, 0x00, 0x00, 0x00, 0x00, 0x96] ++
  [0x11, 0x00, 0x00, 0x00, 0x00, 0x78] ++
  [0xDF, 0x04, 0x00, 0x00, 0x00, 0x00, 0x5A, 0x69, 0x02, 0x01] ++
  [0x36, 0x01, 0x00, 0x00, 0x00, 0x00, 0x00] ++
  [0x3A, 0x01, 0x00, 0x00, 0x00, 0x00, 0x55] ++
  [0x21, 0x00, 0x00, 0x00, 0x00, 0x00] ++
  [0x2A, 0x04, 0x00, 0x00, 0x00, 0x00, 0x00, 0x00, 0x00, 0xEF] ++
  [0x2B, 0x04, 0x00, 0x00, 0x00, 0x00, 0x00, 0x00, 0x01, 0x3F]

/-- `ROM1` of REF, the electrical and gamma table at addresses 68 to 176 (R136). -/
def romRefOneTable : List Byte :=
  [0xB2, 0x05, 0x00, 0x00, 0x00, 0x00, 0x0C, 0x0C, 0x00, 0x33, 0x33] ++
  [0xB7, 0x01, 0x00, 0x00, 0x00, 0x00, 0x35] ++
  [0xBB, 0x01, 0x00, 0x00, 0x00, 0x00, 0x19] ++
  [0xC0, 0x01, 0x00, 0x00, 0x00, 0x00, 0x2C] ++
  [0xC2, 0x01, 0x00, 0x00, 0x00, 0x00, 0x01] ++
  [0xC3, 0x01, 0x00, 0x00, 0x00, 0x00, 0x12] ++
  [0xC4, 0x01, 0x00, 0x00, 0x00, 0x00, 0x20] ++
  [0xC6, 0x01, 0x00, 0x00, 0x00, 0x00, 0x0F] ++
  [0xD0, 0x02, 0x00, 0x00, 0x00, 0x00, 0xA4, 0xA1] ++
  [0xE0, 0x0E, 0x00, 0x00, 0x00, 0x00, 0xD0, 0x04, 0x0D, 0x11, 0x13, 0x2B, 0x3F, 0x54, 0x4C, 0x18, 0x0D, 0x0B, 0x1F, 0x23] ++
  [0xE1, 0x0E, 0x00, 0x00, 0x00, 0x00, 0xD0, 0x04, 0x0C, 0x11, 0x13, 0x2C, 0x3F, 0x44, 0x51, 0x2F, 0x1F, 0x1F, 0x20, 0x23] ++
  [0xFF]

/-- `ROM2` of REF (R137) and of TINY (R138): all but the delay of the fourth descriptor is the same in both. -/
def romTwo (slpoutDelay : Byte) : List Byte :=
  [0xB1, 0x03, 0x00, 0x00, 0x00, 0x00, 0x40, 0x02, 0x14] ++
  [0xB0, 0x02, 0x00, 0x00, 0x00, 0x00, 0x11, 0xF0] ++
  [0x29, 0x00, 0x00, 0x00, 0x00, 0x00] ++
  [0x11, 0x00, 0x00, 0x00, 0x00, slpoutDelay] ++
  [0x2C, 0x00, 0x00, 0x00, 0x00, 0x00] ++
  [0xFF]

/-- `ROM1` of TINY (R138). -/
def romTinyOne : List Byte :=
  [0x10, 0x00, 0x00, 0x00, 0x00, 0x05] ++
  [0x01, 0x00, 0x00, 0x00, 0x00, 0x06] ++
  [0x11, 0x00, 0x00, 0x00, 0x00, 0x07] ++
  [0xDF, 0x04, 0x00, 0x00, 0x00, 0x00, 0x5A, 0x69, 0x02, 0x01] ++
  [0x36, 0x01, 0x00, 0x00, 0x00, 0x00, 0x00] ++
  [0x3A, 0x01, 0x00, 0x00, 0x00, 0x00, 0x55] ++
  [0x21, 0x00, 0x00, 0x00, 0x00, 0x00] ++
  [0x2A, 0x04, 0x00, 0x00, 0x00, 0x00, 0x00, 0x00, 0x00, 0x03] ++
  [0x2B, 0x04, 0x00, 0x00, 0x00, 0x00, 0x00, 0x00, 0x00, 0x02] ++
  [0xB7, 0x01, 0x00, 0x00, 0x00, 0x00, 0x35] ++
  [0xFF]

/-- Configuration REF, column REF of R7. -/
def Config.ref : Config where
  panelW := 240
  panelH := 320
  opEnd := 0xFF
  opCaset := 0x2A
  opRaset := 0x2B
  opRamwr := 0x2C
  opSwreset := 0x01
  opSlpin := 0x10
  opSlpout := 0x11
  opInvon := 0x21
  opDispoff := 0x28
  opDispon := 0x29
  opMadctl := 0x36
  opColmod := 0x3A
  opRamctrl := 0xB0
  opRgbctrl := 0xB1
  opCmd2en := 0xDF
  resetDelayMs := 150
  disponDelayMs := 0
  dispoffDelayMs := 0
  rom1 := romRefOneHead ++ romRefOneTable
  rom2 := romTwo 0x78
  initClearColor := 0x0000
  initCallsTinit := true
  geomCheck := false
  terr := false
  fillBurst := 1
  seqAw := 16

/-- Configuration TINY, column TINY of R7. -/
def Config.tiny : Config where
  panelW := 4
  panelH := 3
  opEnd := 0xFF
  opCaset := 0x2A
  opRaset := 0x2B
  opRamwr := 0x2C
  opSwreset := 0x01
  opSlpin := 0x10
  opSlpout := 0x11
  opInvon := 0x21
  opDispoff := 0x28
  opDispon := 0x29
  opMadctl := 0x36
  opColmod := 0x3A
  opRamctrl := 0xB0
  opRgbctrl := 0xB1
  opCmd2en := 0xDF
  resetDelayMs := 5
  disponDelayMs := 1
  dispoffDelayMs := 0
  rom1 := romTinyOne
  rom2 := romTwo 0x07
  initClearColor := 0x07E0
  initCallsTinit := true
  geomCheck := false
  terr := false
  fillBurst := 1
  seqAw := 16

end Sys2Proof
end

