-- ==== Sys2Proof/Syntax.lean ====
section
/-! DEFINITION. The instructions of the block: one constructor per row of spec/opcode_table.json (R98): the nine host
operations and the seven reserved codes of format H (R81 to R83), and the sentinel, the generic command and its
fourteen named forms of format D (R84, R85, R92, R93). -/

namespace Sys2Proof

/-- The abstract descriptor record of R87. -/
structure Desc where
  opcode : Byte
  delay : U32
  payload : List Byte
deriving DecidableEq, Repr

/-- One constructor per row of the opcode table. The arguments of a host operation are in `ARG[0..4]` (R82), not in the
instruction; the operands of a descriptor are its delay and its payload (R84), whose number of bytes is the length byte. -/
inductive Instr where
  /-- INIT, code 1 (R131). -/
  | init
  /-- RESET, code 2 (R140). -/
  | reset
  /-- DISPON, code 3 (R141). -/
  | dispon
  /-- DISPOFF, code 4 (R142). -/
  | dispoff
  /-- RUNCMD, code 5 (R113). -/
  | runcmd
  /-- RUNSEQ, code 6 (R114). -/
  | runseq
  /-- SETWIN, code 7 (R151). -/
  | setwin
  /-- FILL, code 8 (R161). -/
  | fill
  /-- CLEAR, code 9 (R165). -/
  | clear
  /-- Reserved code 0 (R83). -/
  | reserved0
  /-- Reserved code 10 (R83). -/
  | reserved10
  /-- Reserved code 11 (R83). -/
  | reserved11
  /-- Reserved code 12 (R83). -/
  | reserved12
  /-- Reserved code 13 (R83). -/
  | reserved13
  /-- Reserved code 14 (R83). -/
  | reserved14
  /-- Reserved code 15 (R83). -/
  | reserved15
  /-- END, the sentinel `CFG.OP_END` (R85, R116). -/
  | sentinel
  /-- CMD, a command whose opcode is neither the sentinel nor one of the named opcodes (R92, R115). -/
  | cmd (opcode : Byte) (delay : U32) (payload : List Byte)
  /-- CMD with opcode `CFG.OP_SWRESET` (R97). -/
  | cmdSwreset (delay : U32) (payload : List Byte)
  /-- CMD with opcode `CFG.OP_SLPIN` (R97). -/
  | cmdSlpin (delay : U32) (payload : List Byte)
  /-- CMD with opcode `CFG.OP_SLPOUT` (R97). -/
  | cmdSlpout (delay : U32) (payload : List Byte)
  /-- CMD with opcode `CFG.OP_INVON` (R97). -/
  | cmdInvon (delay : U32) (payload : List Byte)
  /-- CMD with opcode `CFG.OP_DISPOFF` (R97). -/
  | cmdDispoff (delay : U32) (payload : List Byte)
  /-- CMD with opcode `CFG.OP_DISPON` (R97). -/
  | cmdDispon (delay : U32) (payload : List Byte)
  /-- CMD with opcode `CFG.OP_CASET` (R97). -/
  | cmdCaset (delay : U32) (payload : List Byte)
  /-- CMD with opcode `CFG.OP_RASET` (R97). -/
  | cmdRaset (delay : U32) (payload : List Byte)
  /-- CMD with opcode `CFG.OP_RAMWR` (R97). -/
  | cmdRamwr (delay : U32) (payload : List Byte)
  /-- CMD with opcode `CFG.OP_MADCTL` (R97). -/
  | cmdMadctl (delay : U32) (payload : List Byte)
  /-- CMD with opcode `CFG.OP_COLMOD` (R97). -/
  | cmdColmod (delay : U32) (payload : List Byte)
  /-- CMD with opcode `CFG.OP_RAMCTRL` (R97). -/
  | cmdRamctrl (delay : U32) (payload : List Byte)
  /-- CMD with opcode `CFG.OP_RGBCTRL` (R97). -/
  | cmdRgbctrl (delay : U32) (payload : List Byte)
  /-- CMD with opcode `CFG.OP_CMD2EN` (R97). -/
  | cmdCmd2en (delay : U32) (payload : List Byte)
deriving DecidableEq, Repr

/-- The words of one instruction: the 16-bit value a host writes to `OPREG` (format H, R81), or the bytes of a
descriptor in a sequence space (format D, R84). -/
inductive Code where
  | host (v : U16)
  | desc (bytes : List Byte)
deriving DecidableEq, Repr

/-- The two formats of R80. -/
inductive Format where
  | h
  | d
deriving DecidableEq, Repr

/-- The format of an instruction (R80, R98). -/
def Instr.format : Instr → Format
  | .init | .reset | .dispon | .dispoff | .runcmd | .runseq | .setwin | .fill | .clear => .h
  | .reserved0 | .reserved10 | .reserved11 | .reserved12 | .reserved13 | .reserved14 | .reserved15 => .h
  | .sentinel | .cmd _ _ _ => .d
  | .cmdSwreset _ _ | .cmdSlpin _ _ | .cmdSlpout _ _ | .cmdInvon _ _ | .cmdDispoff _ _ | .cmdDispon _ _ => .d
  | .cmdCaset _ _ | .cmdRaset _ _ | .cmdRamwr _ _ | .cmdMadctl _ _ | .cmdColmod _ _ => .d
  | .cmdRamctrl _ _ | .cmdRgbctrl _ _ | .cmdCmd2en _ _ => .d

/-- The descriptor record that a command instruction stands for under a configuration (R87, R97): `none` for the
instructions of format H and for the sentinel, which has no record (R85). -/
def Instr.toDesc (c : Config) : Instr → Option Desc
  | .init | .reset | .dispon | .dispoff | .runcmd | .runseq | .setwin | .fill | .clear => none
  | .reserved0 | .reserved10 | .reserved11 | .reserved12 | .reserved13 | .reserved14 | .reserved15 => none
  | .sentinel => none
  | .cmd op d p => some ⟨op, d, p⟩
  | .cmdSwreset d p => some ⟨c.opSwreset, d, p⟩
  | .cmdSlpin d p => some ⟨c.opSlpin, d, p⟩
  | .cmdSlpout d p => some ⟨c.opSlpout, d, p⟩
  | .cmdInvon d p => some ⟨c.opInvon, d, p⟩
  | .cmdDispoff d p => some ⟨c.opDispoff, d, p⟩
  | .cmdDispon d p => some ⟨c.opDispon, d, p⟩
  | .cmdCaset d p => some ⟨c.opCaset, d, p⟩
  | .cmdRaset d p => some ⟨c.opRaset, d, p⟩
  | .cmdRamwr d p => some ⟨c.opRamwr, d, p⟩
  | .cmdMadctl d p => some ⟨c.opMadctl, d, p⟩
  | .cmdColmod d p => some ⟨c.opColmod, d, p⟩
  | .cmdRamctrl d p => some ⟨c.opRamctrl, d, p⟩
  | .cmdRgbctrl d p => some ⟨c.opRgbctrl, d, p⟩
  | .cmdCmd2en d p => some ⟨c.opCmd2en, d, p⟩

end Sys2Proof
end

