-- ==== Sys2Proof/WellFormed.lean ====
section
/-! DEFINITION. Which instructions and descriptors the encoding admits (R84, R87, R88, R92). -/

namespace Sys2Proof

/-- A descriptor record that has an encoding (R87): its opcode is not the sentinel and its payload has at most 255
bytes. -/
def Desc.wf (c : Config) (d : Desc) : Bool :=
  d.opcode != c.opEnd && decide (d.payload.length ≤ 255)

/-- The named opcodes are pairwise different, so that a named command has one name only. R7 does not ask it of a legal
configuration; REF and TINY have it. -/
def Config.namedDistinct (c : Config) : Bool :=
  decide c.namedOps.Nodup

/-- An instruction that the encoding admits under a configuration: a command's payload has at most 255 bytes (R84), its
opcode is not the sentinel (R94), and the generic `cmd` stands for the opcodes that have no name of their own (R92, R93;
log entry 3). Instructions of format H have no operand and are all admitted. -/
def Instr.wf (c : Config) (i : Instr) : Bool :=
  match i with
  | .cmd op d p => Desc.wf c ⟨op, d, p⟩ && !c.namedOps.contains op
  | i =>
    match i.toDesc c with
    | some d => d.wf c
    | none => true

end Sys2Proof
end

