-- ==== Sys2Proof/Decode.lean ====
section
/-! DEFINITION. Decoding of the two formats (R80 to R88), the byte-order and bit-field helpers it uses (R10, R62, R63),
and after it the encoder. The decoder of format D reads through a byte reader, so that one decoder serves a list of bytes
here and a sequence space in the machine (Machine/Fetch.lean). -/

namespace Sys2Proof

/-! ### Byte order (R10, R62, R63) -/

/-- `hi8(v) = v[15:8]` (R10). -/
def hi8 (v : U16) : Byte := v.extractLsb' 8 8

/-- `lo8(v) = v[7:0]` (R10). -/
def lo8 (v : U16) : Byte := v.extractLsb' 0 8

/-- `be16` (R10): two bytes, most significant first. -/
def be16 (b0 b1 : Byte) : U16 := b0 ++ b1

/-- `be32` (R10, R63): four bytes, most significant first. -/
def be32 (b0 b1 b2 b3 : Byte) : U32 := b0 ++ b1 ++ b2 ++ b3

/-- The four bytes of a delay, most significant first (R84). -/
def delayBytes (d : U32) : List Byte :=
  [d.extractLsb' 24 8, d.extractLsb' 16 8, d.extractLsb' 8 8, d.extractLsb' 0 8]

/-- `pair(s, e)` (R89): the 4-byte payload of one axis, start then end, each most significant byte first. -/
def pair (s e : U16) : List Byte := [hi8 s, lo8 s, hi8 e, lo8 e]

/-- `pix(c)` (R90): the pixel word of a colour. -/
def pix (c : U16) : List Byte := [hi8 c, lo8 c]

/-! ### Decoding -/

/-- Why a list of bytes holds no instruction. In a sequence space no decoding is ever refused (R94); a list of bytes can
be too short. -/
inductive DecodeError where
  /-- No byte at all. -/
  | noByte
  /-- The list ends inside the header, offsets 1 to 5. -/
  | shortHeader
  /-- The list ends inside the payload. -/
  | shortPayload
deriving DecidableEq, Repr

/-- The command instruction of a descriptor record (R92, R93): the named form for a named opcode, the first in the order
of R97 where two names have one byte, and the generic `cmd` for every other. -/
def classify (c : Config) (op : Byte) (d : U32) (p : List Byte) : Instr :=
  if op = c.opSwreset then .cmdSwreset d p
  else if op = c.opSlpin then .cmdSlpin d p
  else if op = c.opSlpout then .cmdSlpout d p
  else if op = c.opInvon then .cmdInvon d p
  else if op = c.opDispoff then .cmdDispoff d p
  else if op = c.opDispon then .cmdDispon d p
  else if op = c.opCaset then .cmdCaset d p
  else if op = c.opRaset then .cmdRaset d p
  else if op = c.opRamwr then .cmdRamwr d p
  else if op = c.opMadctl then .cmdMadctl d p
  else if op = c.opColmod then .cmdColmod d p
  else if op = c.opRamctrl then .cmdRamctrl d p
  else if op = c.opRgbctrl then .cmdRgbctrl d p
  else if op = c.opCmd2en then .cmdCmd2en d p
  else .cmd op d p

/-- The `n` bytes at offsets `o`, `o + 1`, … of a reader, in ascending order (R11, `MemRead`). -/
def readBytes {ε : Type} (rd : Nat → Except ε Byte) (o : Nat) : Nat → Except ε (List Byte)
  | 0 => .ok []
  | n + 1 =>
    match rd o with
    | .error e => .error e
    | .ok b =>
      match readBytes rd (o + 1) n with
      | .error e => .error e
      | .ok bs => .ok (b :: bs)

/-- The header after the opcode byte (R84, R35): the length byte and the big-endian delay. -/
def readHeader {ε : Type} (rd : Nat → Except ε Byte) : Except ε (Byte × U32) :=
  match rd 1 with
  | .error e => .error e
  | .ok len =>
    match rd 2 with
    | .error e => .error e
    | .ok d0 =>
      match rd 3 with
      | .error e => .error e
      | .ok d1 =>
        match rd 4 with
        | .error e => .error e
        | .ok d2 =>
          match rd 5 with
          | .error e => .error e
          | .ok d3 => .ok (len, be32 d0 d1 d2 d3)

/-- Format D (R84 to R87): the opcode byte first; the sentinel reads nothing more; otherwise length, delay, payload. -/
def decodeWith {ε : Type} (c : Config) (rd : Nat → Except ε Byte) : Except ε Instr :=
  match rd 0 with
  | .error e => .error e
  | .ok op =>
    if op = c.opEnd then .ok .sentinel
    else
      match readHeader rd with
      | .error e => .error e
      | .ok (len, delay) =>
        match readBytes rd 6 len.toNat with
        | .error e => .error e
        | .ok payload => .ok (classify c op delay payload)

/-- A list of bytes as a reader. -/
def listReader (bs : List Byte) (i : Nat) : Except DecodeError Byte :=
  match bs[i]? with
  | some b => .ok b
  | none => .error (if i = 0 then .noByte else if i < 6 then .shortHeader else .shortPayload)

/-- The number of bytes of an instruction of format D (R86): 1 for the sentinel, `6 + len` for a command; 2 for the
16-bit value of format H. -/
def Instr.size (c : Config) (i : Instr) : Nat :=
  match i.format, i.toDesc c with
  | .h, _ => 2
  | .d, none => 1
  | .d, some d => 6 + d.payload.length

/-- Format D from the front of a list of bytes, with the bytes left over. -/
def decodeBytes (c : Config) (bs : List Byte) : Except DecodeError (Instr × List Byte) :=
  match decodeWith c (listReader bs) with
  | .error e => .error e
  | .ok i => .ok (i, bs.drop (i.size c))

/-- Format H (R81, R82, R83): the operation code is `v[3:0]`, bits `v[15:4]` are ignored; every value has a meaning. -/
def decodeOp (v : U16) : Instr :=
  match (v.extractLsb' 0 4).toNat with
  | 1 => .init
  | 2 => .reset
  | 3 => .dispon
  | 4 => .dispoff
  | 5 => .runcmd
  | 6 => .runseq
  | 7 => .setwin
  | 8 => .fill
  | 9 => .clear
  | 0 => .reserved0
  | 10 => .reserved10
  | 11 => .reserved11
  | 12 => .reserved12
  | 13 => .reserved13
  | 14 => .reserved14
  | _ => .reserved15

/-- Decoding of both formats. -/
def decode (c : Config) : Code → Except DecodeError (Instr × List Byte)
  | .host v => .ok (decodeOp v, [])
  | .desc bs => decodeBytes c bs

/-! ### Encoding -/

/-- The operation code of a host operation or reserved code (R27, R82, R83). -/
def Instr.opCode : Instr → Option (BitVec 4)
  | .init => some 1
  | .reset => some 2
  | .dispon => some 3
  | .dispoff => some 4
  | .runcmd => some 5
  | .runseq => some 6
  | .setwin => some 7
  | .fill => some 8
  | .clear => some 9
  | .reserved0 => some 0
  | .reserved10 => some 10
  | .reserved11 => some 11
  | .reserved12 => some 12
  | .reserved13 => some 13
  | .reserved14 => some 14
  | .reserved15 => some 15
  | .sentinel | .cmd _ _ _ => none
  | .cmdSwreset _ _ | .cmdSlpin _ _ | .cmdSlpout _ _ | .cmdInvon _ _ | .cmdDispoff _ _ | .cmdDispon _ _ => none
  | .cmdCaset _ _ | .cmdRaset _ _ | .cmdRamwr _ _ | .cmdMadctl _ _ | .cmdColmod _ _ => none
  | .cmdRamctrl _ _ | .cmdRgbctrl _ _ | .cmdCmd2en _ _ => none

/-- `enc(d)` (R87): opcode, length, delay most significant byte first, payload. -/
def Desc.enc (d : Desc) : List Byte :=
  [d.opcode, BitVec.ofNat 8 d.payload.length] ++ delayBytes d.delay ++ d.payload

/-- `encseq(ds)` (R88): the descriptors one after another, then the sentinel. -/
def encSeq (c : Config) (ds : List Desc) : List Byte :=
  ds.flatMap Desc.enc ++ [c.opEnd]

/-- The words of an instruction: the 16-bit value with its high twelve bits zero, or the bytes in the sequence space. -/
def encode (c : Config) (i : Instr) : Code :=
  match i.opCode with
  | some code => .host (code.setWidth 16)
  | none =>
    match i.toDesc c with
    | some d => .desc d.enc
    | none => .desc [c.opEnd]

/-- `WINDOW x0, y0, x1, y1` in a sequence (R97 (b)), which is also the two descriptors of space `WIN` (R54, R150). -/
def windowDescs (c : Config) (x0 y0 x1 y1 : U16) : List Desc :=
  [⟨c.opCaset, 0, pair x0 x1⟩, ⟨c.opRaset, 0, pair y0 y1⟩]

/-! ### The words of spec/opcode_table.json -/

/-- Whether a word of the opcode table is one of format H: exactly when it has sixteen bits, since the rows of format H
match the 16-bit value written to `OPREG` (R98). A word of any other width holds the bytes of a descriptor (log entry 12). -/
def tableWordIsHost (nbits : Nat) : Bool := nbits == 16

/-- Byte `i` of a table word: bit 0 of the word is the least significant bit of byte 0, and every bit from `nbits` up is
zero. -/
def tableByte (nbits w i : Nat) : Byte :=
  BitVec.ofNat 8 ((w % 2 ^ nbits) / 256 ^ i)

/-- The instruction this decoder reads from a word of the opcode table, whose rows of format D are written for
configuration REF (R98). -/
def decodeTableWord (nbits w : Nat) : Option Instr :=
  if tableWordIsHost nbits then some (decodeOp (BitVec.ofNat 16 (w % 2 ^ nbits)))
  else
    match decodeWith (ε := DecodeError) Config.ref (fun i => .ok (tableByte nbits w i)) with
    | .ok i => some i
    | .error _ => none

end Sys2Proof
end

