-- ==== Sys2Proof/Machine/Memory.lean ====
section
/-! DEFINITION. The external sequence memory `EXT` (R55) as a canonical list of address and byte pairs: addresses strictly
rising, and no entry equal to what an unlisted address reads as, so that equal memories are equal lists. -/

namespace Sys2Proof.Machine

/-- Addresses and their bytes, in canonical form (`Memory.wf`). -/
abbrev Memory := List Host.Cell

/-- What an address that is not listed reads as. The spec gives none ("What `EXT` holds where the host never wrote is the
platform's matter", R55). DESIGN CHOICE, unsafe (log entry 5). -/
def Memory.blank : Byte := 0x00

/-- The byte at an address. -/
def Memory.read : Memory → Nat → Byte
  | [], _ => Memory.blank
  | (k, b) :: m, a => if k = a then b else Memory.read m a

/-- The memory with one byte stored, in canonical form: storing the byte an unlisted address reads as removes the entry. -/
def Memory.write : Memory → Nat → Byte → Memory
  | [], a, b => if b = Memory.blank then [] else [(a, b)]
  | (k, c) :: m, a, b =>
    if a < k then (if b = Memory.blank then (k, c) :: m else (a, b) :: (k, c) :: m)
    else if a = k then (if b = Memory.blank then m else (a, b) :: m)
    else (k, c) :: Memory.write m a b

/-- Every address listed is at least `lo`, addresses rise strictly, no entry is blank. -/
def Memory.wfFrom : Nat → Memory → Bool
  | _, [] => true
  | lo, (k, b) :: m => decide (lo ≤ k) && b != Memory.blank && Memory.wfFrom (k + 1) m

/-- The canonical form. -/
def Memory.wf (m : Memory) : Bool := Memory.wfFrom 0 m

/-- Every listed address lies below `n`, the size of the memory (R55). -/
def Memory.below (n : Nat) (m : Memory) : Bool := m.all (fun cell => decide (cell.1 < n))

/-- Store a list of bytes at offsets `i`, `i + 1`, …, of which the addresses are given by `addr`; where two offsets have one
address the lower offset's byte is the one that stays. -/
def Memory.writeAll (addr : Nat → Nat) : Memory → Nat → List Byte → Memory
  | m, _, [] => m
  | m, i, b :: bs => Memory.write (Memory.writeAll addr m (i + 1) bs) (addr i) b

end Sys2Proof.Machine
end

