-- ==== Sys2Proof/Machine/State.lean ====
section
/-! DEFINITION. The state of the block (R21), of the host and of the transport (R20), as plain data, and the state after
reset (R44, R210). -/

namespace Sys2Proof.Machine

/-- The sequence spaces, numbered as `SRC` holds them (R29, R50): 0 to 4 in this order; 5 to 7 never occur. -/
inductive Space where
  | rom1
  | rom2
  | ctl
  | win
  | ext
deriving DecidableEq, Repr

/-- The register `MODE` (R30): `one` is 0, `run` is 1. -/
inductive Mode where
  | one
  | run
deriving DecidableEq, Repr

/-- The register `PH` (R30): 0 to 7 in this order. -/
inductive Phase where
  | idle
  | dispatch
  | fetch
  | cmd
  | data
  | dly
  | adv
  | pix
deriving DecidableEq, Repr

/-- A transport transaction (R12, R59). -/
inductive Txn where
  /-- `TInit`: `TransportInit()`. -/
  | tInit
  /-- `TCmd(b)`: `TransportWriteCommand`. -/
  | tCmd (b : Byte)
  /-- `TData(bs)`: `TransportWriteData`. -/
  | tData (bs : List Byte)
  /-- `TDelay(ms)`: `TransportDelay`. -/
  | tDelay (ms : U32)
deriving DecidableEq, Repr

/-- The transport's answer to a transaction (R186). -/
inductive Answer where
  | ok
  | fail
deriving DecidableEq, Repr

/-- One entry of the trace: the transaction and its answer (R186); with `TERR` false every answer is `ok`. -/
structure Entry where
  txn : Txn
  answer : Answer
deriving DecidableEq, Repr

/-- The host registers (R31): numbers 0, 1 to 5, 6. -/
inductive HostReg where
  | opreg
  | arg (i : Fin 5)
  | status
deriving DecidableEq, Repr

/-- The registers that are unspecified after a hardware reset (R44), as the value they happen to hold then: an input that
comes with the reset, so that a statement about every reset is about every value of them. -/
structure Residue where
  xs : U16
  ys : U16
  xe : U16
  ye : U16
  color : U16
  pixcnt : U32
  opc : Byte
  len : Byte
  dlyv : U32
  src : Space
  sp : U16
  mode : Mode
  stg : BitVec 3
deriving DecidableEq, Repr

/-- When a hardware reset lands (R213): between two steps, or while the transaction of the block's next step is
outstanding, in which case the transport's matter is part of the input: `none`, the transaction did not complete;
`some a`, it completed with answer `a`. -/
inductive ResetTime where
  | betweenSteps
  | whileOutstanding (completion : Option Answer)
deriving DecidableEq, Repr

/-- What the host does in one step of the machine (R20, R31, R55, R210). A list of moves in State is the host's schedule:
it says in which order the host's acts and the block's steps follow one another. -/
inductive HostMove where
  /-- Write a host register (R31). -/
  | write (r : HostReg) (v : U16)
  /-- Read a host register (R31); the value goes to `hostReads`. -/
  | read (r : HostReg)
  /-- Store a byte in `EXT` (R55). -/
  | storeExt (a : Nat) (b : Byte)
  /-- Do nothing: the block takes its step. -/
  | pass
  /-- Read `STATUS` until `BUSY = 0` (R96, R188): the block takes steps until it is idle. -/
  | awaitIdle
  /-- Assert the hardware reset input (R210, R213). -/
  | hardReset (time : ResetTime) (residue : Residue)
deriving DecidableEq, Repr

/-- Why the machine stops: none of these is a fault of the block (`FAULT`, R180), which is a next state. -/
inductive Fault where
  /-- Raised by a read of `ROM1`, `ROM2`, `CTL` or `WIN` outside its bytes (U6: "no defined value", R57); cannot happen in
  a legal configuration. Safe: the machine stops where the spec gives no value. -/
  | readOutsideSpace
  /-- Raised in phase DISPATCH when `OP` is no operation or `STG` is beyond its list (R34, U14: "never occur"). Safe: no
  run of a legal configuration reaches it. -/
  | noMicroOperation
  /-- Raised by a host's store to an address that `EXT` does not have (R55: "`2^CFG.SEQ_AW` bytes"). Safe: the address
  does not exist. -/
  | storeOutsideExt
deriving DecidableEq, Repr

/-- Why an instruction has no meaning. -/
inductive Refusal where
  /-- Raised by exec's arm of an instruction that has no meaning yet; no arm does. Safe. -/
  | notModelled (mnemonic : String)
deriving DecidableEq, Repr

/-- The machine. -/
structure State where
  /-- The configuration `CFG` (R7, R42): no step changes it. -/
  cfg : Config
  /-- `ARG[0]` to `ARG[4]` (R22). -/
  args : Vector U16 5
  /-- `OP` (R27). -/
  op : BitVec 4
  /-- `BUSY` (R28). -/
  busy : Bool
  /-- `DONE` (R28). -/
  done : Bool
  /-- `FAULT` (R28, R180). -/
  fault : BitVec 3
  /-- `XS` (R23). -/
  xs : U16
  /-- `YS` (R23). -/
  ys : U16
  /-- `XE` (R23). -/
  xe : U16
  /-- `YE` (R23). -/
  ye : U16
  /-- `COLOR` (R24). -/
  color : U16
  /-- `PIXCNT` (R25). -/
  pixcnt : U32
  /-- `OPC` (R26). -/
  opc : Byte
  /-- `LEN` (R26). -/
  len : Byte
  /-- `DLYV` (R26). -/
  dlyv : U32
  /-- `SRC` (R29). -/
  src : Space
  /-- `SP` (R29). -/
  sp : U16
  /-- `MODE` (R30). -/
  mode : Mode
  /-- `STG` (R30). -/
  stg : BitVec 3
  /-- `PH` (R30). -/
  ph : Phase
  /-- The external sequence memory `EXT` (R55), owned by the host. -/
  ext : Memory
  /-- The model's own record (R70, log entry 6): the bytes that the host's stores have replaced in `EXT` since the running
  operation was accepted, the newest first. -/
  extStale : List Host.Cell
  /-- The model's own counter (R70, log entry 6): the host's stores to `EXT` during operations. -/
  extRaces : Nat
  /-- The trace `T` (R12, R186), oldest first: the recorded history. -/
  trace : List Entry
  /-- The transport's answers to come (R20, R186), used only with `TERR`. -/
  answers : List Answer
  /-- The host's moves to come (R20, R31). -/
  host : List HostMove
  /-- What the host has read (R31), oldest first. -/
  hostReads : List (HostReg × U16)
  /-- The model's own never-cleared record of the faults raised (R185), oldest first. -/
  faultLog : List (BitVec 3)
deriving DecidableEq, Repr

/-- The machine right after hardware reset with a given configuration (R44, R210, R211): idle, no fault, arguments zero,
nothing in the trace, no move of the host, nothing stored in `EXT`. The registers that R44 leaves unspecified hold zero
(DESIGN CHOICE, unsafe, log entry 4); a hardware reset during a run leaves them at any value (`Residue`). -/
def State.resetWith (c : Config) : State where
  cfg := c
  args := Vector.replicate 5 0
  op := 0
  busy := false
  done := false
  fault := 0
  xs := 0
  ys := 0
  xe := 0
  ye := 0
  color := 0
  pixcnt := 0
  opc := 0
  len := 0
  dlyv := 0
  src := .rom1
  sp := 0
  mode := .one
  stg := 0
  ph := .idle
  ext := []
  extStale := []
  extRaces := 0
  trace := []
  answers := []
  host := []
  hostReads := []
  faultLog := []

/-- The machine right after reset, in configuration REF (log entry 2). -/
def State.reset : State := State.resetWith Config.ref

end Sys2Proof.Machine
end

