-- ==== Sys2Proof/Machine/Operands.lean ====
section
/-! DEFINITION. Operands: the argument registers (R22, R82), the bytes of the sequence spaces (R50 to R56), and the
arithmetic of the block (R91, R162). -/

namespace Sys2Proof.Machine

/-! ### Argument registers (R11, R22) -/

/-- `ARG[i]`. -/
def State.arg (s : State) (i : Fin 5) : U16 := s.args[i]

/-! ### The contents of the sequence spaces -/

/-- The 24 bytes of space `CTL` (R53): memory-write, software reset, display on, display off, each with no payload. -/
def ctlBytes (c : Config) : List Byte :=
  Desc.enc ⟨c.opRamwr, 0, []⟩ ++ Desc.enc ⟨c.opSwreset, c.resetDelayMs, []⟩ ++
    Desc.enc ⟨c.opDispon, c.disponDelayMs, []⟩ ++ Desc.enc ⟨c.opDispoff, c.dispoffDelayMs, []⟩

/-- The 21 bytes of space `WIN` for four window coordinates (R54). -/
def winBytes (c : Config) (xs ys xe ye : U16) : List Byte :=
  encSeq c (windowDescs c xs ys xe ye)

/-- A byte of a space of fixed contents; outside them the read has no defined value (U6). -/
def listByte (bs : List Byte) (a : Nat) : Except Fault Byte :=
  match bs[a]? with
  | some b => .ok b
  | none => .error .readOutsideSpace

/-- The values that a list of cells gives for an address, in its order. -/
def staleBytes (stale : List Host.Cell) (a : Nat) : List Byte :=
  (stale.filter (fun cell => cell.1 == a)).map Prod.snd

/-- A byte of `EXT` at an address (R55). A byte to which the host has stored during the running operation reads as one of
the values it has held since the operation was accepted; which one is a free value (R70; log entry 6). -/
def State.extByte (s : State) (a off : Nat) : Byte :=
  match staleBytes s.extStale a with
  | [] => s.ext.read a
  | old =>
    let seen := s.ext.read a :: old
    seen.getD (Config.freeExtPick s.extRaces s.trace.length off % seen.length) (s.ext.read a)

/-- The byte at offset `off` from the byte address `base` of a sequence space (R51 to R56): the address is taken modulo
`2^16`, and in `EXT` modulo `2^CFG.SEQ_AW`. -/
def State.byteAt (s : State) (space : Space) (base : U16) (off : Nat) : Except Fault Byte :=
  match space with
  | .rom1 => listByte s.cfg.rom1 ((base.toNat + off) % 2 ^ 16)
  | .rom2 => listByte s.cfg.rom2 ((base.toNat + off) % 2 ^ 16)
  | .ctl => listByte (ctlBytes s.cfg) ((base.toNat + off) % 2 ^ 16)
  | .win => listByte (winBytes s.cfg s.xs s.ys s.xe s.ye) ((base.toNat + off) % 2 ^ 16)
  | .ext => .ok (s.extByte ((base.toNat + off) % 2 ^ s.cfg.seqAw) off)

/-- The instruction at the program counter (`SRC`, `SP`) (R29, R35, R65): a model may read the whole descriptor in one
step. -/
def State.descriptorAt (s : State) : Except Fault Instr :=
  decodeWith s.cfg (s.byteAt s.src s.sp)

/-- The payload bytes of the descriptor in progress, at offsets 6 to `5 + LEN` (R37). -/
def State.payload (s : State) : Except Fault (List Byte) :=
  readBytes (s.byteAt s.src s.sp) 6 s.len.toNat

/-! ### Arithmetic (R162) -/

/-- The derived corner (R91, R162 (a)): `(start + size - 1) mod 2^16`. -/
def corner (start size : U16) : U16 := start + size - 1

/-- The pixel count (R25, R162 (b)): the exact product, which 32 bits hold without loss. -/
def pixelCount (w h : U16) : U32 := BitVec.ofNat 32 (w.toNat * h.toNat)

/-- The panel size as a 16-bit operand of LOADFILL (R33). -/
def panelSize (n : Nat) : U16 := BitVec.ofNat 16 n

/-- The number of pixel words of the next pixel transaction (R40, R162 (c)): `min(PIXCNT, CFG.FILL_BURST)`. -/
def burst (c : Config) (pixcnt : U32) : Nat := min pixcnt.toNat c.fillBurst

/-- `k` copies of the pixel word of a colour (R40, R90): `2k` bytes. -/
def pixelBytes (color : U16) (k : Nat) : List Byte := (List.replicate k (pix color)).flatten

/-- The sequence pointer after a descriptor (R29, R162 (e)): `(SP + 6 + LEN) mod 2^16`. -/
def nextSp (sp : U16) (len : Byte) : U16 := sp + 6 + len.setWidth 16

/-! ### The fields of a colour (R17); the block itself never looks inside one -/

/-- Red is `color[15:11]` (R17). -/
def colorRed (c : U16) : BitVec 5 := c.extractLsb' 11 5

/-- Green is `color[10:5]` (R17). -/
def colorGreen (c : U16) : BitVec 6 := c.extractLsb' 5 6

/-- Blue is `color[4:0]` (R17). -/
def colorBlue (c : U16) : BitVec 5 := c.extractLsb' 0 5

end Sys2Proof.Machine
end

