-- ==== Sys2Proof/Machine/Flags.lean ====
section
/-! DEFINITION. The flags of the block: `BUSY`, `DONE`, `FAULT` (R28), the `STATUS` word, and the geometry check (R182). -/

namespace Sys2Proof.Machine

/-- Fault code 1, InvalidRegion (R180). -/
def faultInvalidRegion : BitVec 3 := 1

/-- Fault code 2, TransportError (R180). -/
def faultTransportError : BitVec 3 := 2

/-- Fault code 3, IllegalOp (R180). -/
def faultIllegalOp : BitVec 3 := 3

/-- The `STATUS` word (R28): bit 0 `BUSY`, bit 1 `DONE`, bits 4 to 2 `FAULT`, bits 15 to 5 zero. -/
def State.status (s : State) : U16 :=
  (s.fault.setWidth 16 <<< 2) ||| ((BitVec.ofBool s.done).setWidth 16 <<< 1) ||| (BitVec.ofBool s.busy).setWidth 16

/-- The flags at acceptance (R32 (d)): `FAULT <- 0; DONE <- 0; BUSY <- 1`. -/
def acceptFlags (s : State) : State :=
  { s with fault := 0, done := false, busy := true }

/-- The flags at completion (R45): `BUSY <- 0; DONE <- 1`. -/
def completeFlags (s : State) : State :=
  { s with busy := false, done := true }

/-- The flags at a fault (R184): `FAULT <- code; BUSY <- 0; DONE <- 0`. -/
def faultFlags (code : BitVec 3) (s : State) : State :=
  { s with fault := code, busy := false, done := false }

/-- The geometry check of SETWIN (R182, R152): the Addressable Window invariant. -/
def windowInside (c : Config) (xs ys xe ye : U16) : Bool :=
  decide (xs.toNat ≤ xe.toNat) && decide (xe.toNat < c.panelW) &&
    decide (ys.toNat ≤ ye.toNat) && decide (ye.toNat < c.panelH)

/-- The geometry check of FILL (R182, R160), its sums over the integers. -/
def regionInside (c : Config) (x y w h : U16) : Bool :=
  decide (1 ≤ w.toNat) && decide (1 ≤ h.toNat) &&
    decide (x.toNat + w.toNat - 1 < c.panelW) && decide (y.toNat + h.toNat - 1 < c.panelH)

end Sys2Proof.Machine
end

