-- ==== Sys2Proof/Machine/Ops.lean ====
section
/-! DEFINITION. The operations that the meanings and the phases share: raising a fault and clearing it, examining a write
to `OPREG`, emitting a transaction, completing an operation, and what fetching a descriptor loads. -/

namespace Sys2Proof.Machine

/-! ### Faults -/

/-- `raise Fault(code)` (R184, R190): `FAULT <- code; BUSY <- 0; DONE <- 0; PH <- IDLE`, and nothing else of the block. The
model's never-cleared record takes the code too (R185). -/
def raiseFault (code : BitVec 3) (s : State) : State :=
  { faultFlags code s with ph := .idle, faultLog := s.faultLog ++ [code] }

/-- Acceptance of an operation (R32 (d)): it is also the only return from a fault (R185, R191), since it clears `FAULT`. The
bytes of `EXT` that the new operation reads are those the memory holds now (R70). -/
def accept (s : State) : State :=
  { acceptFlags s with stg := 0, ph := .dispatch, extStale := [] }

/-- A request turned away by a fault at the write to `OPREG` (R32 (b), (c)): `DONE <- 0; raise Fault(code)`. -/
def reject (code : BitVec 3) (s : State) : State :=
  raiseFault code { s with done := false }

/-- What a write of an operation code to `OPREG` does, up to cases (b) to (d) of R32, which are `act`: nothing while
`BUSY = 1` (R31); nothing while a TransportError is latched and the code is not INIT (R32 (a)); otherwise `OP <- code`
and `act`. -/
def request (code : BitVec 4) (act : State → State) (s : State) : State :=
  if s.busy then s
  else if s.fault = faultTransportError ∧ code ≠ 1 then s
  else act { s with op := code }

/-- Case (c), else (d), of R32 for SETWIN: the check is made only with `CFG.GEOM_CHECK`. -/
def acceptIf (inside : Bool) (s : State) : State :=
  if s.cfg.geomCheck && !inside then reject faultInvalidRegion s else accept s

/-! ### The transport port -/

/-- The transport's answer to the next transaction (R186): always `ok` without `TERR`; with it, the next answer of the
queue in State, and a free value when the queue is empty (log entry 7). -/
def State.nextAnswer (s : State) : Answer :=
  if s.cfg.terr then
    match s.answers with
    | a :: _ => a
    | [] => if Config.freeAnswerOk s.trace.length then .ok else .fail
  else .ok

/-- The state after a transaction is presented and answered: the trace has one more entry, and with `TERR` the answer is
taken from the queue (R12, R186). -/
def record (t : Txn) (s : State) : State :=
  { s with
    trace := s.trace ++ [⟨t, s.nextAnswer⟩]
    answers := if s.cfg.terr then s.answers.tail else s.answers }

/-- `emit(t)` and what follows it in the step, `after` (R12, R186): if the transport answers `fail`, `raise Fault(2)` and
nothing of `after`. -/
def emit (t : Txn) (after : State → State) (s : State) : State :=
  match s.nextAnswer with
  | .ok => after (record t s)
  | .fail => raiseFault faultTransportError (record t s)

/-! ### Ends -/

/-- Completion of the operation (R45): `BUSY <- 0; DONE <- 1; PH <- IDLE`. -/
def complete (s : State) : State :=
  { completeFlags s with ph := .idle }

/-- The end of a micro-operation (R34, R35, R39, R40): `STG <- STG + 1; PH <- DISPATCH`. -/
def endMicroOp (s : State) : State :=
  { s with stg := s.stg + 1, ph := .dispatch }

/-! ### Phase FETCH (R35) -/

/-- The sentinel is fetched (R35, R116): `OPC` holds it, nothing is emitted, `SP` is not advanced, the run or the single
execution ends. -/
def fetchSentinel (s : State) : State :=
  endMicroOp { s with opc := s.cfg.opEnd }

/-- A command descriptor is fetched (R35, R115): `OPC`, `LEN`, `DLYV` hold its header and `PH <- CMD`. An opcode equal to
`CFG.OP_END` is the sentinel, from any space and in any mode (R94). -/
def fetchCommand (op : Byte) (delay : U32) (payload : List Byte) (s : State) : State :=
  if op = s.cfg.opEnd then fetchSentinel s
  else { s with opc := op, len := BitVec.ofNat 8 payload.length, dlyv := delay, ph := .cmd }

end Sys2Proof.Machine
end

