-- ==== Sys2Proof/Machine/Executor.lean ====
section
/-! DEFINITION. Meanings of RUNCMD and RUNSEQ (R113, R114), and of the descriptors END and CMD with its named forms (R115,
R116). A host operation's meaning is what the write of its code does (R31, R32); a descriptor's meaning is the step of
phase FETCH that finds it at (`SRC`, `SP`) (R35), after which phases CMD, DATA, DLY and ADV carry it out (R36 to R39). -/

namespace Sys2Proof.Machine

/-- RUNCMD (R113, R32). -/
def execRuncmd (s : State) : Host.Outcome State Fault Refusal := .next (request 5 accept s)

/-- RUNSEQ (R114, R32). -/
def execRunseq (s : State) : Host.Outcome State Fault Refusal := .next (request 6 accept s)

/-- END, the sentinel (R116, R35). -/
def execSentinel (s : State) : Host.Outcome State Fault Refusal := .next (fetchSentinel s)

/-- CMD (R115, R35). -/
def execCmd (op : Byte) (delay : U32) (payload : List Byte) (s : State) : Host.Outcome State Fault Refusal :=
  .next (fetchCommand op delay payload s)

/-- CMD with opcode `CFG.OP_SWRESET` (R97, R115, R35). -/
def execCmdSwreset (delay : U32) (payload : List Byte) (s : State) : Host.Outcome State Fault Refusal :=
  .next (fetchCommand s.cfg.opSwreset delay payload s)

/-- CMD with opcode `CFG.OP_SLPIN` (R97, R115, R35). -/
def execCmdSlpin (delay : U32) (payload : List Byte) (s : State) : Host.Outcome State Fault Refusal :=
  .next (fetchCommand s.cfg.opSlpin delay payload s)

/-- CMD with opcode `CFG.OP_SLPOUT` (R97, R115, R35). -/
def execCmdSlpout (delay : U32) (payload : List Byte) (s : State) : Host.Outcome State Fault Refusal :=
  .next (fetchCommand s.cfg.opSlpout delay payload s)

/-- CMD with opcode `CFG.OP_INVON` (R97, R115, R35). -/
def execCmdInvon (delay : U32) (payload : List Byte) (s : State) : Host.Outcome State Fault Refusal :=
  .next (fetchCommand s.cfg.opInvon delay payload s)

/-- CMD with opcode `CFG.OP_DISPOFF` (R97, R115, R35). -/
def execCmdDispoff (delay : U32) (payload : List Byte) (s : State) : Host.Outcome State Fault Refusal :=
  .next (fetchCommand s.cfg.opDispoff delay payload s)

/-- CMD with opcode `CFG.OP_DISPON` (R97, R115, R35). -/
def execCmdDispon (delay : U32) (payload : List Byte) (s : State) : Host.Outcome State Fault Refusal :=
  .next (fetchCommand s.cfg.opDispon delay payload s)

/-- CMD with opcode `CFG.OP_CASET` (R97, R115, R35). -/
def execCmdCaset (delay : U32) (payload : List Byte) (s : State) : Host.Outcome State Fault Refusal :=
  .next (fetchCommand s.cfg.opCaset delay payload s)

/-- CMD with opcode `CFG.OP_RASET` (R97, R115, R35). -/
def execCmdRaset (delay : U32) (payload : List Byte) (s : State) : Host.Outcome State Fault Refusal :=
  .next (fetchCommand s.cfg.opRaset delay payload s)

/-- CMD with opcode `CFG.OP_RAMWR` (R97, R115, R35). -/
def execCmdRamwr (delay : U32) (payload : List Byte) (s : State) : Host.Outcome State Fault Refusal :=
  .next (fetchCommand s.cfg.opRamwr delay payload s)

/-- CMD with opcode `CFG.OP_MADCTL` (R97, R115, R35). -/
def execCmdMadctl (delay : U32) (payload : List Byte) (s : State) : Host.Outcome State Fault Refusal :=
  .next (fetchCommand s.cfg.opMadctl delay payload s)

/-- CMD with opcode `CFG.OP_COLMOD` (R97, R115, R35). -/
def execCmdColmod (delay : U32) (payload : List Byte) (s : State) : Host.Outcome State Fault Refusal :=
  .next (fetchCommand s.cfg.opColmod delay payload s)

/-- CMD with opcode `CFG.OP_RAMCTRL` (R97, R115, R35). -/
def execCmdRamctrl (delay : U32) (payload : List Byte) (s : State) : Host.Outcome State Fault Refusal :=
  .next (fetchCommand s.cfg.opRamctrl delay payload s)

/-- CMD with opcode `CFG.OP_RGBCTRL` (R97, R115, R35). -/
def execCmdRgbctrl (delay : U32) (payload : List Byte) (s : State) : Host.Outcome State Fault Refusal :=
  .next (fetchCommand s.cfg.opRgbctrl delay payload s)

/-- CMD with opcode `CFG.OP_CMD2EN` (R97, R115, R35). -/
def execCmdCmd2en (delay : U32) (payload : List Byte) (s : State) : Host.Outcome State Fault Refusal :=
  .next (fetchCommand s.cfg.opCmd2en delay payload s)

end Sys2Proof.Machine
end

