-- ==== Sys2Proof/Machine/Fill.lean ====
section
/-! DEFINITION. Meanings of FILL and CLEAR (R161, R165). -/

namespace Sys2Proof.Machine

/-- FILL (R161, R32): with `CFG.GEOM_CHECK`, InvalidRegion when the precondition of R160 fails (R182). -/
def execFill (s : State) : Host.Outcome State Fault Refusal :=
  .next (request 8 (acceptIf (regionInside s.cfg (s.arg 1) (s.arg 2) (s.arg 3) (s.arg 4))) s)

/-- CLEAR (R165, R32): not checked, since its region is the whole panel (R182). -/
def execClear (s : State) : Host.Outcome State Fault Refusal := .next (request 9 accept s)

end Sys2Proof.Machine
end

