-- ==== Sys2Proof/Machine/PanelControl.lean ====
section
/-! DEFINITION. Meanings of INIT, RESET, DISPON, DISPOFF (R131, R140 to R142): what the write of their code to `OPREG` does
(R31, R32). The steps that follow are those of R34 to R40 over the operation's micro-operations. -/

namespace Sys2Proof.Machine

/-- INIT (R131, R32): accepted whenever the block is idle, a latched TransportError included. -/
def execInit (s : State) : Host.Outcome State Fault Refusal := .next (request 1 accept s)

/-- RESET (R140, R32). -/
def execReset (s : State) : Host.Outcome State Fault Refusal := .next (request 2 accept s)

/-- DISPON (R141, R32). -/
def execDispon (s : State) : Host.Outcome State Fault Refusal := .next (request 3 accept s)

/-- DISPOFF (R142, R32). -/
def execDispoff (s : State) : Host.Outcome State Fault Refusal := .next (request 4 accept s)

end Sys2Proof.Machine
end

