-- ==== Sys2Proof/Machine/Reserved.lean ====
section
/-! DEFINITION. Meanings of the reserved operation codes 0 and 10 to 15 (R83, R32 (b)): each raises IllegalOp, with no
transaction. -/

namespace Sys2Proof.Machine

/-- Reserved code 0 (R83, R32 (b)). -/
def execReserved0 (s : State) : Host.Outcome State Fault Refusal := .next (request 0 (reject faultIllegalOp) s)

/-- Reserved code 10 (R83, R32 (b)). -/
def execReserved10 (s : State) : Host.Outcome State Fault Refusal := .next (request 10 (reject faultIllegalOp) s)

/-- Reserved code 11 (R83, R32 (b)). -/
def execReserved11 (s : State) : Host.Outcome State Fault Refusal := .next (request 11 (reject faultIllegalOp) s)

/-- Reserved code 12 (R83, R32 (b)). -/
def execReserved12 (s : State) : Host.Outcome State Fault Refusal := .next (request 12 (reject faultIllegalOp) s)

/-- Reserved code 13 (R83, R32 (b)). -/
def execReserved13 (s : State) : Host.Outcome State Fault Refusal := .next (request 13 (reject faultIllegalOp) s)

/-- Reserved code 14 (R83, R32 (b)). -/
def execReserved14 (s : State) : Host.Outcome State Fault Refusal := .next (request 14 (reject faultIllegalOp) s)

/-- Reserved code 15 (R83, R32 (b)). -/
def execReserved15 (s : State) : Host.Outcome State Fault Refusal := .next (request 15 (reject faultIllegalOp) s)

end Sys2Proof.Machine
end

