-- ==== Sys2Proof/Machine/Window.lean ====
section
/-! DEFINITION. Meaning of SETWIN (R151). -/

namespace Sys2Proof.Machine

/-- SETWIN (R151, R32): with `CFG.GEOM_CHECK`, InvalidRegion when the window breaks the invariant of R152 (R182). -/
def execSetwin (s : State) : Host.Outcome State Fault Refusal :=
  .next (request 7 (acceptIf (windowInside s.cfg (s.arg 0) (s.arg 1) (s.arg 2) (s.arg 3))) s)

end Sys2Proof.Machine
end

