-- ==== Sys2Proof/Machine/Dispatch.lean ====
section
/-! DEFINITION. One arm per instruction. -/

namespace Sys2Proof.Machine

def exec (i : Instr) (s : State) : Host.Outcome State Fault Refusal :=
  match i with
  | .init => Sys2Proof.Machine.execInit s
  | .reset => Sys2Proof.Machine.execReset s
  | .dispon => Sys2Proof.Machine.execDispon s
  | .dispoff => Sys2Proof.Machine.execDispoff s
  | .runcmd => Sys2Proof.Machine.execRuncmd s
  | .runseq => Sys2Proof.Machine.execRunseq s
  | .setwin => Sys2Proof.Machine.execSetwin s
  | .fill => Sys2Proof.Machine.execFill s
  | .clear => Sys2Proof.Machine.execClear s
  | .reserved0 => Sys2Proof.Machine.execReserved0 s
  | .reserved10 => Sys2Proof.Machine.execReserved10 s
  | .reserved11 => Sys2Proof.Machine.execReserved11 s
  | .reserved12 => Sys2Proof.Machine.execReserved12 s
  | .reserved13 => Sys2Proof.Machine.execReserved13 s
  | .reserved14 => Sys2Proof.Machine.execReserved14 s
  | .reserved15 => Sys2Proof.Machine.execReserved15 s
  | .sentinel => Sys2Proof.Machine.execSentinel s
  | .cmd op delay payload => Sys2Proof.Machine.execCmd op delay payload s
  | .cmdSwreset delay payload => Sys2Proof.Machine.execCmdSwreset delay payload s
  | .cmdSlpin delay payload => Sys2Proof.Machine.execCmdSlpin delay payload s
  | .cmdSlpout delay payload => Sys2Proof.Machine.execCmdSlpout delay payload s
  | .cmdInvon delay payload => Sys2Proof.Machine.execCmdInvon delay payload s
  | .cmdDispoff delay payload => Sys2Proof.Machine.execCmdDispoff delay payload s
  | .cmdDispon delay payload => Sys2Proof.Machine.execCmdDispon delay payload s
  | .cmdCaset delay payload => Sys2Proof.Machine.execCmdCaset delay payload s
  | .cmdRaset delay payload => Sys2Proof.Machine.execCmdRaset delay payload s
  | .cmdRamwr delay payload => Sys2Proof.Machine.execCmdRamwr delay payload s
  | .cmdMadctl delay payload => Sys2Proof.Machine.execCmdMadctl delay payload s
  | .cmdColmod delay payload => Sys2Proof.Machine.execCmdColmod delay payload s
  | .cmdRamctrl delay payload => Sys2Proof.Machine.execCmdRamctrl delay payload s
  | .cmdRgbctrl delay payload => Sys2Proof.Machine.execCmdRgbctrl delay payload s
  | .cmdCmd2en delay payload => Sys2Proof.Machine.execCmdCmd2en delay payload s

end Sys2Proof.Machine
end

