-- ==== Sys2Proof/Machine/MicroOps.lean ====
section
/-! DEFINITION. The micro-operations of the operations (R33) and what phase DISPATCH does with one (R34). -/

namespace Sys2Proof.Machine

/-- A micro-operation (R33). -/
inductive MicroOp where
  /-- `TINIT`: emit `TInit`. -/
  | tinit
  /-- `RUN(s, a)`: run the sequence at address `a` of space `s` to its sentinel. -/
  | run (space : Space) (a : U16)
  /-- `ONE(s, a)`: execute the single descriptor at address `a` of space `s`. -/
  | one (space : Space) (a : U16)
  /-- `LOADWIN(xs, ys, xe, ye)`. -/
  | loadwin (xs ys xe ye : U16)
  /-- `LOADFILL(c, x, y, w, h)`. -/
  | loadfill (color x y w h : U16)
  /-- `PIX`: stream `PIXCNT` pixel words. -/
  | pix
deriving DecidableEq, Repr

/-- The window-set of an operation (R33): `RUN(WIN, 0); ONE(CTL, 0)`. -/
def windowSetOps : List MicroOp := [.run .win 0, .one .ctl 0]

/-- The four micro-operations of a fill (R33). -/
def fillOps (color x y w h : U16) : List MicroOp :=
  [.loadfill color x y w h] ++ windowSetOps ++ [.pix]

/-- The micro-operations of a clear of the full panel (R33, R164). -/
def clearOps (c : Config) (color : U16) : List MicroOp :=
  fillOps color 0 0 (panelSize c.panelW) (panelSize c.panelH)

/-- The micro-operations of INIT (R33, R130): the first is present only with `CFG.INIT_CALLS_TINIT`. -/
def initOps (c : Config) : List MicroOp :=
  (if c.initCallsTinit then [.tinit] else []) ++ [.run .rom1 0] ++ clearOps c c.initClearColor ++ [.run .rom2 0]

/-- The list of micro-operations of an operation code (R33); the reserved codes have none. -/
def State.microOps (s : State) : Option (List MicroOp) :=
  match s.op.toNat with
  | 1 => some (initOps s.cfg)
  | 2 => some [.one .ctl 6]
  | 3 => some [.one .ctl 12]
  | 4 => some [.one .ctl 18]
  | 5 => some [.one .ext (s.arg 0)]
  | 6 => some [.run .ext (s.arg 0)]
  | 7 => some ([.loadwin (s.arg 0) (s.arg 1) (s.arg 2) (s.arg 3)] ++ windowSetOps)
  | 8 => some (fillOps (s.arg 0) (s.arg 1) (s.arg 2) (s.arg 3) (s.arg 4))
  | 9 => some (clearOps s.cfg (s.arg 0))
  | _ => none

/-- The assignments of LOADWIN (R33). -/
def loadWindow (xs ys xe ye : U16) (s : State) : State :=
  { s with xs := xs, ys := ys, xe := xe, ye := ye }

/-- The assignments of LOADFILL (R33, R91, R25). -/
def loadFill (color x y w h : U16) (s : State) : State :=
  { loadWindow x y (corner x w) (corner y h) s with color := color, pixcnt := pixelCount w h }

/-- Phase DISPATCH on one micro-operation (R34). -/
def runMicroOp (u : MicroOp) (s : State) : State :=
  match u with
  | .tinit => emit .tInit (fun t => { t with stg := t.stg + 1 }) s
  | .run space a => { s with src := space, sp := a, mode := .run, ph := .fetch }
  | .one space a => { s with src := space, sp := a, mode := .one, ph := .fetch }
  | .loadwin xs ys xe ye => { loadWindow xs ys xe ye s with stg := s.stg + 1 }
  | .loadfill color x y w h => { loadFill color x y w h s with stg := s.stg + 1 }
  | .pix => { s with ph := .pix }

end Sys2Proof.Machine
end

