-- ==== Sys2Proof/Machine/Phases.lean ====
section
/-! DEFINITION. The phases of the step relation (R34 to R40) other than FETCH, whose step is `exec` of the fetched
instruction (Machine/Step.lean). Each emits at most one transaction. -/

namespace Sys2Proof.Machine

/-- Phase DISPATCH (R34): the micro-operation at `STG`, or completion when `STG` is the length of the list. -/
def phaseDispatch (s : State) : Host.Outcome State Fault Refusal :=
  match s.microOps with
  | none => .fault .noMicroOperation
  | some ops =>
    match ops[s.stg.toNat]? with
    | some u => .next (runMicroOp u s)
    | none => if s.stg.toNat = ops.length then .next (complete s) else .fault .noMicroOperation

/-- The phase after the payload, or after the opcode where there is none (R36, R37). -/
def afterPayload (s : State) : State :=
  { s with ph := if s.dlyv = 0 then .adv else .dly }

/-- The phase after the opcode (R36). -/
def afterCommand (s : State) : State :=
  if s.len = 0 then afterPayload s else { s with ph := .data }

/-- Phase CMD (R36). -/
def phaseCmd (s : State) : Host.Outcome State Fault Refusal :=
  .next (emit (.tCmd s.opc) afterCommand s)

/-- Phase DATA (R37): the payload as one transaction. -/
def phaseData (s : State) : Host.Outcome State Fault Refusal :=
  match s.payload with
  | .error f => .fault f
  | .ok bs => .next (emit (.tData bs) afterPayload s)

/-- Phase DLY (R38). -/
def phaseDly (s : State) : Host.Outcome State Fault Refusal :=
  .next (emit (.tDelay s.dlyv) (fun t => { t with ph := .adv }) s)

/-- Phase ADV (R39). -/
def phaseAdv (s : State) : Host.Outcome State Fault Refusal :=
  match s.mode with
  | .one => .next (endMicroOp s)
  | .run => .next { s with sp := nextSp s.sp s.len, ph := .fetch }

/-- Phase PIX (R40). -/
def phasePix (s : State) : Host.Outcome State Fault Refusal :=
  if s.pixcnt = 0 then .next (endMicroOp s)
  else
    .next (emit (.tData (pixelBytes s.color (burst s.cfg s.pixcnt)))
      (fun t => { t with pixcnt := t.pixcnt - BitVec.ofNat 32 (burst t.cfg t.pixcnt) }) s)

/-- The transaction that the block's next step presents to the transport, if it presents one (R34, R36, R37, R38, R40):
the transaction that is outstanding when a hardware reset lands inside that step (R213). -/
def State.outstanding (s : State) : Option Txn :=
  match s.ph with
  | .dispatch =>
    match s.microOps with
    | some ops => if ops[s.stg.toNat]? = some .tinit then some .tInit else none
    | none => none
  | .cmd => some (.tCmd s.opc)
  | .data =>
    match s.payload with
    | .ok bs => some (.tData bs)
    | .error _ => none
  | .dly => some (.tDelay s.dlyv)
  | .pix => if s.pixcnt = 0 then none else some (.tData (pixelBytes s.color (burst s.cfg s.pixcnt)))
  | .idle | .fetch | .adv => none

end Sys2Proof.Machine
end

