-- ==== Sys2Proof/Machine/HostPort.lean ====
section
/-! DEFINITION. The host's side: the register interface (R27, R28, R31), its memory `EXT` (R55, R70), and the hardware reset
input (R44, R210, R213). The one host act that is not here, a write to `OPREG`, is `exec` of the operation written
(Machine/Step.lean). -/

namespace Sys2Proof.Machine

/-- A host read of a register (R27, R28, R31): `OPREG` gives `zext_16(OP)`. It has no side effect. -/
def State.readReg (s : State) : HostReg → U16
  | .opreg => s.op.setWidth 16
  | .arg i => s.arg i
  | .status => s.status

/-- The number of a host register (R31). -/
def HostReg.number : HostReg → Nat
  | .opreg => 0
  | .arg i => 1 + i.val
  | .status => 6

/-- The host reads a register, and knows its value (R31). -/
def hostRead (r : HostReg) (s : State) : State :=
  { s with hostReads := s.hostReads ++ [(r, s.readReg r)] }

/-- The host writes `ARG[i]` (R31): ignored while `BUSY = 1`. -/
def writeArg (i : Fin 5) (v : U16) (s : State) : State :=
  if s.busy then s else { s with args := s.args.set i v }

/-- The host stores a byte in `EXT` (R55). A store while an operation runs leaves the byte it replaces as a value that the
operation may still see (R70; log entry 6). An address that `EXT` does not have faults (log entry 8). -/
def hostStore (a : Nat) (b : Byte) (s : State) : Host.Outcome State Fault Refusal :=
  if a < 2 ^ s.cfg.seqAw then
    if s.busy then
      .next { s with
        ext := s.ext.write a b
        extStale := (a, s.ext.read a) :: s.extStale
        extRaces := s.extRaces + 1 }
    else .next { s with ext := s.ext.write a b }
  else .fault .storeOutsideExt

/-- The registers after hardware reset (R44, R210): those R44 gives, and for the ones it leaves unspecified whatever they
hold (`r`). It emits nothing, and it touches neither the memory `EXT` nor the history. -/
def resetRegisters (r : Residue) (s : State) : State :=
  { s with
    args := Vector.replicate 5 0
    op := 0
    busy := false
    done := false
    fault := 0
    ph := .idle
    xs := r.xs
    ys := r.ys
    xe := r.xe
    ye := r.ye
    color := r.color
    pixcnt := r.pixcnt
    opc := r.opc
    len := r.len
    dlyv := r.dlyv
    src := r.src
    sp := r.sp
    mode := r.mode
    stg := r.stg }

/-- The hardware reset input (R213): between two steps; or while the transaction of the block's next step is outstanding,
and then the trace has that transaction only if the transport completed it. -/
def hardReset (time : ResetTime) (r : Residue) (s : State) : State :=
  match time with
  | .betweenSteps => resetRegisters r s
  | .whileOutstanding completion =>
    match s.outstanding, completion with
    | some t, some a => resetRegisters r { s with trace := s.trace ++ [⟨t, if s.cfg.terr then a else .ok⟩] }
    | _, _ => resetRegisters r s

/-- The host moves that stand for one host operation in the notation of R96: write the arguments, write the code, read
`STATUS` until `BUSY = 0`. -/
def hostCall (code : BitVec 4) (args : List U16) : List HostMove :=
  (List.finRange 5).filterMap (fun i => args[i.val]?.map (fun v => HostMove.write (.arg i) v)) ++
    [.write .opreg (code.setWidth 16), .awaitIdle]

end Sys2Proof.Machine
end

