-- ==== Sys2Proof/Machine/Fetch.lean ====
section
/-! DEFINITION. Laying an instruction's words where the machine takes its next instruction from: `OPREG` for format H, the
sequence memory at the program counter for format D. -/

namespace Sys2Proof.Machine

/-- The longest descriptor (R80): `6 + 255` bytes. -/
def longestDescriptor : Nat := 261

/-- The address in `EXT` of the byte at an offset from `SP` (R56). -/
def State.extAddr (s : State) (off : Nat) : Nat := (s.sp.toNat + off) % 2 ^ s.cfg.seqAw

/-- The host is about to write a value to `OPREG`. -/
def placeOperation (v : U16) (s : State) : State :=
  { s with host := .write .opreg v :: s.host }

/-- A descriptor's bytes stand in `EXT` at `SP`, and a RUNSEQ over `EXT` is about to fetch there. The host, if it has moves
to come, leaves the next step to the block. -/
def placeDescriptor (bs : List Byte) (s : State) : State :=
  { s with
    ext := Memory.writeAll s.extAddr s.ext 0 bs
    extStale := []
    op := 6
    busy := true
    done := false
    fault := 0
    stg := 0
    ph := .fetch
    src := .ext
    mode := .run
    host := if s.host = [] then [] else .pass :: s.host }

end Sys2Proof.Machine
end

