-- ==== Sys2Proof/Machine/Step.lean ====
section
/-! DEFINITION. One step of the machine (R20, R34 to R40): the host's next move, or a step of the block. -/

namespace Sys2Proof.Machine

/-- A step of the block (R34 to R40): the phase `PH` names, and nothing when it is IDLE (R211). The step of phase FETCH is
`exec` of the instruction at (`SRC`, `SP`). -/
def blockStep (s : State) : Host.Outcome State Fault Refusal :=
  match s.ph with
  | .idle => .next s
  | .dispatch => phaseDispatch s
  | .fetch =>
    match s.descriptorAt with
    | .ok i => exec i s
    | .error f => .fault f
  | .cmd => phaseCmd s
  | .data => phaseData s
  | .dly => phaseDly s
  | .adv => phaseAdv s
  | .pix => phasePix s

/-- One host move (R31, R55, R96, R210). A write to `OPREG` is `exec` of the operation it names; a write to `STATUS` is
ignored (R28). -/
def hostStep (m : HostMove) (s : State) : Host.Outcome State Fault Refusal :=
  match m with
  | .write .opreg v => exec (decodeOp v) s
  | .write (.arg i) v => .next (writeArg i v s)
  | .write .status _ => .next s
  | .read r => .next (hostRead r s)
  | .storeExt a b => hostStore a b s
  | .pass => blockStep s
  | .awaitIdle => .next s
  | .hardReset time r => .next (hardReset time r s)

/-- One step: with no host move to come the block takes its step; otherwise the first move is made. A host that waits for
the block (`awaitIdle`) stays at that move, and the block steps, as long as `BUSY = 1`. -/
def step (s : State) : Host.Outcome State Fault Refusal :=
  match s.host with
  | [] => blockStep s
  | .awaitIdle :: rest => if s.busy then blockStep s else .next { s with host := rest }
  | m :: rest => hostStep m { s with host := rest }

/-- An instruction of the opcode table stored where the next step takes its instruction from (log entry 12): a value of
format H is the host's next write to `OPREG`; the bytes of a descriptor stand in `EXT` at `SP`, which the block is about to
fetch in a run over `EXT`. -/
def State.withFetchWord (s : State) (nbits w : Nat) : State :=
  if tableWordIsHost nbits then placeOperation (BitVec.ofNat 16 (w % 2 ^ nbits)) s
  else placeDescriptor ((List.range longestDescriptor).map (tableByte nbits w)) s

end Sys2Proof.Machine
end

