-- ==== Sys2Proof/Machine/Tables.lean ====
section
/-! DEFINITION. Well-formed sequences (R88) and the legal configurations: the ranges of R7 and the required contents of the
two initialization tables (R132 to R134). -/

namespace Sys2Proof

/-- The descriptors of a list of bytes that is exactly a well-formed sequence (R88): `fuel` bounds their number. -/
def parseSeq (c : Config) : Nat → List Byte → Option (List Desc)
  | 0, _ => none
  | fuel + 1, bs =>
    match decodeBytes c bs with
    | .error _ => none
    | .ok (i, rest) =>
      match i.toDesc c with
      | none => if rest = [] then some [] else none
      | some d =>
        match parseSeq c fuel rest with
        | none => none
        | some ds => some (d :: ds)

/-- The descriptors of a list of bytes, if it is exactly `encseq(ds)` for some `ds`, with no byte after the sentinel
(R88). -/
def sequenceOf (c : Config) (bs : List Byte) : Option (List Desc) := parseSeq c bs.length bs

/-- The required contents of `ROM1` (R132) and its delays (R134). That a payload of `d_5` selects 16-bit colour is not
checked, since the spec gives no bytes for it (log entry 11). -/
def romOneConforms (c : Config) : List Desc → Bool
  | d0 :: d1 :: d2 :: d3 :: d4 :: d5 :: d6 :: d7 :: d8 :: table =>
    d0.opcode == c.opSlpin && d1.opcode == c.opSwreset && d2.opcode == c.opSlpout && d3.opcode == c.opCmd2en &&
      d4.opcode == c.opMadctl && d5.opcode == c.opColmod && d6.opcode == c.opInvon &&
      d7.opcode == c.opCaset && d7.payload == pair 0 (BitVec.ofNat 16 (c.panelW - 1)) &&
      d8.opcode == c.opRaset && d8.payload == pair 0 (BitVec.ofNat 16 (c.panelH - 1)) &&
      [d0, d1, d2].all (fun d => decide (0 < d.delay.toNat) &&
        (d3 :: d4 :: d5 :: d6 :: d7 :: d8 :: table).all (fun e => decide (e.delay.toNat < d.delay.toNat)))
  | _ => false

/-- The required contents of `ROM2` (R133). -/
def romTwoConforms (c : Config) : List Desc → Bool
  | [e0, e1, e2, e3, e4] =>
    e0.opcode == c.opRgbctrl && e1.opcode == c.opRamctrl && e2.opcode == c.opDispon && e3.opcode == c.opSlpout &&
      e4.opcode == c.opRamwr && e4.payload == []
  | _ => false

/-- A table that is a well-formed sequence with required contents, of a size that the space can have (R50, R51, R52). -/
def romLegal (c : Config) (conforms : List Desc → Bool) (rom : List Byte) : Bool :=
  decide (rom.length ≤ 2 ^ 16) &&
    (match sequenceOf c rom with
    | some ds => conforms ds
    | none => false)

/-- No named opcode is the sentinel (R7). -/
def Config.sentinelApart (c : Config) : Bool := !c.namedOps.contains c.opEnd

/-- A legal configuration (R7). -/
def Config.legal (c : Config) : Bool :=
  decide (1 ≤ c.panelW) && decide (c.panelW ≤ 65535) && decide (1 ≤ c.panelH) && decide (c.panelH ≤ 65535) &&
    c.sentinelApart && romLegal c (romOneConforms c) c.rom1 && romLegal c (romTwoConforms c) c.rom2 &&
    decide (1 ≤ c.fillBurst) && decide (c.fillBurst ≤ 127) && decide (1 ≤ c.seqAw) && decide (c.seqAw ≤ 16)

end Sys2Proof
end

