-- ==== Sys2Proof/Machine/Functions.lean ====
section
/-! DEFINITION. The functions by which the spec gives the operations their transactions (R110, R111, R130, R150, R160,
R164): each answers the list of transactions that it emits, in order. They are the second presentation of R43; the machine
does not call them, and statements compare the two. -/

namespace Sys2Proof.Machine

/-- `exec_desc(d)` (R110). -/
def execDesc (c : Config) (d : Desc) : List Txn :=
  if d.opcode = c.opEnd then []
  else
    [.tCmd d.opcode] ++ (if d.payload = [] then [] else [.tData d.payload]) ++
      (if d.delay = 0 then [] else [.tDelay d.delay])

/-- `run_seq` of a well-formed sequence `encseq(ds)` (R111): `exec_desc` of each descriptor, in order, and nothing else. -/
def seqTxns (c : Config) (ds : List Desc) : List Txn := ds.flatMap (execDesc c)

/-- `run_seq(space, a)` as R111 writes its loop, with a bound on the number of descriptors: `none` when the bound is reached
before a sentinel. -/
def State.runSeq (s : State) (space : Space) : Nat → U16 → Except Fault (Option (List Txn))
  | 0, _ => .ok none
  | fuel + 1, p =>
    match decodeWith s.cfg (s.byteAt space p) with
    | .error f => .error f
    | .ok i =>
      match i.toDesc s.cfg with
      | none => .ok (some [])
      | some d =>
        match State.runSeq s space fuel (nextSp p (BitVec.ofNat 8 d.payload.length)) with
        | .error f => .error f
        | .ok none => .ok none
        | .ok (some ts) => .ok (some (execDesc s.cfg d ++ ts))

/-- `set_window(xs, ys, xe, ye)` (R150). -/
def setWindow (c : Config) (xs ys xe ye : U16) : List Txn :=
  seqTxns c (windowDescs c xs ys xe ye) ++ execDesc c ⟨c.opRamwr, 0, []⟩

/-- The loop of `fill_area` (R160): `n` pixel words, at most `CFG.FILL_BURST` to a transaction; `fuel` bounds the number of
transactions. -/
def pixelTxns (c : Config) (color : U16) : Nat → Nat → List Txn
  | 0, _ => []
  | fuel + 1, n =>
    if n = 0 then []
    else .tData (pixelBytes color (min n c.fillBurst)) :: pixelTxns c color fuel (n - min n c.fillBurst)

/-- `fill_area(color, x, y, w, h)` (R160). -/
def fillArea (c : Config) (color x y w h : U16) : List Txn :=
  setWindow c x y (corner x w) (corner y h) ++
    pixelTxns c color (w.toNat * h.toNat) (w.toNat * h.toNat)

/-- `clear(color)` (R164). -/
def clearPanel (c : Config) (color : U16) : List Txn :=
  fillArea c color 0 0 (panelSize c.panelW) (panelSize c.panelH)

/-- `init()` (R130) for tables that are `encseq` of these descriptors. -/
def initTxns (c : Config) (one two : List Desc) : List Txn :=
  (if c.initCallsTinit then [.tInit] else []) ++ seqTxns c one ++ clearPanel c c.initClearColor ++ seqTxns c two

/-- `stream(T')` (R167): the bytes of the data transactions, one after another. -/
def dataStream (ts : List Txn) : List Byte :=
  ts.flatMap (fun t => match t with
    | .tData bs => bs
    | .tInit | .tCmd _ | .tDelay _ => [])

end Sys2Proof.Machine
end

