-- ==== Sys2Proof/Safety.lean ====
section
/-! DEFINITION. The terms in which statements speak of runs: several steps, transactions that succeed, the invariant of the
machine, and what can be observed of it. -/

namespace Sys2Proof.Machine

/-! ### Runs -/

/-- `n` steps, stopping at the first fault or refusal. -/
def runSteps : Nat → State → Host.Outcome State Fault Refusal
  | 0, s => .next s
  | n + 1, s =>
    match step s with
    | .next t => runSteps n t
    | .fault f => .fault f
    | .refused r => .refused r

/-- The transport answers `ok` to the next `m` transactions (R186): it always does without `TERR`. -/
def State.answersOk (s : State) (m : Nat) : Prop :=
  s.cfg.terr = true → s.answers.take m = List.replicate m .ok

/-- The state after transactions that all succeeded, and nothing else (R12, R186). -/
def State.afterTxns (ts : List Txn) (s : State) : State :=
  { s with
    trace := s.trace ++ ts.map (fun t => ⟨t, .ok⟩)
    answers := if s.cfg.terr then s.answers.drop ts.length else s.answers }

/-- The transactions of the trace (R12). -/
def State.txns (s : State) : List Txn := s.trace.map Entry.txn

/-- The block is idle and takes an operation: `BUSY = 0`, no TransportError latched (R32 (a)). -/
def State.ready (s : State) : Prop := s.busy = false ∧ s.fault ≠ faultTransportError

/-- The state in which an operation is accepted (R32 (d)). -/
def State.accepted (s : State) (code : BitVec 4) : State :=
  { s with op := code, fault := 0, done := false, busy := true, stg := 0, ph := .dispatch, extStale := [] }

/-- The state in which a request is turned away by a fault (R32 (b), (c), R184). -/
def State.turnedAway (s : State) (code : BitVec 4) (fault : BitVec 3) : State :=
  { s with op := code, fault := fault, done := false, busy := false, ph := .idle, faultLog := s.faultLog ++ [fault] }

/-- The bytes of `EXT` from a byte address on (R55, R56), as the memory holds them. -/
def State.extHolds (s : State) (base : U16) (bs : List Byte) : Prop :=
  ∀ k : Nat, ∀ b : Byte, bs[k]? = some b → s.ext.read ((base.toNat + k) % 2 ^ s.cfg.seqAw) = b

/-- The position of the `k`-th descriptor that a run over `EXT` from `ARG[0]` comes to, as `SP` holds it, where no sentinel stops
it (R56, R57, R86): each stands `6 + len` bytes after the one before, `len` being that one's length byte. -/
def State.runPosition (s : State) : Nat → U16
  | 0 => s.args[0]
  | k + 1 =>
    nextSp (s.runPosition k) (s.ext.read (((s.runPosition k).toNat + 1) % 2 ^ s.cfg.seqAw))

/-! ### Steps of runs (R168, 95_test_vectors.md) -/

/-- The steps of a `RUN` over a sequence of descriptors: the dispatch, for each descriptor FETCH, its transactions and ADV,
and FETCH of the sentinel. -/
def runStepCount (c : Config) (ds : List Desc) : Nat := 2 + 2 * ds.length + (seqTxns c ds).length

/-- The steps of a `ONE`: the dispatch, FETCH, the transactions, ADV. -/
def oneStepCount (c : Config) (d : Desc) : Nat := 3 + (execDesc c d).length

/-- The transactions of a pixel stream of `n` words (R167): `ceil(n / CFG.FILL_BURST)`. -/
def pixelTxnCount (c : Config) (n : Nat) : Nat := (n + c.fillBurst - 1) / c.fillBurst

/-- The steps of a fill of `n` pixels before it completes (R168): LOADFILL, the window-set, the entry to PIX, its
transactions, its end. -/
def fillStepCount (c : Config) (n : Nat) : Nat := 17 + pixelTxnCount c n

/-! ### What the trace may hold -/

/-- A transaction that the block may emit (R59, R60, R85): never the sentinel as a command; 1 to 255 data bytes; a delay
greater than zero. -/
def Txn.legal (c : Config) : Txn → Bool
  | .tInit => true
  | .tCmd b => b != c.opEnd
  | .tData bs => decide (1 ≤ bs.length) && decide (bs.length ≤ 255)
  | .tDelay ms => ms != 0

/-- Whether a data transaction may come next: some command, and no `TInit` since (R60). -/
def armedAfter (armed : Bool) : Txn → Bool
  | .tInit => false
  | .tCmd _ => true
  | .tData _ => armed
  | .tDelay _ => armed

/-- Whether a data transaction may follow a list of transactions (R60). -/
def armedBy (ts : List Txn) : Bool := ts.foldl armedAfter false

/-- Every data transaction follows a command with no `TInit` between them (R60). -/
def dataFollowsCommand (armed : Bool) : List Txn → Bool
  | [] => true
  | t :: ts =>
    (match t with
      | .tData _ => armed
      | .tInit | .tCmd _ | .tDelay _ => true) && dataFollowsCommand (armedAfter armed t) ts

/-! ### The invariant -/

/-- The phases in which a descriptor is fetched or executed (R29). -/
def Phase.inDescriptor : Phase → Bool
  | .fetch | .cmd | .data | .dly | .adv => true
  | .idle | .dispatch | .pix => false

/-- A run over fixed contents stands at the start of a descriptor or of the sentinel (R51, R52, R54), and the header
registers hold that descriptor's header once it is fetched (R26). -/
def State.inSequence (s : State) (bytes : List Byte) : Prop :=
  s.mode = .run ∧ bytes.length ≤ 2 ^ 16 ∧
    ∃ ds : List Desc, (∀ d ∈ ds, d.wf s.cfg = true) ∧ bytes.drop s.sp.toNat = encSeq s.cfg ds ∧
      (s.ph ≠ .fetch → ∃ d rest, ds = d :: rest ∧ s.opc = d.opcode ∧
        s.len = BitVec.ofNat 8 d.payload.length ∧ s.dlyv = d.delay)

/-- Where the program counter stands while a descriptor is fetched or executed (R29, R51 to R55, R66). -/
def State.pcOk (s : State) : Prop :=
  match s.src with
  | .rom1 => s.inSequence s.cfg.rom1
  | .rom2 => s.inSequence s.cfg.rom2
  | .win => s.inSequence (winBytes s.cfg s.xs s.ys s.xe s.ye)
  | .ctl => s.mode = .one ∧ s.sp.toNat ∈ [0, 6, 12, 18] ∧ (s.ph ≠ .fetch → s.len = 0)
  | .ext => True

/-- The micro-operation that is being run (R33, R34): `STG` lies in the list of `OP`, and what the phase does is what the
micro-operation at `STG` asks for. -/
def State.microOpOk (s : State) (ops : List MicroOp) : Prop :=
  s.microOps = some ops ∧ s.stg.toNat ≤ ops.length ∧
    (s.ph.inDescriptor = true →
      (∃ a, ops[s.stg.toNat]? = some (.run s.src a) ∧ s.mode = .run) ∨
      (ops[s.stg.toNat]? = some (.one s.src s.sp) ∧ s.mode = .one)) ∧
    (s.ph = .pix → ops[s.stg.toNat]? = some .pix) ∧
    (ops[s.stg.toNat]? = some .pix → armedBy s.txns = true)

/-- The invariant of the machine. -/
structure State.Inv (s : State) : Prop where
  /-- The configuration is legal (R7). -/
  cfgLegal : s.cfg.legal = true
  /-- `EXT` is in its canonical form and holds only its own addresses (R55). -/
  extWf : s.ext.wf = true
  extBelow : s.ext.below (2 ^ s.cfg.seqAw) = true
  /-- `BUSY = 1` exactly when `PH != IDLE` (R30). -/
  busyIff : s.busy = decide (s.ph ≠ .idle)
  /-- `DONE` and `FAULT` are clear during an operation (R28, R32). -/
  busyClear : s.busy = true → s.done = false ∧ s.fault = 0
  /-- An operation that completed has no fault (R28, R45). -/
  doneClear : s.done = true → s.fault = 0
  /-- `FAULT` holds a code of R180. -/
  faultCode : s.fault.toNat ≤ 3
  /-- What runs is a micro-operation of an operation (R33, R34). -/
  running : s.ph ≠ .idle → ∃ ops, s.microOpOk ops
  /-- Where it fetches (R29). -/
  pc : s.ph.inDescriptor = true → s.pcOk
  /-- The header in the phases that use it (R35, R36, R37). -/
  header : s.ph.inDescriptor = true → s.ph ≠ .fetch → s.opc ≠ s.cfg.opEnd
  dataPhase : s.ph = .data → s.len ≠ 0 ∧ armedBy s.txns = true
  dlyPhase : s.ph = .dly → s.dlyv ≠ 0 ∧ armedBy s.txns = true
  advPhase : s.ph = .adv → armedBy s.txns = true
  /-- The trace (R59, R60, R85). -/
  traceLegal : ∀ t ∈ s.txns, t.legal s.cfg = true
  traceData : dataFollowsCommand false s.txns = true

/-- The host's next move, if any, stores in `EXT` only at an address that `EXT` has (R55). -/
def State.hostInExt (s : State) : Prop :=
  ∀ a b rest, s.host = .storeExt a b :: rest → a < 2 ^ s.cfg.seqAw

/-! ### What can be observed (R46) -/

/-- The machine with other values in the registers that are unspecified after reset (R44). -/
def State.scramble (r : Residue) (s : State) : State :=
  { s with
    xs := r.xs, ys := r.ys, xe := r.xe, ye := r.ye, color := r.color, pixcnt := r.pixcnt, opc := r.opc, len := r.len
    dlyv := r.dlyv, src := r.src, sp := r.sp, mode := r.mode, stg := r.stg }

/-- All those registers zero. -/
def Residue.zero : Residue where
  xs := 0
  ys := 0
  xe := 0
  ye := 0
  color := 0
  pixcnt := 0
  opc := 0
  len := 0
  dlyv := 0
  src := .rom1
  sp := 0
  mode := .one
  stg := 0

/-- An outcome without the registers that are unspecified after reset: the flags, the phase, the host's registers and
memory, the trace, and which way the machine stopped. -/
def observe : Host.Outcome State Fault Refusal → Host.Outcome State Fault Refusal
  | .next s => .next (s.scramble Residue.zero)
  | .fault f => .fault f
  | .refused r => .refused r

end Sys2Proof.Machine
end

