-- ==== Sys2Proof/Certificates/Slice0/Obligations.lean ====
section
/-! DEFINITION. The statements for the provers. Each says in its docstring which rule of spec/ it formalises, or that it is
derived, and which log entries it rests on. -/

open Sys2Proof Sys2Proof.Machine

/-! ### Encodings -/

/-- Words of spec/opcode_table.json, each family at least once, written out from R81, R84, R85 and the opcode bytes of R93, are
read as the instructions they stand for. That a word is given as a number and a width, byte 0 in its low bits, and that a
16-bit word is a value written to `OPREG` while a word of another width is a descriptor's bytes, is the model's choice, log
entry 12 (DESIGN CHOICE), and no rule of the spec. Derived. -/
def Obligations.TableWordsReadAsTheirInstructions : Prop :=
  decodeTableWord 16 0x0001 = some .init ∧ decodeTableWord 16 0x0004 = some .dispoff ∧
  decodeTableWord 16 0x0006 = some .runseq ∧ decodeTableWord 16 0x0007 = some .setwin ∧
  decodeTableWord 16 0x1238 = some .fill ∧ decodeTableWord 16 0x000C = some .reserved12 ∧
  decodeTableWord 8 0xFF = some .sentinel ∧ decodeTableWord 8 0x01 = some (.cmdSwreset 0 []) ∧
  decodeTableWord 48 0x960000000001 = some (.cmdSwreset 150 []) ∧
  decodeTableWord 56 0x550A00000001AA = some (.cmd 0xAA 10 [0x55]) ∧
  decodeBytes Config.tiny [0x3A, 0x01, 0x00, 0x00, 0x00, 0x0A, 0x55, 0xFF] = .ok (.cmdColmod 10 [0x55], [0xFF])

/-- R81: in the value written to `OPREG` bits 3 to 0 are the operation code and bits 15 to 4 are ignored. -/
def Obligations.OperationCodeIsTheLowFourBits : Prop :=
  ∀ v w : U16, (decodeOp v).opCode = some (v.extractLsb' 0 4) ∧ (decodeOp v).format = .h ∧
    (v.extractLsb' 0 4 = w.extractLsb' 0 4 → decodeOp v = decodeOp w)

/-- Decode and encode agree (R81, R84 to R88): for every instruction that the encoding admits, in every configuration whose
named opcodes differ, decoding the words that encode it gives it back; a descriptor may be followed by any bytes, which
are left over. Derived. -/
def Obligations.EncodedInstructionsDecodeToThemselves : Prop :=
  ∀ (c : Config) (i : Instr), c.namedDistinct = true → i.wf c = true →
    (∀ v, encode c i = .host v → decode c (.host v) = .ok (i, [])) ∧
    (∀ bs rest, encode c i = .desc bs → decode c (.desc (bs ++ rest)) = .ok (i, rest))

/-- R87, both directions, in every configuration: decoding the bytes of a descriptor record gives an instruction of that
record and leaves the rest; and whatever bytes are decoded as a command are the encoding of its record. Derived: R87 also
speaks of a space, which `DescriptorBytesInASpaceAreFetched` states. -/
def Obligations.DescriptorRecordAndBytesAgree : Prop :=
  ∀ c : Config,
    (∀ (d : Desc) (rest : List Byte), d.wf c = true →
      ∃ i, decodeBytes c (d.enc ++ rest) = .ok (i, rest) ∧ i.toDesc c = some d) ∧
    (∀ (bs rest : List Byte) (i : Instr), decodeBytes c bs = .ok (i, rest) →
      (i = .sentinel ∧ bs = c.opEnd :: rest) ∨
      (∃ d, i.toDesc c = some d ∧ d.wf c = true ∧ bs = d.enc ++ rest))

/-- R88: the descriptors of a well-formed sequence are unique, whatever follows its sentinel. Derived. -/
def Obligations.WellFormedSequenceHasOneReading : Prop :=
  ∀ (c : Config) (ds es : List Desc) (rest more : List Byte),
    (∀ d ∈ ds, d.wf c = true) → (∀ e ∈ es, e.wf c = true) →
    encSeq c ds ++ rest = encSeq c es ++ more → ds = es ∧ rest = more

/-- R88 as the check of a legal configuration uses it: the parser of a table accepts exactly the encodings of sequences of
descriptors, with no byte after the sentinel. Derived. -/
def Obligations.TableParserAcceptsExactlySequences : Prop :=
  ∀ (c : Config) (bs : List Byte) (ds : List Desc),
    sequenceOf c bs = some ds ↔ (∀ d ∈ ds, d.wf c = true) ∧ bs = encSeq c ds

/-! ### Reset -/

/-- Hardware reset, whenever it comes and whatever the unspecified registers hold, sets `PH`, `BUSY`, `DONE`, `FAULT`, `OP`
and `ARG[0..4]` (R44, R210); the registers that R44 leaves unspecified hold what the reset left in them. It emits no
transaction of its own: the trace is as it was, or, when the transaction of a step was outstanding and the transport completed
it, that one longer, with the completion's answer under `TERR` and `ok` without (R213). That memory, configuration and history
stay, and that the fate of the outstanding transaction comes with the reset, is log entry 10 (DEDUCED); the answer `ok` without
`TERR` is log entry 14 (DESIGN CHOICE). Derived. -/
def Obligations.HardwareResetLeavesTheBlockIdle : Prop :=
  ∀ (s : State) (time : ResetTime) (r : Residue) (rest : List HostMove), s.host = .hardReset time r :: rest →
    ∃ trace, step s = .next
      { s with
        host := rest, trace := trace
        args := Vector.replicate 5 0, op := 0, busy := false, done := false, fault := 0, ph := .idle
        xs := r.xs, ys := r.ys, xe := r.xe, ye := r.ye, color := r.color, pixcnt := r.pixcnt, opc := r.opc
        len := r.len, dlyv := r.dlyv, src := r.src, sp := r.sp, mode := r.mode, stg := r.stg } ∧
      (time = .betweenSteps ∨ time = .whileOutstanding none ∨ s.outstanding = none → trace = s.trace) ∧
      (∀ a t, time = .whileOutstanding (some a) → s.outstanding = some t →
        trace = s.trace ++ [⟨t, if s.cfg.terr then a else .ok⟩])

/-- R211: the idle block fetches nothing and emits nothing: with no host move its step changes nothing; right after
reset the registers a host reads are all 0 (vector V60). Derived. -/
def Obligations.IdleBlockDoesNothing : Prop :=
  (∀ s : State, s.ph = .idle → s.host = [] → step s = .next s) ∧
  (∀ (c : Config) (r : HostReg), (State.resetWith c).readReg r = 0)

/-! ### The host interface -/

/-- R31: any host register can be read at any time, with no effect but the host's knowledge of its current value; a write to
`ARG[i]` or `OPREG` while `BUSY = 1` changes nothing; a write to `ARG[i]` while `BUSY = 0` sets `ARG[i]` and nothing else,
whatever `FAULT` holds; a write to `STATUS` is ignored (R28). Derived: R31's numbers are not in it. -/
def Obligations.HostAccessReadsAnyTimeAndWritesOnlyWhenIdle : Prop :=
  ∀ (s : State) (rest : List HostMove) (v : U16),
    (∀ r, s.host = .read r :: rest →
      step s = .next { s with host := rest, hostReads := s.hostReads ++ [(r, s.readReg r)] }) ∧
    (s.busy = true → s.host = .write .opreg v :: rest → step s = .next { s with host := rest }) ∧
    (∀ i, s.busy = true → s.host = .write (.arg i) v :: rest → step s = .next { s with host := rest }) ∧
    (∀ i, s.busy = false → s.host = .write (.arg i) v :: rest →
      ∃ t, step s = .next { s with host := rest, args := t } ∧ t[i] = v ∧ ∀ j : Fin 5, j ≠ i → t[j] = s.args[j]) ∧
    (s.host = .write .status v :: rest → step s = .next { s with host := rest })

/-- The layout of `STATUS` and the value of `OPREG` as the host reads them (R27, R28). Derived. -/
def Obligations.StatusWordHoldsTheFlags : Prop :=
  ∀ s : State, (s.readReg .status).getLsbD 0 = s.busy ∧ (s.readReg .status).getLsbD 1 = s.done ∧
    (s.readReg .status).extractLsb' 2 3 = s.fault ∧ (s.readReg .status).extractLsb' 5 11 = 0 ∧
    (s.readReg .opreg).toNat = s.op.toNat ∧ ∀ i, s.readReg (.arg i) = s.args[i]

/-- R32, whole: what a host write of `v` to `OPREG` does while `BUSY = 0`, by the first of the four cases that applies. The
model's own records besides: a raised fault's code is added to `faultLog`, and acceptance clears `extStale`. -/
def Obligations.WriteToOpregDoesTheFirstCaseThatApplies : Prop :=
  ∀ (s : State) (v : U16), s.busy = false →
    let c := (v.extractLsb' 0 4).toNat
    let code : BitVec 4 := v.extractLsb' 0 4
    let outside := (c = 7 ∧ ¬ (s.args[0].toNat ≤ s.args[2].toNat ∧ s.args[2].toNat < s.cfg.panelW ∧
          s.args[1].toNat ≤ s.args[3].toNat ∧ s.args[3].toNat < s.cfg.panelH)) ∨
        (c = 8 ∧ ¬ (1 ≤ s.args[3].toNat ∧ 1 ≤ s.args[4].toNat ∧
          s.args[1].toNat + s.args[3].toNat - 1 < s.cfg.panelW ∧ s.args[2].toNat + s.args[4].toNat - 1 < s.cfg.panelH))
    (s.fault = 2 ∧ c ≠ 1 → exec (decodeOp v) s = .next s) ∧
    (¬ (s.fault = 2 ∧ c ≠ 1) →
      ((c = 0 ∨ 10 ≤ c) → exec (decodeOp v) s = .next (s.turnedAway code 3)) ∧
      (1 ≤ c ∧ c ≤ 9 →
        (s.cfg.geomCheck = true ∧ outside → exec (decodeOp v) s = .next (s.turnedAway code 1)) ∧
        (¬ (s.cfg.geomCheck = true ∧ outside) → exec (decodeOp v) s = .next (s.accepted code))))

/-- INIT, RESET, DISPON, DISPOFF, RUNCMD, RUNSEQ and CLEAR are accepted by every idle block with no TransportError latched,
and INIT also with one (R32 (d), R131): the whole next state. Derived. -/
def Obligations.UncheckedOperationsAreAccepted : Prop :=
  ∀ s : State, s.busy = false →
    exec .init s = .next (s.accepted 1) ∧
    (s.fault ≠ 2 →
      exec .reset s = .next (s.accepted 2) ∧ exec .dispon s = .next (s.accepted 3) ∧
      exec .dispoff s = .next (s.accepted 4) ∧ exec .runcmd s = .next (s.accepted 5) ∧
      exec .runseq s = .next (s.accepted 6) ∧ exec .clear s = .next (s.accepted 9))

/-- R83: each reserved operation code, 0 and 10 to 15, written while the block is idle with no TransportError latched, raises
IllegalOp (code 3) and emits no transaction: the whole next state. The model's own record of faults takes the code. -/
def Obligations.ReservedCodesRaiseIllegalOp : Prop :=
  ∀ s : State, s.busy = false → s.fault ≠ 2 →
    exec .reserved0 s = .next (s.turnedAway 0 3) ∧ exec .reserved10 s = .next (s.turnedAway 10 3) ∧
    exec .reserved11 s = .next (s.turnedAway 11 3) ∧ exec .reserved12 s = .next (s.turnedAway 12 3) ∧
    exec .reserved13 s = .next (s.turnedAway 13 3) ∧ exec .reserved14 s = .next (s.turnedAway 14 3) ∧
    exec .reserved15 s = .next (s.turnedAway 15 3) ∧
    (∀ v : U16, ((v.extractLsb' 0 4).toNat = 0 ∨ 10 ≤ (v.extractLsb' 0 4).toNat) →
      exec (decodeOp v) s = .next (s.turnedAway (v.extractLsb' 0 4) 3)) ∧
    ∀ code, (s.turnedAway code 3).trace = s.trace

/-- R182: with `CFG.GEOM_CHECK` SETWIN is accepted exactly when its window lies on the panel and FILL exactly when its region
does, with all sums over the integers, and otherwise raises InvalidRegion with no transaction; without it both are accepted;
CLEAR, INIT, RUNCMD and RUNSEQ are not checked. -/
def Obligations.GeometryCheckGuardsSetwinAndFillOnly : Prop :=
  ∀ s : State, s.busy = false → s.fault ≠ 2 →
    let window := s.args[0].toNat ≤ s.args[2].toNat ∧ s.args[2].toNat < s.cfg.panelW ∧
      s.args[1].toNat ≤ s.args[3].toNat ∧ s.args[3].toNat < s.cfg.panelH
    let region := 1 ≤ s.args[3].toNat ∧ 1 ≤ s.args[4].toNat ∧
      s.args[1].toNat + s.args[3].toNat - 1 < s.cfg.panelW ∧ s.args[2].toNat + s.args[4].toNat - 1 < s.cfg.panelH
    (s.cfg.geomCheck = true →
      (window → exec .setwin s = .next (s.accepted 7)) ∧ (¬ window → exec .setwin s = .next (s.turnedAway 7 1)) ∧
      (region → exec .fill s = .next (s.accepted 8)) ∧ (¬ region → exec .fill s = .next (s.turnedAway 8 1))) ∧
    (s.cfg.geomCheck = false → exec .setwin s = .next (s.accepted 7) ∧ exec .fill s = .next (s.accepted 8)) ∧
    exec .clear s = .next (s.accepted 9) ∧ exec .init s = .next (s.accepted 1) ∧
    exec .runcmd s = .next (s.accepted 5) ∧ exec .runseq s = .next (s.accepted 6)

/-- A latched TransportError turns away every code but INIT, and INIT's acceptance clears it (R32 (a), R185, R189): the codes
1 and 3 turn away nothing. Derived. -/
def Obligations.TransportErrorTurnsAwayAllButInit : Prop :=
  ∀ (s : State) (i : Instr), s.busy = false → i.format = .h →
    (s.fault = 2 → i ≠ .init → exec i s = .next s) ∧
    (s.fault = 2 → exec .init s = .next (s.accepted 1) ∧ (s.accepted 1).fault = 0) ∧
    (s.fault ≠ 2 → ∃ t code, exec i s = .next t ∧ i.opCode = some code ∧ t.op = code ∧ t.fault ≠ 2)

/-- The frame of every instruction's own step: what it never changes. An operation's write to `OPREG` leaves every datapath
and sequencing register but `STG`, the arguments, the memory, the trace, the configuration and the host; a descriptor's
fetch leaves the flags, `OP`, the program counter, `MODE`, the window, the colour and all of those too (R22, R29, R32, R35).
Derived. -/
def Obligations.InstructionStepsKeepTheirFrame : Prop :=
  ∀ (i : Instr) (s t : State), exec i s = .next t →
    (i.format = .h → t =
      { s with
        op := t.op, busy := t.busy, done := t.done, fault := t.fault, stg := t.stg, ph := t.ph
        extStale := t.extStale, faultLog := t.faultLog }) ∧
    (i.format = .d → t = { s with opc := t.opc, len := t.len, dlyv := t.dlyv, stg := t.stg, ph := t.ph })

/-! ### The step -/

/-- What a step is, by the host's next move. With a write to `OPREG` it is `exec` of the operation that the value's code names
(R27, R81); with no move to come it is the block's step; a move `pass` leaves the step to the block; a host that reads
`STATUS` until `BUSY = 0` (`awaitIdle`: R96, R188) leaves every step to the block while `BUSY = 1` and stays at that move, and
is done with it, nothing else changing, when `BUSY = 0`. A move that is used up is taken off the list and nothing else is
added. That the host is a list of moves, each a step, is log entry 9 (DESIGN CHOICE). Derived. -/
def Obligations.StepRunsTheWrittenOperation : Prop :=
  ∀ (s : State) (v : U16) (rest : List HostMove),
    (s.host = .write .opreg v :: rest → step s = exec (decodeOp v) { s with host := rest }) ∧
    (s.host = [] → step s = blockStep s) ∧
    (s.host = .pass :: rest → step s = blockStep { s with host := rest }) ∧
    (s.host = .awaitIdle :: rest → s.busy = true →
      step s = blockStep s ∧ ∀ t, blockStep s = .next t → t.host = .awaitIdle :: rest) ∧
    (s.host = .awaitIdle :: rest → s.busy = false → step s = .next { s with host := rest })

/-- A step of the block in phase FETCH is `exec` of the instruction whose bytes stand at (`SRC`, `SP`) (R29, R35): for every
list of bytes at the program counter that decodes to an instruction. The bytes are those that the space gives; nothing is
added around `exec`. Derived. -/
def Obligations.DescriptorBytesInASpaceAreFetched : Prop :=
  ∀ (s : State) (bs rest : List Byte) (i : Instr), s.host = [] → s.ph = .fetch →
    decodeBytes s.cfg bs = .ok (i, rest) →
    (∀ k b, bs[k]? = some b → s.byteAt s.src s.sp k = .ok b) →
    step s = exec i s

/-- The bytes of space `CTL` (R53), at every address, from a program counter of any value; outside its 24 bytes a read has
no value (U6). -/
def Obligations.ControlSpaceHoldsFourDescriptors : Prop :=
  ∀ (s : State) (base : U16) (k : Nat),
    let a := (base.toNat + k) % 2 ^ 16
    let d := s.cfg.resetDelayMs
    let e := s.cfg.disponDelayMs
    let f := s.cfg.dispoffDelayMs
    s.byteAt .ctl base k =
      (match a with
      | 0 => .ok s.cfg.opRamwr
      | 1 | 2 | 3 | 4 | 5 | 7 | 13 | 19 => .ok 0
      | 6 => .ok s.cfg.opSwreset
      | 8 => .ok (d.extractLsb' 24 8)
      | 9 => .ok (d.extractLsb' 16 8)
      | 10 => .ok (d.extractLsb' 8 8)
      | 11 => .ok (d.extractLsb' 0 8)
      | 12 => .ok s.cfg.opDispon
      | 14 => .ok (e.extractLsb' 24 8)
      | 15 => .ok (e.extractLsb' 16 8)
      | 16 => .ok (e.extractLsb' 8 8)
      | 17 => .ok (e.extractLsb' 0 8)
      | 18 => .ok s.cfg.opDispoff
      | 20 => .ok (f.extractLsb' 24 8)
      | 21 => .ok (f.extractLsb' 16 8)
      | 22 => .ok (f.extractLsb' 8 8)
      | 23 => .ok (f.extractLsb' 0 8)
      | _ => .error .readOutsideSpace)

/-- The bytes of space `WIN` (R54): at every moment this function of the window registers; outside its 21 bytes a read has
no value (U6). -/
def Obligations.WindowSpaceFollowsTheWindowRegisters : Prop :=
  ∀ (s : State) (base : U16) (k : Nat),
    s.byteAt .win base k =
      (match (base.toNat + k) % 2 ^ 16 with
      | 0 => .ok s.cfg.opCaset
      | 1 | 11 => .ok 4
      | 2 | 3 | 4 | 5 | 12 | 13 | 14 | 15 => .ok 0
      | 6 => .ok (s.xs.extractLsb' 8 8)
      | 7 => .ok (s.xs.extractLsb' 0 8)
      | 8 => .ok (s.xe.extractLsb' 8 8)
      | 9 => .ok (s.xe.extractLsb' 0 8)
      | 10 => .ok s.cfg.opRaset
      | 16 => .ok (s.ys.extractLsb' 8 8)
      | 17 => .ok (s.ys.extractLsb' 0 8)
      | 18 => .ok (s.ye.extractLsb' 8 8)
      | 19 => .ok (s.ye.extractLsb' 0 8)
      | 20 => .ok s.cfg.opEnd
      | _ => .error .readOutsideSpace)

/-- R34: phase DISPATCH, for each kind of micro-operation at `STG`, and completion (R45) when `STG` is the length of the
list. The transaction of TINIT is taken to succeed here; `FailedAnswerEndsTheOperation` is the other case. -/
def Obligations.DispatchRunsTheMicroOperationAtStg : Prop :=
  ∀ (s : State) (ops : List MicroOp), s.host = [] → s.ph = .dispatch → s.microOps = some ops →
    (s.stg.toNat = ops.length → step s = .next { s with busy := false, done := true, ph := .idle }) ∧
    (∀ u, ops[s.stg.toNat]? = some u →
      (u = .tinit → s.answersOk 1 → step s = .next ({ s with stg := s.stg + 1 }.afterTxns [.tInit])) ∧
      (∀ xs ys xe ye, u = .loadwin xs ys xe ye →
        step s = .next { s with xs := xs, ys := ys, xe := xe, ye := ye, stg := s.stg + 1 }) ∧
      (∀ c x y w h, u = .loadfill c x y w h →
        ∃ xe ye : U16, ∃ n : U32, xe.toNat = (x.toNat + w.toNat + (2 ^ 16 - 1)) % 2 ^ 16 ∧
          ye.toNat = (y.toNat + h.toNat + (2 ^ 16 - 1)) % 2 ^ 16 ∧ n.toNat = w.toNat * h.toNat ∧
          step s = .next
            { s with color := c, xs := x, ys := y, xe := xe, ye := ye, pixcnt := n, stg := s.stg + 1 }) ∧
      (∀ space a, u = .run space a →
        step s = .next { s with src := space, sp := a, mode := .run, ph := .fetch }) ∧
      (∀ space a, u = .one space a →
        step s = .next { s with src := space, sp := a, mode := .one, ph := .fetch }) ∧
      (u = .pix → step s = .next { s with ph := .pix }))

/-- R33: the list of micro-operations of each operation code, argument by argument; the reserved codes have none. -/
def Obligations.MicroOperationListsAreThoseOfTheTable : Prop :=
  ∀ s : State,
    let W := BitVec.ofNat 16 s.cfg.panelW
    let H := BitVec.ofNat 16 s.cfg.panelH
    (s.op = 1 → s.cfg.initCallsTinit = true → s.microOps = some
      [.tinit, .run .rom1 0, .loadfill s.cfg.initClearColor 0 0 W H, .run .win 0, .one .ctl 0, .pix, .run .rom2 0]) ∧
    (s.op = 1 → s.cfg.initCallsTinit = false → s.microOps = some
      [.run .rom1 0, .loadfill s.cfg.initClearColor 0 0 W H, .run .win 0, .one .ctl 0, .pix, .run .rom2 0]) ∧
    (s.op = 2 → s.microOps = some [.one .ctl 6]) ∧ (s.op = 3 → s.microOps = some [.one .ctl 12]) ∧
    (s.op = 4 → s.microOps = some [.one .ctl 18]) ∧ (s.op = 5 → s.microOps = some [.one .ext s.args[0]]) ∧
    (s.op = 6 → s.microOps = some [.run .ext s.args[0]]) ∧
    (s.op = 7 → s.microOps = some
      [.loadwin s.args[0] s.args[1] s.args[2] s.args[3], .run .win 0, .one .ctl 0]) ∧
    (s.op = 8 → s.microOps = some
      [.loadfill s.args[0] s.args[1] s.args[2] s.args[3] s.args[4], .run .win 0, .one .ctl 0, .pix]) ∧
    (s.op = 9 → s.microOps = some [.loadfill s.args[0] 0 0 W H, .run .win 0, .one .ctl 0, .pix]) ∧
    (s.op = 0 ∨ 10 ≤ s.op.toNat → s.microOps = none)

/-- R36: phase CMD emits the command and goes on to DATA, DLY or ADV. The transaction is taken to succeed here. -/
def Obligations.CommandPhaseSendsTheOpcode : Prop :=
  ∀ s : State, s.host = [] → s.ph = .cmd → s.answersOk 1 →
    (s.len ≠ 0 → step s = .next ({ s with ph := .data }.afterTxns [.tCmd s.opc])) ∧
    (s.len = 0 → s.dlyv ≠ 0 → step s = .next ({ s with ph := .dly }.afterTxns [.tCmd s.opc])) ∧
    (s.len = 0 → s.dlyv = 0 → step s = .next ({ s with ph := .adv }.afterTxns [.tCmd s.opc]))

/-- R37: phase DATA emits the `LEN` payload bytes, at offsets 6 to `5 + LEN` in ascending order, as one transaction. It is
taken to succeed here. -/
def Obligations.DataPhaseSendsThePayloadAsOneTransaction : Prop :=
  ∀ (s : State) (bs : List Byte), s.host = [] → s.ph = .data → s.answersOk 1 → bs.length = s.len.toNat →
    (∀ k b, bs[k]? = some b → s.byteAt s.src s.sp (6 + k) = .ok b) →
    (s.dlyv ≠ 0 → step s = .next ({ s with ph := .dly }.afterTxns [.tData bs])) ∧
    (s.dlyv = 0 → step s = .next ({ s with ph := .adv }.afterTxns [.tData bs]))

/-- R38: phase DLY emits the delay. It is taken to succeed here. -/
def Obligations.DelayPhaseSendsTheDelay : Prop :=
  ∀ s : State, s.host = [] → s.ph = .dly → s.answersOk 1 →
    step s = .next ({ s with ph := .adv }.afterTxns [.tDelay s.dlyv])

/-- R39: phase ADV ends a single execution, or in a run moves `SP` past the descriptor, modulo `2^16`. -/
def Obligations.AdvancePhaseMovesPastTheDescriptor : Prop :=
  ∀ s : State, s.host = [] → s.ph = .adv →
    (s.mode = .one → step s = .next { s with stg := s.stg + 1, ph := .dispatch }) ∧
    (s.mode = .run → ∃ sp : U16, sp.toNat = (s.sp.toNat + 6 + s.len.toNat) % 2 ^ 16 ∧
      step s = .next { s with sp := sp, ph := .fetch })

/-- R40: phase PIX sends `min(PIXCNT, CFG.FILL_BURST)` pixel words, each most significant byte first, as one transaction and
counts them off, or ends when none is left. The transaction is taken to succeed here. The whole-number burst is any value;
R7's range of it is not used. -/
def Obligations.PixelPhaseSendsOneBurst : Prop :=
  ∀ s : State, s.host = [] → s.ph = .pix →
    (s.pixcnt = 0 → step s = .next { s with stg := s.stg + 1, ph := .dispatch }) ∧
    (s.pixcnt ≠ 0 → s.answersOk 1 → ∃ n : U32, ∃ bs : List Byte,
      n.toNat = s.pixcnt.toNat - min s.pixcnt.toNat s.cfg.fillBurst ∧
      bs.length = 2 * min s.pixcnt.toNat s.cfg.fillBurst ∧
      (∀ k, k < min s.pixcnt.toNat s.cfg.fillBurst →
        bs[2 * k]? = some (s.color.extractLsb' 8 8) ∧ bs[2 * k + 1]? = some (s.color.extractLsb' 0 8)) ∧
      step s = .next ({ s with pixcnt := n }.afterTxns [.tData bs]))

/-! ### Faults -/

/-- R184: `raise Fault(code)` sets `FAULT`, `BUSY`, `DONE`, `PH`, and changes no other register; the model's own record of
faults takes the code (R185). After it nothing is emitted until an operation is accepted: no step from phase IDLE emits, and
none leaves IDLE but a host's write to `OPREG`. -/
def Obligations.RaisingAFaultChangesOnlyFlagsAndPhase : Prop :=
  (∀ (code : BitVec 3) (s : State), raiseFault code s =
    { s with fault := code, busy := false, done := false, ph := .idle, faultLog := s.faultLog ++ [code] }) ∧
  ∀ s t : State, s.ph = .idle → step s = .next t → t.trace = s.trace ∧
    (t.ph = .idle ∨ t.ph = .dispatch ∧ t.busy = true ∧ ∃ v rest, s.host = .write .opreg v :: rest)

/-- In every phase that presents a transaction, the trace takes the transaction with the transport's answer; when that is
`fail`, TransportError is raised, with the effects of R184; without `TERR` no answer is `fail` (R186). That nothing else of the
step happens, so that `STG` and `PIXCNT` do not count the failed transaction, is log entry 20 (DEDUCED); that the answers to
come are a queue in State, from which an answer is taken, is log entry 7 (DEDUCED). Derived. -/
def Obligations.FailedAnswerEndsTheOperation : Prop :=
  ∀ (s : State) (t : Txn), s.host = [] → s.outstanding = some t →
    (s.nextAnswer = .fail → s.cfg.terr = true ∧ step s = .next
      { s with
        trace := s.trace ++ [⟨t, .fail⟩], answers := s.answers.tail
        fault := 2, busy := false, done := false, ph := .idle, faultLog := s.faultLog ++ [2] }) ∧
    (s.nextAnswer = .ok → ∃ u, step s = .next u ∧ u.trace = s.trace ++ [⟨t, .ok⟩] ∧ u.fault = s.fault) ∧
    (s.cfg.terr = false → s.nextAnswer = .ok) ∧
    (∀ a rest, s.cfg.terr = true → s.answers = a :: rest → s.nextAnswer = a)

/-- A step raises at most one fault, of code 1, 2 or 3, and then the block is idle with `DONE = 0` and `FAULT` that code; no
step takes a code out of the record (R180, R184, R185, R189). Derived. -/
def Obligations.AStepRaisesAtMostOneFault : Prop :=
  ∀ s t : State, step s = .next t →
    t.faultLog = s.faultLog ∨
    (t.faultLog = s.faultLog ++ [t.fault] ∧ (t.fault = 1 ∨ t.fault = 2 ∨ t.fault = 3) ∧
      t.busy = false ∧ t.done = false ∧ t.ph = .idle)

/-- In the default configuration, `GEOM_CHECK` and `TERR` false, the only fault a step can raise is IllegalOp, and it raises
that only when the host writes a reserved code while the block is idle (R181). Derived. -/
def Obligations.DefaultConfigurationRaisesOnlyIllegalOp : Prop :=
  ∀ s t : State, s.cfg.geomCheck = false → s.cfg.terr = false → step s = .next t →
    t.faultLog = s.faultLog ∨
    (t.faultLog = s.faultLog ++ [3] ∧ s.busy = false ∧
      ∃ v rest, s.host = .write .opreg v :: rest ∧ ((v.extractLsb' 0 4).toNat = 0 ∨ 10 ≤ (v.extractLsb' 0 4).toNat))

/-! ### What no step does -/

/-- A step emits at most one transaction, and only the one that its phase presents (R12, "A step emits at most one
transaction" before R34); the host's moves emit none, a hardware reset apart, which can let the outstanding one complete.
Derived. -/
def Obligations.AStepEmitsAtMostOneTransaction : Prop :=
  ∀ s t : State, step s = .next t →
    t.trace = s.trace ∨ ∃ e a, s.outstanding = some e ∧ t.trace = s.trace ++ [⟨e, a⟩]

/-- The block writes no memory and no argument, no step changes the configuration, and the host's store changes the byte at
its address only (R22, R42, R50, R55, R65). Derived; the canonical form of `EXT` is part of the invariant. -/
def Obligations.OnlyTheHostWritesMemoryAndArguments : Prop :=
  ∀ s t : State, s.ext.wf = true → step s = .next t → t.cfg = s.cfg ∧
    (∀ a, (∀ b rest, s.host ≠ .storeExt a b :: rest) → t.ext.read a = s.ext.read a) ∧
    (∀ a b rest, s.host = .storeExt a b :: rest → t.ext.read a = b) ∧
    ((s.host = [] ∨ s.busy = true ∧ ∀ time r rest, s.host ≠ .hardReset time r :: rest) → t.args = s.args)

/-- R55, R56: a byte that the host stores while the block is idle is what every later read of its address by the block gives,
from whatever program counter; addresses are taken modulo `2^CFG.SEQ_AW`, and a read changes nothing. Derived: a host's
store at an address that `EXT` does not have is the model's fault (log entry 8). -/
def Obligations.StoredBytesAreReadBack : Prop :=
  ∀ (s : State) (a : Nat) (b : Byte) (rest : List HostMove), s.ext.wf = true →
    s.host = .storeExt a b :: rest → s.busy = false →
    (a < 2 ^ s.cfg.seqAw → ∃ t, step s = .next t ∧
      t = { s with host := rest, ext := t.ext } ∧
      ∀ (base : U16) (k : Nat), (t.accepted 6).byteAt .ext base k =
        .ok (if (base.toNat + k) % 2 ^ s.cfg.seqAw = a then b
          else s.ext.read ((base.toNat + k) % 2 ^ s.cfg.seqAw))) ∧
    (2 ^ s.cfg.seqAw ≤ a → step s = .fault .storeOutsideExt)

/-- R70: a byte of `EXT` to which the host stores during an operation reads from then on as one of the values it has held since
the operation was accepted: the new one, the one before, or, after several stores, an earlier one; every other byte reads
as one of the values that it could read as before, and so as what the memory holds where no store raced. The block's own
steps, and the host's other moves during the operation, leave the memory and these records alone. Which value is read is
free (log entry 6, DEDUCED). Derived. -/
def Obligations.ARacingStoreIsReadAsOldOrNew : Prop :=
  (∀ (s : State) (a : Nat) (b : Byte) (rest : List HostMove), s.ext.wf = true →
    s.host = .storeExt a b :: rest → s.busy = true → a < 2 ^ s.cfg.seqAw →
    ∃ t, step s = .next t ∧ t = { s with host := rest, ext := t.ext, extStale := t.extStale, extRaces := t.extRaces } ∧
      t.ext.read a = b ∧ staleBytes t.extStale a = s.ext.read a :: staleBytes s.extStale a ∧
      (∀ off, t.extByte a off = b ∨ t.extByte a off = s.ext.read a ∨ t.extByte a off ∈ staleBytes s.extStale a) ∧
      ∀ a', a' ≠ a → t.ext.read a' = s.ext.read a' ∧ staleBytes t.extStale a' = staleBytes s.extStale a' ∧
        ∀ off, t.extByte a' off = s.ext.read a' ∨ t.extByte a' off ∈ staleBytes s.extStale a') ∧
  ∀ s t : State, s.busy = true → (∀ a b rest, s.host ≠ .storeExt a b :: rest) → step s = .next t →
    t.ext = s.ext ∧ t.extStale = s.extStale ∧ t.extRaces = s.extRaces

/-- R85, R94: the sentinel's byte is never the argument of a command transaction, whatever the configuration and whatever the
spaces hold: a step keeps this, with the opcode register's part of it. Derived. -/
def Obligations.TheSentinelIsNeverTransmitted : Prop :=
  ∀ s t : State,
    (s.ph = .cmd → s.opc ≠ s.cfg.opEnd) ∧ (∀ e ∈ s.trace, e.txn ≠ .tCmd s.cfg.opEnd) →
    step s = .next t →
    (t.ph = .cmd → t.opc ≠ t.cfg.opEnd) ∧ (∀ e ∈ t.trace, e.txn ≠ .tCmd t.cfg.opEnd)

/-! ### The descriptors -/

/-- END, for every state (R35, R116): the run or the single execution ends, `OPC` holds the sentinel, `SP` is not advanced and
nothing is emitted. Derived. -/
def Obligations.SentinelEndsTheRun : Prop :=
  ∀ s : State, exec .sentinel s = .next { s with opc := s.cfg.opEnd, stg := s.stg + 1, ph := .dispatch }

/-- Every command descriptor, generic or named, loads `OPC`, `LEN`, `DLYV` and goes to phase CMD, and nothing else (R35), for
every state and every operand that the encoding admits. Derived. -/
def Obligations.CommandFetchLoadsTheHeader : Prop :=
  ∀ (s : State) (i : Instr) (d : Desc), i.toDesc s.cfg = some d → d.wf s.cfg = true →
    ∃ n : Byte, n.toNat = d.payload.length ∧
      exec i s = .next { s with opc := d.opcode, len := n, dlyv := d.delay, ph := .cmd }

/-- R115: a command descriptor that stands at (`SRC`, `SP`), generic or named, from its fetch to its end: its transactions are
those of `exec_desc` (R110), in order; then in a run `SP` stands after it and the next descriptor is to be fetched, and
otherwise the micro-operation ends. Nothing else changes. The transactions are taken to succeed. Derived. -/
def Obligations.CommandDescriptorsAreCarriedOut : Prop :=
  ∀ (s : State) (i : Instr) (d : Desc), i.toDesc s.cfg = some d → d.wf s.cfg = true → s.host = [] →
    (∀ k b, d.enc[k]? = some b → s.byteAt s.src s.sp k = .ok b) →
    s.extStale = [] → s.answersOk (execDesc s.cfg d).length →
    ∃ t, exec i s = .next t ∧
      (s.mode = .run → runSteps (1 + (execDesc s.cfg d).length) t = .next
        ({ s with
          opc := d.opcode, len := BitVec.ofNat 8 d.payload.length, dlyv := d.delay
          sp := s.sp + BitVec.ofNat 16 d.enc.length, ph := .fetch }.afterTxns (execDesc s.cfg d))) ∧
      (s.mode = .one → runSteps (1 + (execDesc s.cfg d).length) t = .next
        ({ s with
          opc := d.opcode, len := BitVec.ofNat 8 d.payload.length, dlyv := d.delay
          stg := s.stg + 1, ph := .dispatch }.afterTxns (execDesc s.cfg d)))

/-! ### The operations, from acceptance to completion

In each of these the block takes its steps undisturbed (no host move to come) and the transport answers `ok`, as R43 has it.
Derived, R150's excepted: the rules of the operations also speak of faults and encodings, which other statements state. -/

/-- R140, R141, R142: RESET, DISPON and DISPOFF are accepted and run to completion; each sends its one command, and its delay
if that is not 0; the whole final state. -/
def Obligations.PanelControlOperationsComplete : Prop :=
  ∀ (s : State) (i : Instr) (code : BitVec 4) (op : Byte) (delay : U32) (sp : U16),
    (i, code, op, delay, sp) = (.reset, 2, s.cfg.opSwreset, s.cfg.resetDelayMs, 6) ∨
    (i, code, op, delay, sp) = (.dispon, 3, s.cfg.opDispon, s.cfg.disponDelayMs, 12) ∨
    (i, code, op, delay, sp) = (.dispoff, 4, s.cfg.opDispoff, s.cfg.dispoffDelayMs, 18) →
    s.ready → s.host = [] → s.cfg.sentinelApart = true →
    ∃ t, exec i s = .next t ∧
      (delay = 0 → s.answersOk 1 → runSteps 5 t = .next
        ({ t with
          opc := op, len := 0, dlyv := delay, src := .ctl, sp := sp, mode := .one, stg := 1
          ph := .idle, busy := false, done := true }.afterTxns [.tCmd op])) ∧
      (delay ≠ 0 → s.answersOk 2 → runSteps 6 t = .next
        ({ t with
          opc := op, len := 0, dlyv := delay, src := .ctl, sp := sp, mode := .one, stg := 1
          ph := .idle, busy := false, done := true }.afterTxns [.tCmd op, .tDelay delay]))

/-- R150, R151: SETWIN is accepted and runs to completion; its trace is always exactly the five transactions of R150; the
whole final state. -/
def Obligations.SetwinSendsItsFiveTransactions : Prop :=
  ∀ s : State, s.ready → s.host = [] → s.cfg.sentinelApart = true → s.answersOk 5 →
    (s.cfg.geomCheck = true → windowInside s.cfg s.args[0] s.args[1] s.args[2] s.args[3] = true) →
    ∃ t, exec .setwin s = .next t ∧
      runSteps 16 t = .next
        ({ t with
          xs := s.args[0], ys := s.args[1], xe := s.args[2], ye := s.args[3]
          opc := s.cfg.opRamwr, len := 0, dlyv := 0, src := .ctl, sp := 0, mode := .one, stg := 3
          ph := .idle, busy := false, done := true }.afterTxns
          [.tCmd s.cfg.opCaset, .tData [hi8 s.args[0], lo8 s.args[0], hi8 s.args[2], lo8 s.args[2]],
            .tCmd s.cfg.opRaset, .tData [hi8 s.args[1], lo8 s.args[1], hi8 s.args[3], lo8 s.args[3]],
            .tCmd s.cfg.opRamwr])

/-- R160, R161, R168: FILL, with every argument and every burst of R7, is accepted and runs to completion in the number of
steps of R168; its transactions are those of `fill_area`; the whole final state. -/
def Obligations.FillStreamsItsPixels : Prop :=
  ∀ s : State, s.ready → s.host = [] → s.cfg.sentinelApart = true → 1 ≤ s.cfg.fillBurst →
    (s.cfg.geomCheck = true → regionInside s.cfg s.args[1] s.args[2] s.args[3] s.args[4] = true) →
    s.answersOk (fillArea s.cfg s.args[0] s.args[1] s.args[2] s.args[3] s.args[4]).length →
    ∃ t, exec .fill s = .next t ∧
      runSteps (fillStepCount s.cfg (s.args[3].toNat * s.args[4].toNat) + 1) t = .next
        ({ t with
          xs := s.args[1], ys := s.args[2], xe := corner s.args[1] s.args[3], ye := corner s.args[2] s.args[4]
          color := s.args[0], pixcnt := 0
          opc := s.cfg.opRamwr, len := 0, dlyv := 0, src := .ctl, sp := 0, mode := .one, stg := 4
          ph := .idle, busy := false, done := true }.afterTxns
          (fillArea s.cfg s.args[0] s.args[1] s.args[2] s.args[3] s.args[4]))

/-- R164, R165: CLEAR is accepted, unchecked, and runs to completion; its transactions are those of a FILL of the full panel
with the same colour, transaction for transaction; the whole final state. -/
def Obligations.ClearIsAFillOfThePanel : Prop :=
  ∀ s : State, s.ready → s.host = [] → s.cfg.sentinelApart = true → 1 ≤ s.cfg.fillBurst →
    1 ≤ s.cfg.panelW → s.cfg.panelW ≤ 65535 → 1 ≤ s.cfg.panelH → s.cfg.panelH ≤ 65535 →
    let ts := fillArea s.cfg s.args[0] 0 0 (BitVec.ofNat 16 s.cfg.panelW) (BitVec.ofNat 16 s.cfg.panelH)
    s.answersOk ts.length →
    ∃ t, exec .clear s = .next t ∧
      runSteps (fillStepCount s.cfg (s.cfg.panelW * s.cfg.panelH) + 1) t = .next
        ({ t with
          xs := 0, ys := 0
          xe := BitVec.ofNat 16 (s.cfg.panelW - 1), ye := BitVec.ofNat 16 (s.cfg.panelH - 1)
          color := s.args[0], pixcnt := 0
          opc := s.cfg.opRamwr, len := 0, dlyv := 0, src := .ctl, sp := 0, mode := .one, stg := 4
          ph := .idle, busy := false, done := true }.afterTxns ts)

/-- R113: RUNCMD is accepted and runs to completion: a command descriptor at `ARG[0]` is executed once and `SP` stays at it;
a sentinel there sends nothing. The bytes are taken modulo the size of `EXT` (R56); the whole final state. -/
def Obligations.RuncmdExecutesOneDescriptor : Prop :=
  ∀ s : State, s.ready → s.host = [] →
    (∀ d : Desc, d.wf s.cfg = true → s.extHolds s.args[0] d.enc → s.answersOk (execDesc s.cfg d).length →
      ∃ t, exec .runcmd s = .next t ∧
        runSteps (oneStepCount s.cfg d + 1) t = .next
          ({ t with
            opc := d.opcode, len := BitVec.ofNat 8 d.payload.length, dlyv := d.delay
            src := .ext, sp := s.args[0], mode := .one, stg := 1
            ph := .idle, busy := false, done := true }.afterTxns (execDesc s.cfg d))) ∧
    (s.extHolds s.args[0] [s.cfg.opEnd] →
      ∃ t, exec .runcmd s = .next t ∧
        runSteps 3 t = .next
          { t with
            opc := s.cfg.opEnd, src := .ext, sp := s.args[0], mode := .one, stg := 1
            ph := .idle, busy := false, done := true })

/-- R111, R114: RUNSEQ is accepted and runs a well-formed sequence to its sentinel: the transactions of every descriptor up to
but excluding the sentinel, in order, and nothing else; `SP` ends at the sentinel. The bytes are taken modulo the size of
`EXT` (R56), whose address has at most 16 bits (R7); the whole final state but the header of the last descriptor. -/
def Obligations.RunseqRunsToTheSentinel : Prop :=
  ∀ (s : State) (ds : List Desc), s.ready → s.host = [] → s.cfg.seqAw ≤ 16 → (∀ d ∈ ds, d.wf s.cfg = true) →
    s.extHolds s.args[0] (encSeq s.cfg ds) → s.answersOk (seqTxns s.cfg ds).length →
    ∃ t, exec .runseq s = .next t ∧ ∃ (len : Byte) (dlyv : U32),
      runSteps (runStepCount s.cfg ds + 1) t = .next
        ({ t with
          opc := s.cfg.opEnd, len := len, dlyv := dlyv
          src := .ext, sp := s.args[0] + BitVec.ofNat 16 (ds.flatMap Desc.enc).length, mode := .run, stg := 1
          ph := .idle, busy := false, done := true }.afterTxns (seqTxns s.cfg ds))

/-- R130, R131: INIT is accepted, with a latched TransportError too, and runs to completion in every legal configuration; its
transactions are those of `init`, and depend on the configuration alone; the registers it leaves are those of R131. -/
def Obligations.InitBringsThePanelUp : Prop :=
  ∀ (s : State) (one two : List Desc), s.busy = false → s.host = [] → s.cfg.legal = true →
    sequenceOf s.cfg s.cfg.rom1 = some one → sequenceOf s.cfg s.cfg.rom2 = some two →
    s.answersOk (initTxns s.cfg one two).length →
    ∃ t, exec .init s = .next t ∧ ∃ u,
      runSteps ((if s.cfg.initCallsTinit then 1 else 0) + runStepCount s.cfg one +
        fillStepCount s.cfg (s.cfg.panelW * s.cfg.panelH) + runStepCount s.cfg two + 1) t = .next u ∧
      u = ({ t with
          xs := 0, ys := 0
          xe := BitVec.ofNat 16 (s.cfg.panelW - 1), ye := BitVec.ofNat 16 (s.cfg.panelH - 1)
          color := s.cfg.initClearColor, pixcnt := 0
          opc := s.cfg.opEnd, len := u.len, dlyv := u.dlyv
          src := .rom2, sp := BitVec.ofNat 16 (s.cfg.rom2.length - 1), mode := .run
          stg := if s.cfg.initCallsTinit then 7 else 6
          ph := .idle, busy := false, done := true }.afterTxns (initTxns s.cfg one two))

/-! ### The functions -/

/-- R111: the loop of `run_seq` over a space that holds a well-formed sequence, at any address, gives `exec_desc` of each
descriptor in order and nothing else. Derived. -/
def Obligations.RunSeqLoopIsTheListOfDescriptors : Prop :=
  ∀ (s : State) (space : Space) (a : U16) (ds : List Desc), (∀ d ∈ ds, d.wf s.cfg = true) →
    (∀ (k : Nat) (b : Byte) (p : U16) (off : Nat), (encSeq s.cfg ds)[k]? = some b →
      (p.toNat + off) % 2 ^ 16 = (a.toNat + k) % 2 ^ 16 → s.byteAt space p off = .ok b) →
    s.runSeq space (ds.length + 1) a = .ok (some (seqTxns s.cfg ds))

/-- R167: whatever the burst, the bytes of the pixel transactions are `w * h` pixel words one after another, the transactions
number `ceil(w * h / FILL_BURST)`, all but the last carry `2 * FILL_BURST` bytes and the last what is left. Derived. -/
def Obligations.PixelStreamDoesNotDependOnTheBurst : Prop :=
  ∀ (c : Config) (color : U16) (n : Nat), 1 ≤ c.fillBurst →
    dataStream (pixelTxns c color n n) = (List.replicate n [hi8 color, lo8 color]).flatten ∧
    (pixelTxns c color n n).length = (n + c.fillBurst - 1) / c.fillBurst ∧
    (∀ k t, (pixelTxns c color n n)[k]? = some t → ∃ bs, t = .tData bs ∧
      bs.length = 2 * min c.fillBurst (n - k * c.fillBurst))

/-! ### The machine as a whole -/

/-- The invariant holds right after reset, in every legal configuration, REF and TINY among them. Derived. -/
def Obligations.TheInvariantHoldsAtReset : Prop :=
  (∀ c : Config, c.legal = true → (State.resetWith c).Inv) ∧ Config.ref.legal = true ∧ Config.tiny.legal = true ∧
    State.reset.Inv

/-- Every step keeps the invariant: from every state that meets it, whatever the host does next and whatever the transport
answers. Derived: R7, R28, R29, R30, R32 to R40, R55, R59, R60, R85. -/
def Obligations.EveryStepKeepsTheInvariant : Prop :=
  ∀ s t : State, s.Inv → step s = .next t → t.Inv

/-- From every state that meets the invariant the machine takes its next step: no read outside a space (R51, R52, R57, U6), no
micro-operation that is not there (U14), as long as the host stores only at addresses that `EXT` has. Derived. -/
def Obligations.TheMachineNeverGetsStuck : Prop :=
  ∀ s : State, s.Inv → s.hostInExt → ∃ t, step s = .next t

/-- R46: no register that is unspecified after reset is read before it is written: two machines that are idle and differ in
those registers only cannot be told apart, for any number of steps and whatever the host does, in what they emit, in the
flags, in what the host reads, and in how they stop. Derived. -/
def Obligations.UnspecifiedRegistersAreNeverObserved : Prop :=
  ∀ (s : State) (r : Residue) (n : Nat), s.ph = .idle → s.busy = false →
    observe (runSteps n (s.scramble r)) = observe (runSteps n s)

/-- R57: a run over `EXT` that meets no sentinel never completes: when none of the opcode bytes that the run comes to, from
`ARG[0]` on, is the sentinel (other bytes of `EXT` may be), RUNSEQ stays busy and keeps emitting; it is not a fault. With
`TERR` the one other end is a failed transaction (R186). Derived. -/
def Obligations.RunWithoutSentinelNeverEnds : Prop :=
  ∀ s : State, s.ready → s.host = [] →
    (∀ k, s.ext.read ((s.runPosition k).toNat % 2 ^ s.cfg.seqAw) ≠ s.cfg.opEnd) →
    ∃ t, exec .runseq s = .next t ∧ ∀ n, ∃ u, runSteps n t = .next u ∧ u.done = false ∧
      (u.busy = false → s.cfg.terr = true ∧ u.fault = 2) ∧
      (u.busy = true → ∃ m v, runSteps (n + m) t = .next v ∧ u.trace.length < v.trace.length)

/-- Whatever the transport answers, what an accepted operation has emitted after any number of steps is a beginning of the
transactions that its function gives (R43), RUNCMD's and RUNSEQ's those of the descriptors that stand in `EXT` at `ARG[0]`
(R113, R114); when the block is idle again, either they were all sent, all answered `ok`, and `DONE = 1`, or the last one sent
was answered `fail`, the ones before it `ok`, and `FAULT = 2` (R186). Where the answers come from is log entry 7 (DEDUCED).
Derived. -/
def Obligations.AnOperationEmitsABeginningOfItsFunction : Prop :=
  ∀ (s t : State) (i : Instr) (ts : List Txn) (n : Nat) (u : State),
    s.cfg.legal = true → s.busy = false → s.host = [] →
    (i = .reset ∧ ts = execDesc s.cfg ⟨s.cfg.opSwreset, s.cfg.resetDelayMs, []⟩ ∨
      i = .dispon ∧ ts = execDesc s.cfg ⟨s.cfg.opDispon, s.cfg.disponDelayMs, []⟩ ∨
      i = .dispoff ∧ ts = execDesc s.cfg ⟨s.cfg.opDispoff, s.cfg.dispoffDelayMs, []⟩ ∨
      i = .setwin ∧ ts = setWindow s.cfg s.args[0] s.args[1] s.args[2] s.args[3] ∨
      i = .fill ∧ ts = fillArea s.cfg s.args[0] s.args[1] s.args[2] s.args[3] s.args[4] ∨
      i = .clear ∧ ts = clearPanel s.cfg s.args[0] ∨
      i = .init ∧ (∃ one two, sequenceOf s.cfg s.cfg.rom1 = some one ∧ sequenceOf s.cfg s.cfg.rom2 = some two ∧
        ts = initTxns s.cfg one two) ∨
      i = .runcmd ∧ (∃ d : Desc, d.wf s.cfg = true ∧ s.extHolds s.args[0] d.enc ∧ ts = execDesc s.cfg d) ∨
      i = .runcmd ∧ s.extHolds s.args[0] [s.cfg.opEnd] ∧ ts = [] ∨
      i = .runseq ∧ ∃ ds : List Desc, (∀ d ∈ ds, d.wf s.cfg = true) ∧ s.extHolds s.args[0] (encSeq s.cfg ds) ∧
        ts = seqTxns s.cfg ds) →
    exec i s = .next t → t.busy = true → runSteps n t = .next u →
    ∃ sent rest : List Txn, ∃ answers : List Answer, ts = sent ++ rest ∧ answers.length = sent.length ∧
      u.trace = s.trace ++ List.zipWith Entry.mk sent answers ∧
      (u.busy = true → ∀ a ∈ answers, a = .ok) ∧
      (u.busy = false →
        (rest = [] ∧ u.done = true ∧ u.fault = 0 ∧ ∀ a ∈ answers, a = .ok) ∨
        (u.done = false ∧ u.fault = 2 ∧ ∃ before, answers = before ++ [.fail] ∧ ∀ a ∈ before, a = .ok))

/-- A host that waits leaves the operation undisturbed: over any number of steps of a busy block the run with `awaitIdle` as
the next move is the run with no move to come, and when that leaves the block idle one more step ends the wait (R96, R188).
The statements on operations that have no host move to come hold by this of a host that waits. That waiting is a move of the
host is log entry 9 (DESIGN CHOICE). Derived. -/
def Obligations.AwaitingHostLeavesTheOperationUndisturbed : Prop :=
  ∀ (s t : State) (rest : List HostMove) (n : Nat), s.host = [] → runSteps n s = .next t →
    (∀ k u, k < n → runSteps k s = .next u → u.busy = true) →
    runSteps n { s with host := .awaitIdle :: rest } = .next { t with host := .awaitIdle :: rest } ∧
    (t.busy = false → runSteps (n + 1) { s with host := .awaitIdle :: rest } = .next { t with host := rest })
end

