-- ==== Sys2Proof/Laws/Decode.lean ====
section
/-! SUPPORT. The laws of the decoder of format D: what it reads from a reader that holds the bytes of a descriptor or of the
sentinel, and which record the instruction it answers stands for. -/

namespace Sys2Proof

@[simp] theorem delayBytes_length (d : U32) : (delayBytes d).length = 4 := rfl

/-- A descriptor has `6 + len` bytes (R86). -/
@[simp] theorem enc_length (d : Desc) : d.enc.length = 6 + d.payload.length := by
  simp [Desc.enc]
  omega

/-- The big-endian bytes of a delay assemble to it (R63, R84). -/
theorem be32_delayBytes (d : U32) :
    be32 (d.extractLsb' 24 8) (d.extractLsb' 16 8) (d.extractLsb' 8 8) (d.extractLsb' 0 8) = d := by
  apply BitVec.eq_of_getLsbD_eq
  intro i hi
  simp only [be32, BitVec.getLsbD_append, BitVec.getLsbD_extractLsb']
  split
  · simp [*]
  · split
    · simp [*, show 8 + (i - 8) = i by omega]
    · split
      · simp [*, show 16 + (i - 8 - 8) = i by omega]
      · simp [show i - 8 - 8 - 8 < 8 by omega, show 24 + (i - 8 - 8 - 8) = i by omega]

/-- The instruction of a record stands for that record (R92, R93, R97). -/
theorem classify_toDesc (c : Config) (op : Byte) (d : U32) (p : List Byte) :
    (classify c op d p).toDesc c = some ⟨op, d, p⟩ := by
  unfold classify
  iterate 14
    refine iteInduction (motive := fun i : Instr => i.toDesc c = some ⟨op, d, p⟩)
      (fun h => by rw [h]; rfl) (fun _ => ?_)
  rfl

theorem classify_format (c : Config) (op : Byte) (d : U32) (p : List Byte) : (classify c op d p).format = .d := by
  unfold classify
  iterate 14
    refine iteInduction (motive := fun i : Instr => i.format = .d) (fun _ => rfl) (fun _ => ?_)
  rfl

/-- A reader that holds a list of bytes from an offset gives it. -/
theorem readBytes_ok {ε : Type} {rd : Nat → Except ε Byte} {bs : List Byte} {o : Nat}
    (h : ∀ k b, bs[k]? = some b → rd (o + k) = .ok b) : readBytes rd o bs.length = .ok bs := by
  induction bs generalizing o with
  | nil => rfl
  | cons b bs ih =>
    have h0 : rd o = .ok b := by simpa using h 0 b (by simp)
    have hs : readBytes rd (o + 1) bs.length = .ok bs := by
      refine ih (fun k b' hk => ?_)
      have := h (k + 1) b' (by simpa using hk)
      rwa [show o + (k + 1) = o + 1 + k by omega] at this
    simp [readBytes, h0, hs]

/-- What a reader answers when it answers. -/
theorem readBytes_inv {ε : Type} {rd : Nat → Except ε Byte} {bs : List Byte} {o n : Nat}
    (h : readBytes rd o n = .ok bs) : bs.length = n ∧ ∀ k b, bs[k]? = some b → rd (o + k) = .ok b := by
  induction n generalizing o bs with
  | zero =>
    simp only [readBytes, Except.ok.injEq] at h
    subst h
    simp
  | succ n ih =>
    simp only [readBytes] at h
    split at h
    · cases h
    · rename_i b hb
      split at h
      · cases h
      · rename_i bs' hbs
        simp only [Except.ok.injEq] at h
        subst h
        obtain ⟨hl, hk⟩ := ih hbs
        refine ⟨by simp [hl], fun k b' hk' => ?_⟩
        cases k with
        | zero => simpa [hb] using hk'
        | succ k =>
          rw [show o + (k + 1) = o + 1 + k by omega]
          exact hk k b' (by simpa using hk')

/-- The sentinel is read from its one byte (R85). -/
theorem decodeWith_sentinel {ε : Type} {c : Config} {rd : Nat → Except ε Byte} (h : rd 0 = .ok c.opEnd) :
    decodeWith c rd = .ok .sentinel := by
  simp [decodeWith, h]

/-- A reader that holds the bytes of a descriptor gives the instruction of its record (R84 to R87). -/
theorem decodeWith_enc {ε : Type} {c : Config} {rd : Nat → Except ε Byte} {d : Desc} (hd : d.wf c = true)
    (h : ∀ k b, d.enc[k]? = some b → rd k = .ok b) :
    decodeWith c rd = .ok (classify c d.opcode d.delay d.payload) := by
  simp only [Desc.wf, Bool.and_eq_true, bne_iff_ne, ne_eq, decide_eq_true_eq] at hd
  have h0 : rd 0 = .ok d.opcode := h 0 _ (by simp [Desc.enc])
  have h1 : rd 1 = .ok (BitVec.ofNat 8 d.payload.length) := h 1 _ (by simp [Desc.enc])
  have h2 : rd 2 = .ok (d.delay.extractLsb' 24 8) := h 2 _ (by simp [Desc.enc, delayBytes])
  have h3 : rd 3 = .ok (d.delay.extractLsb' 16 8) := h 3 _ (by simp [Desc.enc, delayBytes])
  have h4 : rd 4 = .ok (d.delay.extractLsb' 8 8) := h 4 _ (by simp [Desc.enc, delayBytes])
  have h5 : rd 5 = .ok (d.delay.extractLsb' 0 8) := h 5 _ (by simp [Desc.enc, delayBytes])
  have hp : readBytes rd 6 d.payload.length = .ok d.payload := by
    refine readBytes_ok (fun k b hk => h (6 + k) b ?_)
    rw [Nat.add_comm 6 k]
    simpa [Desc.enc, delayBytes] using hk
  have hl : (BitVec.ofNat 8 d.payload.length).toNat = d.payload.length := by
    simp only [BitVec.toNat_ofNat]
    omega
  simp only [decodeWith, h0, hd.1, if_false, readHeader, h1, h2, h3, h4, h5, hl, hp, be32_delayBytes]

/-- What the decoder of format D can answer: the sentinel, whose byte the reader holds, or the instruction of a record
whose bytes the reader holds. -/
theorem decodeWith_inv {ε : Type} {c : Config} {rd : Nat → Except ε Byte} {i : Instr} (h : decodeWith c rd = .ok i) :
    (i = .sentinel ∧ rd 0 = .ok c.opEnd) ∨
    ∃ d : Desc, d.wf c = true ∧ i = classify c d.opcode d.delay d.payload ∧
      ∀ k b, d.enc[k]? = some b → rd k = .ok b := by
  unfold decodeWith at h
  split at h
  · cases h
  · rename_i op h0
    split at h
    · rename_i hop
      cases h
      exact .inl ⟨rfl, hop ▸ h0⟩
    · rename_i hop
      split at h
      · cases h
      · rename_i len delay hh
        split at h
        · cases h
        · rename_i payload hp
          cases h
          refine .inr ⟨⟨op, delay, payload⟩, ?_, rfl, ?_⟩
          · have := (readBytes_inv hp).1
            have hlt := len.isLt
            simp [Desc.wf, hop]
            omega
          · unfold readHeader at hh
            split at hh
            · cases hh
            rename_i len' h1
            split at hh
            · cases hh
            rename_i d0 h2
            split at hh
            · cases hh
            rename_i d1 h3
            split at hh
            · cases hh
            rename_i d2 h4
            split at hh
            · cases hh
            rename_i d3 h5
            simp only [Except.ok.injEq, Prod.mk.injEq] at hh
            obtain ⟨rfl, rfl⟩ := hh
            obtain ⟨hl, hk⟩ := readBytes_inv hp
            have hlen : BitVec.ofNat 8 payload.length = len' := by
              rw [hl]
              simp
            have e0 : (be32 d0 d1 d2 d3).extractLsb' 24 8 = d0 := by
              ext j hj
              simp only [be32, BitVec.getElem_extractLsb', BitVec.getLsbD_append]
              simp [BitVec.getLsbD_eq_getElem hj, show ¬ (24 + j < 8) by omega, show ¬ (24 + j - 8 < 8) by omega, show ¬ (24 + j - 8 - 8 < 8) by omega, show 24 + j - 8 - 8 - 8 = j by omega]
            have e1 : (be32 d0 d1 d2 d3).extractLsb' 16 8 = d1 := by
              ext j hj
              simp only [be32, BitVec.getElem_extractLsb', BitVec.getLsbD_append]
              simp [show ¬ (16 + j < 8) by omega, show ¬ (16 + j - 8 < 8) by omega, show 16 + j - 8 - 8 = j by omega, hj]
            have e2 : (be32 d0 d1 d2 d3).extractLsb' 8 8 = d2 := by
              ext j hj
              simp only [be32, BitVec.getElem_extractLsb', BitVec.getLsbD_append]
              simp [show ¬ (8 + j < 8) by omega, show 8 + j - 8 = j by omega, hj]
            have e3 : (be32 d0 d1 d2 d3).extractLsb' 0 8 = d3 := by
              ext j hj
              simp only [be32, BitVec.getElem_extractLsb', BitVec.getLsbD_append]
              simp [hj]
            intro k b hb
            simp only [Desc.enc, delayBytes, hlen, e0, e1, e2, e3, List.cons_append, List.nil_append] at hb
            match k, hb with
            | 0, hb => simp at hb; subst hb; exact h0
            | 1, hb => simp at hb; subst hb; exact h1
            | 2, hb => simp at hb; subst hb; exact h2
            | 3, hb => simp at hb; subst hb; exact h3
            | 4, hb => simp at hb; subst hb; exact h4
            | 5, hb => simp at hb; subst hb; exact h5
            | k + 6, hb =>
              rw [Nat.add_comm k 6]
              exact hk k b (by simpa using hb)

end Sys2Proof
end

