-- ==== Sys2Proof/Laws/Memory.lean ====
section
/-! SUPPORT. The laws of the memory `EXT` (R55): every operation keeps the canonical form, a read after a write gives the
byte written, and a write leaves every other address alone. -/

namespace Sys2Proof.Machine

theorem Memory.wfFrom_weaken {lo lo' : Nat} (h : lo' ≤ lo) {m : Memory} (hm : Memory.wfFrom lo m = true) :
    Memory.wfFrom lo' m = true := by
  cases m with
  | nil => rfl
  | cons cell m =>
    obtain ⟨k, b⟩ := cell
    simp only [Memory.wfFrom, Bool.and_eq_true, decide_eq_true_eq] at hm ⊢
    exact ⟨⟨by omega, hm.1.2⟩, hm.2⟩

/-- An address below every listed address reads as blank. -/
theorem Memory.read_of_lt {lo a : Nat} {m : Memory} (hm : Memory.wfFrom lo m = true) (h : a < lo) :
    Memory.read m a = Memory.blank := by
  induction m generalizing lo with
  | nil => rfl
  | cons cell m ih =>
    obtain ⟨k, b⟩ := cell
    simp only [Memory.wfFrom, Bool.and_eq_true, decide_eq_true_eq] at hm
    rw [Memory.read, if_neg (by omega)]
    exact ih hm.2 (by omega)

theorem Memory.write_wfFrom {lo a : Nat} {b : Byte} {m : Memory} (hm : Memory.wfFrom lo m = true) (h : lo ≤ a) :
    Memory.wfFrom lo (Memory.write m a b) = true := by
  induction m generalizing lo with
  | nil =>
    by_cases hb : b = Memory.blank
    · simp [Memory.write, hb, Memory.wfFrom]
    · simp [Memory.write, hb, Memory.wfFrom, h]
  | cons cell m ih =>
    obtain ⟨k, c⟩ := cell
    simp only [Memory.wfFrom, Bool.and_eq_true, decide_eq_true_eq, bne_iff_ne, ne_eq] at hm
    obtain ⟨⟨hk, hc⟩, hm⟩ := hm
    rw [Memory.write]
    split
    · split
      · simp [Memory.wfFrom, hk, hc, hm]
      · simp_all [Memory.wfFrom]
    · split
      · split
        · exact Memory.wfFrom_weaken (by omega) hm
        · simp_all [Memory.wfFrom]
      · simp only [Memory.wfFrom, Bool.and_eq_true, decide_eq_true_eq, bne_iff_ne, ne_eq]
        exact ⟨⟨hk, hc⟩, ih hm (by omega)⟩

/-- A store keeps the canonical form. -/
theorem Memory.write_wf {a : Nat} {b : Byte} {m : Memory} (hm : Memory.wf m = true) :
    Memory.wf (Memory.write m a b) = true :=
  Memory.write_wfFrom hm (Nat.zero_le a)

/-- Every entry after a store is the one stored or was there before. -/
theorem Memory.mem_write {a : Nat} {b : Byte} {m : Memory} {cell : Host.Cell} (h : cell ∈ Memory.write m a b) :
    cell = (a, b) ∨ cell ∈ m := by
  induction m with
  | nil =>
    by_cases hb : b = Memory.blank <;> simp [Memory.write, hb] at h
    exact .inl h
  | cons first m ih =>
    obtain ⟨k, c⟩ := first
    rw [Memory.write] at h
    split at h
    · split at h
      · exact .inr h
      · exact List.mem_cons.1 h
    · split at h
      · split at h
        · exact .inr (List.mem_cons_of_mem _ h)
        · exact (List.mem_cons.1 h).imp id (List.mem_cons_of_mem _)
      · rcases List.mem_cons.1 h with h | h
        · exact .inr (h ▸ List.mem_cons_self)
        · exact (ih h).imp id (List.mem_cons_of_mem _)

/-- A store at an address of the memory keeps its bound. -/
theorem Memory.write_below {n a : Nat} {b : Byte} {m : Memory} (hm : Memory.below n m = true) (ha : a < n) :
    Memory.below n (Memory.write m a b) = true := by
  simp only [Memory.below, List.all_eq_true, decide_eq_true_eq] at hm ⊢
  intro cell h
  rcases Memory.mem_write h with rfl | h
  · exact ha
  · exact hm cell h

theorem Memory.read_write_same_from {lo a : Nat} {b : Byte} {m : Memory} (hm : Memory.wfFrom lo m = true) :
    Memory.read (Memory.write m a b) a = b := by
  induction m generalizing lo with
  | nil => by_cases hb : b = Memory.blank <;> simp [Memory.write, hb, Memory.read]
  | cons cell m ih =>
    obtain ⟨k, c⟩ := cell
    simp only [Memory.wfFrom, Bool.and_eq_true, decide_eq_true_eq] at hm
    rw [Memory.write]
    split
    · split
      · rename_i hak hb
        rw [Memory.read, if_neg (by omega), hb]
        exact Memory.read_of_lt hm.2 (by omega)
      · simp [Memory.read]
    · split
      · split
        · rename_i hak hb
          rw [hb]
          exact Memory.read_of_lt hm.2 (by omega)
        · simp [Memory.read]
      · rename_i h1 h2
        rw [Memory.read, if_neg (by omega)]
        exact ih hm.2

/-- A read after a store at the same address gives the byte stored (R55). -/
theorem Memory.read_write_same {a : Nat} {b : Byte} {m : Memory} (hm : Memory.wf m = true) :
    Memory.read (Memory.write m a b) a = b :=
  Memory.read_write_same_from hm

/-- A store leaves every other address alone. -/
theorem Memory.read_write_other {a a' : Nat} {b : Byte} (m : Memory) (h : a' ≠ a) :
    Memory.read (Memory.write m a b) a' = Memory.read m a' := by
  induction m with
  | nil => by_cases hb : b = Memory.blank <;> simp [Memory.write, hb, Memory.read, Ne.symm h]
  | cons cell m ih =>
    obtain ⟨k, c⟩ := cell
    rw [Memory.write]
    split
    · split <;> simp [Memory.read, Ne.symm h]
    · split
      · rename_i h1 h2
        subst h2
        split <;> simp [Memory.read, Ne.symm h]
      · simp [Memory.read, ih]

/-- Storing a list of bytes keeps the canonical form. -/
theorem Memory.writeAll_wf (addr : Nat → Nat) {m : Memory} (hm : Memory.wf m = true) (i : Nat) (bs : List Byte) :
    Memory.wf (Memory.writeAll addr m i bs) = true := by
  induction bs generalizing i with
  | nil => exact hm
  | cons b bs ih => exact Memory.write_wf (ih (i + 1))

/-- With no store by the host since acceptance, a byte of `EXT` reads as the memory holds it (R55, R70). -/
theorem extByte_of_noStale {s : State} (h : s.extStale = []) (a off : Nat) : s.extByte a off = s.ext.read a := by
  simp [State.extByte, h, staleBytes]

/-- A read of a byte of `EXT` gives what the memory holds, or one of the values that the byte held earlier in the running
operation (R70). -/
theorem extByte_cases (s : State) (a off : Nat) :
    s.extByte a off = s.ext.read a ∨ s.extByte a off ∈ staleBytes s.extStale a := by
  have key : ∀ (l : List Byte) (k : Nat) (d : Byte), (d :: l).getD k d = d ∨ (d :: l).getD k d ∈ l := by
    intro l k d
    cases k with
    | zero => exact .inl rfl
    | succ k =>
      rcases h : l[k]? with _ | b
      · exact .inl (by simp [List.getD, h])
      · exact .inr (by simpa [List.getD, h] using List.mem_of_getElem? h)
  unfold State.extByte
  split
  · exact .inl rfl
  · exact key _ _ _

theorem staleBytes_cons_same (a : Nat) (b : Byte) (m : List Host.Cell) :
    staleBytes ((a, b) :: m) a = b :: staleBytes m a := by
  simp [staleBytes]

theorem staleBytes_cons_other {a a' : Nat} (h : a' ≠ a) (b : Byte) (m : List Host.Cell) :
    staleBytes ((a, b) :: m) a' = staleBytes m a' := by
  rw [staleBytes, List.filter_cons_of_neg (by simpa using Ne.symm h)]
  rfl

end Sys2Proof.Machine
end

