-- ==== Sys2Proof/Laws/State.lean ====
section
/-! SUPPORT. One lemma per field per update of State, each true by unfolding, so that no later proof unfolds a record
update. -/

namespace Sys2Proof.Machine

/-! ### `raiseFault` -/

@[simp] theorem raiseFault_cfg (code : BitVec 3) (s : State) : (raiseFault code s).cfg = s.cfg := rfl
@[simp] theorem raiseFault_args (code : BitVec 3) (s : State) : (raiseFault code s).args = s.args := rfl
@[simp] theorem raiseFault_op (code : BitVec 3) (s : State) : (raiseFault code s).op = s.op := rfl
@[simp] theorem raiseFault_busy (code : BitVec 3) (s : State) : (raiseFault code s).busy = false := rfl
@[simp] theorem raiseFault_done (code : BitVec 3) (s : State) : (raiseFault code s).done = false := rfl
@[simp] theorem raiseFault_fault (code : BitVec 3) (s : State) : (raiseFault code s).fault = code := rfl
@[simp] theorem raiseFault_xs (code : BitVec 3) (s : State) : (raiseFault code s).xs = s.xs := rfl
@[simp] theorem raiseFault_ys (code : BitVec 3) (s : State) : (raiseFault code s).ys = s.ys := rfl
@[simp] theorem raiseFault_xe (code : BitVec 3) (s : State) : (raiseFault code s).xe = s.xe := rfl
@[simp] theorem raiseFault_ye (code : BitVec 3) (s : State) : (raiseFault code s).ye = s.ye := rfl
@[simp] theorem raiseFault_color (code : BitVec 3) (s : State) : (raiseFault code s).color = s.color := rfl
@[simp] theorem raiseFault_pixcnt (code : BitVec 3) (s : State) : (raiseFault code s).pixcnt = s.pixcnt := rfl
@[simp] theorem raiseFault_opc (code : BitVec 3) (s : State) : (raiseFault code s).opc = s.opc := rfl
@[simp] theorem raiseFault_len (code : BitVec 3) (s : State) : (raiseFault code s).len = s.len := rfl
@[simp] theorem raiseFault_dlyv (code : BitVec 3) (s : State) : (raiseFault code s).dlyv = s.dlyv := rfl
@[simp] theorem raiseFault_src (code : BitVec 3) (s : State) : (raiseFault code s).src = s.src := rfl
@[simp] theorem raiseFault_sp (code : BitVec 3) (s : State) : (raiseFault code s).sp = s.sp := rfl
@[simp] theorem raiseFault_mode (code : BitVec 3) (s : State) : (raiseFault code s).mode = s.mode := rfl
@[simp] theorem raiseFault_stg (code : BitVec 3) (s : State) : (raiseFault code s).stg = s.stg := rfl
@[simp] theorem raiseFault_ph (code : BitVec 3) (s : State) : (raiseFault code s).ph = .idle := rfl
@[simp] theorem raiseFault_ext (code : BitVec 3) (s : State) : (raiseFault code s).ext = s.ext := rfl
@[simp] theorem raiseFault_extStale (code : BitVec 3) (s : State) : (raiseFault code s).extStale = s.extStale := rfl
@[simp] theorem raiseFault_extRaces (code : BitVec 3) (s : State) : (raiseFault code s).extRaces = s.extRaces := rfl
@[simp] theorem raiseFault_trace (code : BitVec 3) (s : State) : (raiseFault code s).trace = s.trace := rfl
@[simp] theorem raiseFault_answers (code : BitVec 3) (s : State) : (raiseFault code s).answers = s.answers := rfl
@[simp] theorem raiseFault_host (code : BitVec 3) (s : State) : (raiseFault code s).host = s.host := rfl
@[simp] theorem raiseFault_hostReads (code : BitVec 3) (s : State) : (raiseFault code s).hostReads = s.hostReads := rfl
@[simp] theorem raiseFault_faultLog (code : BitVec 3) (s : State) : (raiseFault code s).faultLog = s.faultLog ++ [code] := rfl

/-! ### `accept` -/

@[simp] theorem accept_cfg (s : State) : (accept s).cfg = s.cfg := rfl
@[simp] theorem accept_args (s : State) : (accept s).args = s.args := rfl
@[simp] theorem accept_op (s : State) : (accept s).op = s.op := rfl
@[simp] theorem accept_busy (s : State) : (accept s).busy = true := rfl
@[simp] theorem accept_done (s : State) : (accept s).done = false := rfl
@[simp] theorem accept_fault (s : State) : (accept s).fault = 0 := rfl
@[simp] theorem accept_xs (s : State) : (accept s).xs = s.xs := rfl
@[simp] theorem accept_ys (s : State) : (accept s).ys = s.ys := rfl
@[simp] theorem accept_xe (s : State) : (accept s).xe = s.xe := rfl
@[simp] theorem accept_ye (s : State) : (accept s).ye = s.ye := rfl
@[simp] theorem accept_color (s : State) : (accept s).color = s.color := rfl
@[simp] theorem accept_pixcnt (s : State) : (accept s).pixcnt = s.pixcnt := rfl
@[simp] theorem accept_opc (s : State) : (accept s).opc = s.opc := rfl
@[simp] theorem accept_len (s : State) : (accept s).len = s.len := rfl
@[simp] theorem accept_dlyv (s : State) : (accept s).dlyv = s.dlyv := rfl
@[simp] theorem accept_src (s : State) : (accept s).src = s.src := rfl
@[simp] theorem accept_sp (s : State) : (accept s).sp = s.sp := rfl
@[simp] theorem accept_mode (s : State) : (accept s).mode = s.mode := rfl
@[simp] theorem accept_stg (s : State) : (accept s).stg = 0 := rfl
@[simp] theorem accept_ph (s : State) : (accept s).ph = .dispatch := rfl
@[simp] theorem accept_ext (s : State) : (accept s).ext = s.ext := rfl
@[simp] theorem accept_extStale (s : State) : (accept s).extStale = [] := rfl
@[simp] theorem accept_extRaces (s : State) : (accept s).extRaces = s.extRaces := rfl
@[simp] theorem accept_trace (s : State) : (accept s).trace = s.trace := rfl
@[simp] theorem accept_answers (s : State) : (accept s).answers = s.answers := rfl
@[simp] theorem accept_host (s : State) : (accept s).host = s.host := rfl
@[simp] theorem accept_hostReads (s : State) : (accept s).hostReads = s.hostReads := rfl
@[simp] theorem accept_faultLog (s : State) : (accept s).faultLog = s.faultLog := rfl

/-! ### `record` -/

@[simp] theorem record_cfg (t : Txn) (s : State) : (record t s).cfg = s.cfg := rfl
@[simp] theorem record_args (t : Txn) (s : State) : (record t s).args = s.args := rfl
@[simp] theorem record_op (t : Txn) (s : State) : (record t s).op = s.op := rfl
@[simp] theorem record_busy (t : Txn) (s : State) : (record t s).busy = s.busy := rfl
@[simp] theorem record_done (t : Txn) (s : State) : (record t s).done = s.done := rfl
@[simp] theorem record_fault (t : Txn) (s : State) : (record t s).fault = s.fault := rfl
@[simp] theorem record_xs (t : Txn) (s : State) : (record t s).xs = s.xs := rfl
@[simp] theorem record_ys (t : Txn) (s : State) : (record t s).ys = s.ys := rfl
@[simp] theorem record_xe (t : Txn) (s : State) : (record t s).xe = s.xe := rfl
@[simp] theorem record_ye (t : Txn) (s : State) : (record t s).ye = s.ye := rfl
@[simp] theorem record_color (t : Txn) (s : State) : (record t s).color = s.color := rfl
@[simp] theorem record_pixcnt (t : Txn) (s : State) : (record t s).pixcnt = s.pixcnt := rfl
@[simp] theorem record_opc (t : Txn) (s : State) : (record t s).opc = s.opc := rfl
@[simp] theorem record_len (t : Txn) (s : State) : (record t s).len = s.len := rfl
@[simp] theorem record_dlyv (t : Txn) (s : State) : (record t s).dlyv = s.dlyv := rfl
@[simp] theorem record_src (t : Txn) (s : State) : (record t s).src = s.src := rfl
@[simp] theorem record_sp (t : Txn) (s : State) : (record t s).sp = s.sp := rfl
@[simp] theorem record_mode (t : Txn) (s : State) : (record t s).mode = s.mode := rfl
@[simp] theorem record_stg (t : Txn) (s : State) : (record t s).stg = s.stg := rfl
@[simp] theorem record_ph (t : Txn) (s : State) : (record t s).ph = s.ph := rfl
@[simp] theorem record_ext (t : Txn) (s : State) : (record t s).ext = s.ext := rfl
@[simp] theorem record_extStale (t : Txn) (s : State) : (record t s).extStale = s.extStale := rfl
@[simp] theorem record_extRaces (t : Txn) (s : State) : (record t s).extRaces = s.extRaces := rfl
@[simp] theorem record_trace (t : Txn) (s : State) : (record t s).trace = s.trace ++ [⟨t, s.nextAnswer⟩] := rfl
@[simp] theorem record_answers (t : Txn) (s : State) : (record t s).answers = if s.cfg.terr then s.answers.tail else s.answers := rfl
@[simp] theorem record_host (t : Txn) (s : State) : (record t s).host = s.host := rfl
@[simp] theorem record_hostReads (t : Txn) (s : State) : (record t s).hostReads = s.hostReads := rfl
@[simp] theorem record_faultLog (t : Txn) (s : State) : (record t s).faultLog = s.faultLog := rfl

/-! ### `complete` -/

@[simp] theorem complete_cfg (s : State) : (complete s).cfg = s.cfg := rfl
@[simp] theorem complete_args (s : State) : (complete s).args = s.args := rfl
@[simp] theorem complete_op (s : State) : (complete s).op = s.op := rfl
@[simp] theorem complete_busy (s : State) : (complete s).busy = false := rfl
@[simp] theorem complete_done (s : State) : (complete s).done = true := rfl
@[simp] theorem complete_fault (s : State) : (complete s).fault = s.fault := rfl
@[simp] theorem complete_xs (s : State) : (complete s).xs = s.xs := rfl
@[simp] theorem complete_ys (s : State) : (complete s).ys = s.ys := rfl
@[simp] theorem complete_xe (s : State) : (complete s).xe = s.xe := rfl
@[simp] theorem complete_ye (s : State) : (complete s).ye = s.ye := rfl
@[simp] theorem complete_color (s : State) : (complete s).color = s.color := rfl
@[simp] theorem complete_pixcnt (s : State) : (complete s).pixcnt = s.pixcnt := rfl
@[simp] theorem complete_opc (s : State) : (complete s).opc = s.opc := rfl
@[simp] theorem complete_len (s : State) : (complete s).len = s.len := rfl
@[simp] theorem complete_dlyv (s : State) : (complete s).dlyv = s.dlyv := rfl
@[simp] theorem complete_src (s : State) : (complete s).src = s.src := rfl
@[simp] theorem complete_sp (s : State) : (complete s).sp = s.sp := rfl
@[simp] theorem complete_mode (s : State) : (complete s).mode = s.mode := rfl
@[simp] theorem complete_stg (s : State) : (complete s).stg = s.stg := rfl
@[simp] theorem complete_ph (s : State) : (complete s).ph = .idle := rfl
@[simp] theorem complete_ext (s : State) : (complete s).ext = s.ext := rfl
@[simp] theorem complete_extStale (s : State) : (complete s).extStale = s.extStale := rfl
@[simp] theorem complete_extRaces (s : State) : (complete s).extRaces = s.extRaces := rfl
@[simp] theorem complete_trace (s : State) : (complete s).trace = s.trace := rfl
@[simp] theorem complete_answers (s : State) : (complete s).answers = s.answers := rfl
@[simp] theorem complete_host (s : State) : (complete s).host = s.host := rfl
@[simp] theorem complete_hostReads (s : State) : (complete s).hostReads = s.hostReads := rfl
@[simp] theorem complete_faultLog (s : State) : (complete s).faultLog = s.faultLog := rfl

/-! ### `endMicroOp` -/

@[simp] theorem endMicroOp_cfg (s : State) : (endMicroOp s).cfg = s.cfg := rfl
@[simp] theorem endMicroOp_args (s : State) : (endMicroOp s).args = s.args := rfl
@[simp] theorem endMicroOp_op (s : State) : (endMicroOp s).op = s.op := rfl
@[simp] theorem endMicroOp_busy (s : State) : (endMicroOp s).busy = s.busy := rfl
@[simp] theorem endMicroOp_done (s : State) : (endMicroOp s).done = s.done := rfl
@[simp] theorem endMicroOp_fault (s : State) : (endMicroOp s).fault = s.fault := rfl
@[simp] theorem endMicroOp_xs (s : State) : (endMicroOp s).xs = s.xs := rfl
@[simp] theorem endMicroOp_ys (s : State) : (endMicroOp s).ys = s.ys := rfl
@[simp] theorem endMicroOp_xe (s : State) : (endMicroOp s).xe = s.xe := rfl
@[simp] theorem endMicroOp_ye (s : State) : (endMicroOp s).ye = s.ye := rfl
@[simp] theorem endMicroOp_color (s : State) : (endMicroOp s).color = s.color := rfl
@[simp] theorem endMicroOp_pixcnt (s : State) : (endMicroOp s).pixcnt = s.pixcnt := rfl
@[simp] theorem endMicroOp_opc (s : State) : (endMicroOp s).opc = s.opc := rfl
@[simp] theorem endMicroOp_len (s : State) : (endMicroOp s).len = s.len := rfl
@[simp] theorem endMicroOp_dlyv (s : State) : (endMicroOp s).dlyv = s.dlyv := rfl
@[simp] theorem endMicroOp_src (s : State) : (endMicroOp s).src = s.src := rfl
@[simp] theorem endMicroOp_sp (s : State) : (endMicroOp s).sp = s.sp := rfl
@[simp] theorem endMicroOp_mode (s : State) : (endMicroOp s).mode = s.mode := rfl
@[simp] theorem endMicroOp_stg (s : State) : (endMicroOp s).stg = s.stg + 1 := rfl
@[simp] theorem endMicroOp_ph (s : State) : (endMicroOp s).ph = .dispatch := rfl
@[simp] theorem endMicroOp_ext (s : State) : (endMicroOp s).ext = s.ext := rfl
@[simp] theorem endMicroOp_extStale (s : State) : (endMicroOp s).extStale = s.extStale := rfl
@[simp] theorem endMicroOp_extRaces (s : State) : (endMicroOp s).extRaces = s.extRaces := rfl
@[simp] theorem endMicroOp_trace (s : State) : (endMicroOp s).trace = s.trace := rfl
@[simp] theorem endMicroOp_answers (s : State) : (endMicroOp s).answers = s.answers := rfl
@[simp] theorem endMicroOp_host (s : State) : (endMicroOp s).host = s.host := rfl
@[simp] theorem endMicroOp_hostReads (s : State) : (endMicroOp s).hostReads = s.hostReads := rfl
@[simp] theorem endMicroOp_faultLog (s : State) : (endMicroOp s).faultLog = s.faultLog := rfl

/-! ### `fetchSentinel` -/

@[simp] theorem fetchSentinel_cfg (s : State) : (fetchSentinel s).cfg = s.cfg := rfl
@[simp] theorem fetchSentinel_args (s : State) : (fetchSentinel s).args = s.args := rfl
@[simp] theorem fetchSentinel_op (s : State) : (fetchSentinel s).op = s.op := rfl
@[simp] theorem fetchSentinel_busy (s : State) : (fetchSentinel s).busy = s.busy := rfl
@[simp] theorem fetchSentinel_done (s : State) : (fetchSentinel s).done = s.done := rfl
@[simp] theorem fetchSentinel_fault (s : State) : (fetchSentinel s).fault = s.fault := rfl
@[simp] theorem fetchSentinel_xs (s : State) : (fetchSentinel s).xs = s.xs := rfl
@[simp] theorem fetchSentinel_ys (s : State) : (fetchSentinel s).ys = s.ys := rfl
@[simp] theorem fetchSentinel_xe (s : State) : (fetchSentinel s).xe = s.xe := rfl
@[simp] theorem fetchSentinel_ye (s : State) : (fetchSentinel s).ye = s.ye := rfl
@[simp] theorem fetchSentinel_color (s : State) : (fetchSentinel s).color = s.color := rfl
@[simp] theorem fetchSentinel_pixcnt (s : State) : (fetchSentinel s).pixcnt = s.pixcnt := rfl
@[simp] theorem fetchSentinel_opc (s : State) : (fetchSentinel s).opc = s.cfg.opEnd := rfl
@[simp] theorem fetchSentinel_len (s : State) : (fetchSentinel s).len = s.len := rfl
@[simp] theorem fetchSentinel_dlyv (s : State) : (fetchSentinel s).dlyv = s.dlyv := rfl
@[simp] theorem fetchSentinel_src (s : State) : (fetchSentinel s).src = s.src := rfl
@[simp] theorem fetchSentinel_sp (s : State) : (fetchSentinel s).sp = s.sp := rfl
@[simp] theorem fetchSentinel_mode (s : State) : (fetchSentinel s).mode = s.mode := rfl
@[simp] theorem fetchSentinel_stg (s : State) : (fetchSentinel s).stg = s.stg + 1 := rfl
@[simp] theorem fetchSentinel_ph (s : State) : (fetchSentinel s).ph = .dispatch := rfl
@[simp] theorem fetchSentinel_ext (s : State) : (fetchSentinel s).ext = s.ext := rfl
@[simp] theorem fetchSentinel_extStale (s : State) : (fetchSentinel s).extStale = s.extStale := rfl
@[simp] theorem fetchSentinel_extRaces (s : State) : (fetchSentinel s).extRaces = s.extRaces := rfl
@[simp] theorem fetchSentinel_trace (s : State) : (fetchSentinel s).trace = s.trace := rfl
@[simp] theorem fetchSentinel_answers (s : State) : (fetchSentinel s).answers = s.answers := rfl
@[simp] theorem fetchSentinel_host (s : State) : (fetchSentinel s).host = s.host := rfl
@[simp] theorem fetchSentinel_hostReads (s : State) : (fetchSentinel s).hostReads = s.hostReads := rfl
@[simp] theorem fetchSentinel_faultLog (s : State) : (fetchSentinel s).faultLog = s.faultLog := rfl

/-! ### `afterPayload` -/

@[simp] theorem afterPayload_cfg (s : State) : (afterPayload s).cfg = s.cfg := rfl
@[simp] theorem afterPayload_args (s : State) : (afterPayload s).args = s.args := rfl
@[simp] theorem afterPayload_op (s : State) : (afterPayload s).op = s.op := rfl
@[simp] theorem afterPayload_busy (s : State) : (afterPayload s).busy = s.busy := rfl
@[simp] theorem afterPayload_done (s : State) : (afterPayload s).done = s.done := rfl
@[simp] theorem afterPayload_fault (s : State) : (afterPayload s).fault = s.fault := rfl
@[simp] theorem afterPayload_xs (s : State) : (afterPayload s).xs = s.xs := rfl
@[simp] theorem afterPayload_ys (s : State) : (afterPayload s).ys = s.ys := rfl
@[simp] theorem afterPayload_xe (s : State) : (afterPayload s).xe = s.xe := rfl
@[simp] theorem afterPayload_ye (s : State) : (afterPayload s).ye = s.ye := rfl
@[simp] theorem afterPayload_color (s : State) : (afterPayload s).color = s.color := rfl
@[simp] theorem afterPayload_pixcnt (s : State) : (afterPayload s).pixcnt = s.pixcnt := rfl
@[simp] theorem afterPayload_opc (s : State) : (afterPayload s).opc = s.opc := rfl
@[simp] theorem afterPayload_len (s : State) : (afterPayload s).len = s.len := rfl
@[simp] theorem afterPayload_dlyv (s : State) : (afterPayload s).dlyv = s.dlyv := rfl
@[simp] theorem afterPayload_src (s : State) : (afterPayload s).src = s.src := rfl
@[simp] theorem afterPayload_sp (s : State) : (afterPayload s).sp = s.sp := rfl
@[simp] theorem afterPayload_mode (s : State) : (afterPayload s).mode = s.mode := rfl
@[simp] theorem afterPayload_stg (s : State) : (afterPayload s).stg = s.stg := rfl
@[simp] theorem afterPayload_ph (s : State) : (afterPayload s).ph = if s.dlyv = 0 then .adv else .dly := rfl
@[simp] theorem afterPayload_ext (s : State) : (afterPayload s).ext = s.ext := rfl
@[simp] theorem afterPayload_extStale (s : State) : (afterPayload s).extStale = s.extStale := rfl
@[simp] theorem afterPayload_extRaces (s : State) : (afterPayload s).extRaces = s.extRaces := rfl
@[simp] theorem afterPayload_trace (s : State) : (afterPayload s).trace = s.trace := rfl
@[simp] theorem afterPayload_answers (s : State) : (afterPayload s).answers = s.answers := rfl
@[simp] theorem afterPayload_host (s : State) : (afterPayload s).host = s.host := rfl
@[simp] theorem afterPayload_hostReads (s : State) : (afterPayload s).hostReads = s.hostReads := rfl
@[simp] theorem afterPayload_faultLog (s : State) : (afterPayload s).faultLog = s.faultLog := rfl

/-! ### `loadWindow` -/

@[simp] theorem loadWindow_cfg (x y xe ye : U16) (s : State) : (loadWindow x y xe ye s).cfg = s.cfg := rfl
@[simp] theorem loadWindow_args (x y xe ye : U16) (s : State) : (loadWindow x y xe ye s).args = s.args := rfl
@[simp] theorem loadWindow_op (x y xe ye : U16) (s : State) : (loadWindow x y xe ye s).op = s.op := rfl
@[simp] theorem loadWindow_busy (x y xe ye : U16) (s : State) : (loadWindow x y xe ye s).busy = s.busy := rfl
@[simp] theorem loadWindow_done (x y xe ye : U16) (s : State) : (loadWindow x y xe ye s).done = s.done := rfl
@[simp] theorem loadWindow_fault (x y xe ye : U16) (s : State) : (loadWindow x y xe ye s).fault = s.fault := rfl
@[simp] theorem loadWindow_xs (x y xe ye : U16) (s : State) : (loadWindow x y xe ye s).xs = x := rfl
@[simp] theorem loadWindow_ys (x y xe ye : U16) (s : State) : (loadWindow x y xe ye s).ys = y := rfl
@[simp] theorem loadWindow_xe (x y xe ye : U16) (s : State) : (loadWindow x y xe ye s).xe = xe := rfl
@[simp] theorem loadWindow_ye (x y xe ye : U16) (s : State) : (loadWindow x y xe ye s).ye = ye := rfl
@[simp] theorem loadWindow_color (x y xe ye : U16) (s : State) : (loadWindow x y xe ye s).color = s.color := rfl
@[simp] theorem loadWindow_pixcnt (x y xe ye : U16) (s : State) : (loadWindow x y xe ye s).pixcnt = s.pixcnt := rfl
@[simp] theorem loadWindow_opc (x y xe ye : U16) (s : State) : (loadWindow x y xe ye s).opc = s.opc := rfl
@[simp] theorem loadWindow_len (x y xe ye : U16) (s : State) : (loadWindow x y xe ye s).len = s.len := rfl
@[simp] theorem loadWindow_dlyv (x y xe ye : U16) (s : State) : (loadWindow x y xe ye s).dlyv = s.dlyv := rfl
@[simp] theorem loadWindow_src (x y xe ye : U16) (s : State) : (loadWindow x y xe ye s).src = s.src := rfl
@[simp] theorem loadWindow_sp (x y xe ye : U16) (s : State) : (loadWindow x y xe ye s).sp = s.sp := rfl
@[simp] theorem loadWindow_mode (x y xe ye : U16) (s : State) : (loadWindow x y xe ye s).mode = s.mode := rfl
@[simp] theorem loadWindow_stg (x y xe ye : U16) (s : State) : (loadWindow x y xe ye s).stg = s.stg := rfl
@[simp] theorem loadWindow_ph (x y xe ye : U16) (s : State) : (loadWindow x y xe ye s).ph = s.ph := rfl
@[simp] theorem loadWindow_ext (x y xe ye : U16) (s : State) : (loadWindow x y xe ye s).ext = s.ext := rfl
@[simp] theorem loadWindow_extStale (x y xe ye : U16) (s : State) : (loadWindow x y xe ye s).extStale = s.extStale := rfl
@[simp] theorem loadWindow_extRaces (x y xe ye : U16) (s : State) : (loadWindow x y xe ye s).extRaces = s.extRaces := rfl
@[simp] theorem loadWindow_trace (x y xe ye : U16) (s : State) : (loadWindow x y xe ye s).trace = s.trace := rfl
@[simp] theorem loadWindow_answers (x y xe ye : U16) (s : State) : (loadWindow x y xe ye s).answers = s.answers := rfl
@[simp] theorem loadWindow_host (x y xe ye : U16) (s : State) : (loadWindow x y xe ye s).host = s.host := rfl
@[simp] theorem loadWindow_hostReads (x y xe ye : U16) (s : State) : (loadWindow x y xe ye s).hostReads = s.hostReads := rfl
@[simp] theorem loadWindow_faultLog (x y xe ye : U16) (s : State) : (loadWindow x y xe ye s).faultLog = s.faultLog := rfl

/-! ### `loadFill` -/

@[simp] theorem loadFill_cfg (c x y w h : U16) (s : State) : (loadFill c x y w h s).cfg = s.cfg := rfl
@[simp] theorem loadFill_args (c x y w h : U16) (s : State) : (loadFill c x y w h s).args = s.args := rfl
@[simp] theorem loadFill_op (c x y w h : U16) (s : State) : (loadFill c x y w h s).op = s.op := rfl
@[simp] theorem loadFill_busy (c x y w h : U16) (s : State) : (loadFill c x y w h s).busy = s.busy := rfl
@[simp] theorem loadFill_done (c x y w h : U16) (s : State) : (loadFill c x y w h s).done = s.done := rfl
@[simp] theorem loadFill_fault (c x y w h : U16) (s : State) : (loadFill c x y w h s).fault = s.fault := rfl
@[simp] theorem loadFill_xs (c x y w h : U16) (s : State) : (loadFill c x y w h s).xs = x := rfl
@[simp] theorem loadFill_ys (c x y w h : U16) (s : State) : (loadFill c x y w h s).ys = y := rfl
@[simp] theorem loadFill_xe (c x y w h : U16) (s : State) : (loadFill c x y w h s).xe = corner x w := rfl
@[simp] theorem loadFill_ye (c x y w h : U16) (s : State) : (loadFill c x y w h s).ye = corner y h := rfl
@[simp] theorem loadFill_color (c x y w h : U16) (s : State) : (loadFill c x y w h s).color = c := rfl
@[simp] theorem loadFill_pixcnt (c x y w h : U16) (s : State) : (loadFill c x y w h s).pixcnt = pixelCount w h := rfl
@[simp] theorem loadFill_opc (c x y w h : U16) (s : State) : (loadFill c x y w h s).opc = s.opc := rfl
@[simp] theorem loadFill_len (c x y w h : U16) (s : State) : (loadFill c x y w h s).len = s.len := rfl
@[simp] theorem loadFill_dlyv (c x y w h : U16) (s : State) : (loadFill c x y w h s).dlyv = s.dlyv := rfl
@[simp] theorem loadFill_src (c x y w h : U16) (s : State) : (loadFill c x y w h s).src = s.src := rfl
@[simp] theorem loadFill_sp (c x y w h : U16) (s : State) : (loadFill c x y w h s).sp = s.sp := rfl
@[simp] theorem loadFill_mode (c x y w h : U16) (s : State) : (loadFill c x y w h s).mode = s.mode := rfl
@[simp] theorem loadFill_stg (c x y w h : U16) (s : State) : (loadFill c x y w h s).stg = s.stg := rfl
@[simp] theorem loadFill_ph (c x y w h : U16) (s : State) : (loadFill c x y w h s).ph = s.ph := rfl
@[simp] theorem loadFill_ext (c x y w h : U16) (s : State) : (loadFill c x y w h s).ext = s.ext := rfl
@[simp] theorem loadFill_extStale (c x y w h : U16) (s : State) : (loadFill c x y w h s).extStale = s.extStale := rfl
@[simp] theorem loadFill_extRaces (c x y w h : U16) (s : State) : (loadFill c x y w h s).extRaces = s.extRaces := rfl
@[simp] theorem loadFill_trace (c x y w h : U16) (s : State) : (loadFill c x y w h s).trace = s.trace := rfl
@[simp] theorem loadFill_answers (c x y w h : U16) (s : State) : (loadFill c x y w h s).answers = s.answers := rfl
@[simp] theorem loadFill_host (c x y w h : U16) (s : State) : (loadFill c x y w h s).host = s.host := rfl
@[simp] theorem loadFill_hostReads (c x y w h : U16) (s : State) : (loadFill c x y w h s).hostReads = s.hostReads := rfl
@[simp] theorem loadFill_faultLog (c x y w h : U16) (s : State) : (loadFill c x y w h s).faultLog = s.faultLog := rfl

/-! ### `hostRead` -/

@[simp] theorem hostRead_cfg (r : HostReg) (s : State) : (hostRead r s).cfg = s.cfg := rfl
@[simp] theorem hostRead_args (r : HostReg) (s : State) : (hostRead r s).args = s.args := rfl
@[simp] theorem hostRead_op (r : HostReg) (s : State) : (hostRead r s).op = s.op := rfl
@[simp] theorem hostRead_busy (r : HostReg) (s : State) : (hostRead r s).busy = s.busy := rfl
@[simp] theorem hostRead_done (r : HostReg) (s : State) : (hostRead r s).done = s.done := rfl
@[simp] theorem hostRead_fault (r : HostReg) (s : State) : (hostRead r s).fault = s.fault := rfl
@[simp] theorem hostRead_xs (r : HostReg) (s : State) : (hostRead r s).xs = s.xs := rfl
@[simp] theorem hostRead_ys (r : HostReg) (s : State) : (hostRead r s).ys = s.ys := rfl
@[simp] theorem hostRead_xe (r : HostReg) (s : State) : (hostRead r s).xe = s.xe := rfl
@[simp] theorem hostRead_ye (r : HostReg) (s : State) : (hostRead r s).ye = s.ye := rfl
@[simp] theorem hostRead_color (r : HostReg) (s : State) : (hostRead r s).color = s.color := rfl
@[simp] theorem hostRead_pixcnt (r : HostReg) (s : State) : (hostRead r s).pixcnt = s.pixcnt := rfl
@[simp] theorem hostRead_opc (r : HostReg) (s : State) : (hostRead r s).opc = s.opc := rfl
@[simp] theorem hostRead_len (r : HostReg) (s : State) : (hostRead r s).len = s.len := rfl
@[simp] theorem hostRead_dlyv (r : HostReg) (s : State) : (hostRead r s).dlyv = s.dlyv := rfl
@[simp] theorem hostRead_src (r : HostReg) (s : State) : (hostRead r s).src = s.src := rfl
@[simp] theorem hostRead_sp (r : HostReg) (s : State) : (hostRead r s).sp = s.sp := rfl
@[simp] theorem hostRead_mode (r : HostReg) (s : State) : (hostRead r s).mode = s.mode := rfl
@[simp] theorem hostRead_stg (r : HostReg) (s : State) : (hostRead r s).stg = s.stg := rfl
@[simp] theorem hostRead_ph (r : HostReg) (s : State) : (hostRead r s).ph = s.ph := rfl
@[simp] theorem hostRead_ext (r : HostReg) (s : State) : (hostRead r s).ext = s.ext := rfl
@[simp] theorem hostRead_extStale (r : HostReg) (s : State) : (hostRead r s).extStale = s.extStale := rfl
@[simp] theorem hostRead_extRaces (r : HostReg) (s : State) : (hostRead r s).extRaces = s.extRaces := rfl
@[simp] theorem hostRead_trace (r : HostReg) (s : State) : (hostRead r s).trace = s.trace := rfl
@[simp] theorem hostRead_answers (r : HostReg) (s : State) : (hostRead r s).answers = s.answers := rfl
@[simp] theorem hostRead_host (r : HostReg) (s : State) : (hostRead r s).host = s.host := rfl
@[simp] theorem hostRead_hostReads (r : HostReg) (s : State) : (hostRead r s).hostReads = s.hostReads ++ [(r, s.readReg r)] := rfl
@[simp] theorem hostRead_faultLog (r : HostReg) (s : State) : (hostRead r s).faultLog = s.faultLog := rfl

/-! ### `resetRegisters` -/

@[simp] theorem resetRegisters_cfg (r : Residue) (s : State) : (resetRegisters r s).cfg = s.cfg := rfl
@[simp] theorem resetRegisters_args (r : Residue) (s : State) : (resetRegisters r s).args = Vector.replicate 5 0 := rfl
@[simp] theorem resetRegisters_op (r : Residue) (s : State) : (resetRegisters r s).op = 0 := rfl
@[simp] theorem resetRegisters_busy (r : Residue) (s : State) : (resetRegisters r s).busy = false := rfl
@[simp] theorem resetRegisters_done (r : Residue) (s : State) : (resetRegisters r s).done = false := rfl
@[simp] theorem resetRegisters_fault (r : Residue) (s : State) : (resetRegisters r s).fault = 0 := rfl
@[simp] theorem resetRegisters_xs (r : Residue) (s : State) : (resetRegisters r s).xs = r.xs := rfl
@[simp] theorem resetRegisters_ys (r : Residue) (s : State) : (resetRegisters r s).ys = r.ys := rfl
@[simp] theorem resetRegisters_xe (r : Residue) (s : State) : (resetRegisters r s).xe = r.xe := rfl
@[simp] theorem resetRegisters_ye (r : Residue) (s : State) : (resetRegisters r s).ye = r.ye := rfl
@[simp] theorem resetRegisters_color (r : Residue) (s : State) : (resetRegisters r s).color = r.color := rfl
@[simp] theorem resetRegisters_pixcnt (r : Residue) (s : State) : (resetRegisters r s).pixcnt = r.pixcnt := rfl
@[simp] theorem resetRegisters_opc (r : Residue) (s : State) : (resetRegisters r s).opc = r.opc := rfl
@[simp] theorem resetRegisters_len (r : Residue) (s : State) : (resetRegisters r s).len = r.len := rfl
@[simp] theorem resetRegisters_dlyv (r : Residue) (s : State) : (resetRegisters r s).dlyv = r.dlyv := rfl
@[simp] theorem resetRegisters_src (r : Residue) (s : State) : (resetRegisters r s).src = r.src := rfl
@[simp] theorem resetRegisters_sp (r : Residue) (s : State) : (resetRegisters r s).sp = r.sp := rfl
@[simp] theorem resetRegisters_mode (r : Residue) (s : State) : (resetRegisters r s).mode = r.mode := rfl
@[simp] theorem resetRegisters_stg (r : Residue) (s : State) : (resetRegisters r s).stg = r.stg := rfl
@[simp] theorem resetRegisters_ph (r : Residue) (s : State) : (resetRegisters r s).ph = .idle := rfl
@[simp] theorem resetRegisters_ext (r : Residue) (s : State) : (resetRegisters r s).ext = s.ext := rfl
@[simp] theorem resetRegisters_extStale (r : Residue) (s : State) : (resetRegisters r s).extStale = s.extStale := rfl
@[simp] theorem resetRegisters_extRaces (r : Residue) (s : State) : (resetRegisters r s).extRaces = s.extRaces := rfl
@[simp] theorem resetRegisters_trace (r : Residue) (s : State) : (resetRegisters r s).trace = s.trace := rfl
@[simp] theorem resetRegisters_answers (r : Residue) (s : State) : (resetRegisters r s).answers = s.answers := rfl
@[simp] theorem resetRegisters_host (r : Residue) (s : State) : (resetRegisters r s).host = s.host := rfl
@[simp] theorem resetRegisters_hostReads (r : Residue) (s : State) : (resetRegisters r s).hostReads = s.hostReads := rfl
@[simp] theorem resetRegisters_faultLog (r : Residue) (s : State) : (resetRegisters r s).faultLog = s.faultLog := rfl

/-! ### `afterTxns` -/

@[simp] theorem afterTxns_cfg (ts : List Txn) (s : State) : (s.afterTxns ts).cfg = s.cfg := rfl
@[simp] theorem afterTxns_args (ts : List Txn) (s : State) : (s.afterTxns ts).args = s.args := rfl
@[simp] theorem afterTxns_op (ts : List Txn) (s : State) : (s.afterTxns ts).op = s.op := rfl
@[simp] theorem afterTxns_busy (ts : List Txn) (s : State) : (s.afterTxns ts).busy = s.busy := rfl
@[simp] theorem afterTxns_done (ts : List Txn) (s : State) : (s.afterTxns ts).done = s.done := rfl
@[simp] theorem afterTxns_fault (ts : List Txn) (s : State) : (s.afterTxns ts).fault = s.fault := rfl
@[simp] theorem afterTxns_xs (ts : List Txn) (s : State) : (s.afterTxns ts).xs = s.xs := rfl
@[simp] theorem afterTxns_ys (ts : List Txn) (s : State) : (s.afterTxns ts).ys = s.ys := rfl
@[simp] theorem afterTxns_xe (ts : List Txn) (s : State) : (s.afterTxns ts).xe = s.xe := rfl
@[simp] theorem afterTxns_ye (ts : List Txn) (s : State) : (s.afterTxns ts).ye = s.ye := rfl
@[simp] theorem afterTxns_color (ts : List Txn) (s : State) : (s.afterTxns ts).color = s.color := rfl
@[simp] theorem afterTxns_pixcnt (ts : List Txn) (s : State) : (s.afterTxns ts).pixcnt = s.pixcnt := rfl
@[simp] theorem afterTxns_opc (ts : List Txn) (s : State) : (s.afterTxns ts).opc = s.opc := rfl
@[simp] theorem afterTxns_len (ts : List Txn) (s : State) : (s.afterTxns ts).len = s.len := rfl
@[simp] theorem afterTxns_dlyv (ts : List Txn) (s : State) : (s.afterTxns ts).dlyv = s.dlyv := rfl
@[simp] theorem afterTxns_src (ts : List Txn) (s : State) : (s.afterTxns ts).src = s.src := rfl
@[simp] theorem afterTxns_sp (ts : List Txn) (s : State) : (s.afterTxns ts).sp = s.sp := rfl
@[simp] theorem afterTxns_mode (ts : List Txn) (s : State) : (s.afterTxns ts).mode = s.mode := rfl
@[simp] theorem afterTxns_stg (ts : List Txn) (s : State) : (s.afterTxns ts).stg = s.stg := rfl
@[simp] theorem afterTxns_ph (ts : List Txn) (s : State) : (s.afterTxns ts).ph = s.ph := rfl
@[simp] theorem afterTxns_ext (ts : List Txn) (s : State) : (s.afterTxns ts).ext = s.ext := rfl
@[simp] theorem afterTxns_extStale (ts : List Txn) (s : State) : (s.afterTxns ts).extStale = s.extStale := rfl
@[simp] theorem afterTxns_extRaces (ts : List Txn) (s : State) : (s.afterTxns ts).extRaces = s.extRaces := rfl
@[simp] theorem afterTxns_trace (ts : List Txn) (s : State) : (s.afterTxns ts).trace = s.trace ++ ts.map (fun t => ⟨t, .ok⟩) := rfl
@[simp] theorem afterTxns_answers (ts : List Txn) (s : State) : (s.afterTxns ts).answers = if s.cfg.terr then s.answers.drop ts.length else s.answers := rfl
@[simp] theorem afterTxns_host (ts : List Txn) (s : State) : (s.afterTxns ts).host = s.host := rfl
@[simp] theorem afterTxns_hostReads (ts : List Txn) (s : State) : (s.afterTxns ts).hostReads = s.hostReads := rfl
@[simp] theorem afterTxns_faultLog (ts : List Txn) (s : State) : (s.afterTxns ts).faultLog = s.faultLog := rfl

/-! ### `accepted` -/

@[simp] theorem accepted_cfg (s : State) (code : BitVec 4) : (s.accepted code).cfg = s.cfg := rfl
@[simp] theorem accepted_args (s : State) (code : BitVec 4) : (s.accepted code).args = s.args := rfl
@[simp] theorem accepted_op (s : State) (code : BitVec 4) : (s.accepted code).op = code := rfl
@[simp] theorem accepted_busy (s : State) (code : BitVec 4) : (s.accepted code).busy = true := rfl
@[simp] theorem accepted_done (s : State) (code : BitVec 4) : (s.accepted code).done = false := rfl
@[simp] theorem accepted_fault (s : State) (code : BitVec 4) : (s.accepted code).fault = 0 := rfl
@[simp] theorem accepted_xs (s : State) (code : BitVec 4) : (s.accepted code).xs = s.xs := rfl
@[simp] theorem accepted_ys (s : State) (code : BitVec 4) : (s.accepted code).ys = s.ys := rfl
@[simp] theorem accepted_xe (s : State) (code : BitVec 4) : (s.accepted code).xe = s.xe := rfl
@[simp] theorem accepted_ye (s : State) (code : BitVec 4) : (s.accepted code).ye = s.ye := rfl
@[simp] theorem accepted_color (s : State) (code : BitVec 4) : (s.accepted code).color = s.color := rfl
@[simp] theorem accepted_pixcnt (s : State) (code : BitVec 4) : (s.accepted code).pixcnt = s.pixcnt := rfl
@[simp] theorem accepted_opc (s : State) (code : BitVec 4) : (s.accepted code).opc = s.opc := rfl
@[simp] theorem accepted_len (s : State) (code : BitVec 4) : (s.accepted code).len = s.len := rfl
@[simp] theorem accepted_dlyv (s : State) (code : BitVec 4) : (s.accepted code).dlyv = s.dlyv := rfl
@[simp] theorem accepted_src (s : State) (code : BitVec 4) : (s.accepted code).src = s.src := rfl
@[simp] theorem accepted_sp (s : State) (code : BitVec 4) : (s.accepted code).sp = s.sp := rfl
@[simp] theorem accepted_mode (s : State) (code : BitVec 4) : (s.accepted code).mode = s.mode := rfl
@[simp] theorem accepted_stg (s : State) (code : BitVec 4) : (s.accepted code).stg = 0 := rfl
@[simp] theorem accepted_ph (s : State) (code : BitVec 4) : (s.accepted code).ph = .dispatch := rfl
@[simp] theorem accepted_ext (s : State) (code : BitVec 4) : (s.accepted code).ext = s.ext := rfl
@[simp] theorem accepted_extStale (s : State) (code : BitVec 4) : (s.accepted code).extStale = [] := rfl
@[simp] theorem accepted_extRaces (s : State) (code : BitVec 4) : (s.accepted code).extRaces = s.extRaces := rfl
@[simp] theorem accepted_trace (s : State) (code : BitVec 4) : (s.accepted code).trace = s.trace := rfl
@[simp] theorem accepted_answers (s : State) (code : BitVec 4) : (s.accepted code).answers = s.answers := rfl
@[simp] theorem accepted_host (s : State) (code : BitVec 4) : (s.accepted code).host = s.host := rfl
@[simp] theorem accepted_hostReads (s : State) (code : BitVec 4) : (s.accepted code).hostReads = s.hostReads := rfl
@[simp] theorem accepted_faultLog (s : State) (code : BitVec 4) : (s.accepted code).faultLog = s.faultLog := rfl

/-! ### `turnedAway` -/

@[simp] theorem turnedAway_cfg (s : State) (code : BitVec 4) (f : BitVec 3) : (s.turnedAway code f).cfg = s.cfg := rfl
@[simp] theorem turnedAway_args (s : State) (code : BitVec 4) (f : BitVec 3) : (s.turnedAway code f).args = s.args := rfl
@[simp] theorem turnedAway_op (s : State) (code : BitVec 4) (f : BitVec 3) : (s.turnedAway code f).op = code := rfl
@[simp] theorem turnedAway_busy (s : State) (code : BitVec 4) (f : BitVec 3) : (s.turnedAway code f).busy = false := rfl
@[simp] theorem turnedAway_done (s : State) (code : BitVec 4) (f : BitVec 3) : (s.turnedAway code f).done = false := rfl
@[simp] theorem turnedAway_fault (s : State) (code : BitVec 4) (f : BitVec 3) : (s.turnedAway code f).fault = f := rfl
@[simp] theorem turnedAway_xs (s : State) (code : BitVec 4) (f : BitVec 3) : (s.turnedAway code f).xs = s.xs := rfl
@[simp] theorem turnedAway_ys (s : State) (code : BitVec 4) (f : BitVec 3) : (s.turnedAway code f).ys = s.ys := rfl
@[simp] theorem turnedAway_xe (s : State) (code : BitVec 4) (f : BitVec 3) : (s.turnedAway code f).xe = s.xe := rfl
@[simp] theorem turnedAway_ye (s : State) (code : BitVec 4) (f : BitVec 3) : (s.turnedAway code f).ye = s.ye := rfl
@[simp] theorem turnedAway_color (s : State) (code : BitVec 4) (f : BitVec 3) : (s.turnedAway code f).color = s.color := rfl
@[simp] theorem turnedAway_pixcnt (s : State) (code : BitVec 4) (f : BitVec 3) : (s.turnedAway code f).pixcnt = s.pixcnt := rfl
@[simp] theorem turnedAway_opc (s : State) (code : BitVec 4) (f : BitVec 3) : (s.turnedAway code f).opc = s.opc := rfl
@[simp] theorem turnedAway_len (s : State) (code : BitVec 4) (f : BitVec 3) : (s.turnedAway code f).len = s.len := rfl
@[simp] theorem turnedAway_dlyv (s : State) (code : BitVec 4) (f : BitVec 3) : (s.turnedAway code f).dlyv = s.dlyv := rfl
@[simp] theorem turnedAway_src (s : State) (code : BitVec 4) (f : BitVec 3) : (s.turnedAway code f).src = s.src := rfl
@[simp] theorem turnedAway_sp (s : State) (code : BitVec 4) (f : BitVec 3) : (s.turnedAway code f).sp = s.sp := rfl
@[simp] theorem turnedAway_mode (s : State) (code : BitVec 4) (f : BitVec 3) : (s.turnedAway code f).mode = s.mode := rfl
@[simp] theorem turnedAway_stg (s : State) (code : BitVec 4) (f : BitVec 3) : (s.turnedAway code f).stg = s.stg := rfl
@[simp] theorem turnedAway_ph (s : State) (code : BitVec 4) (f : BitVec 3) : (s.turnedAway code f).ph = .idle := rfl
@[simp] theorem turnedAway_ext (s : State) (code : BitVec 4) (f : BitVec 3) : (s.turnedAway code f).ext = s.ext := rfl
@[simp] theorem turnedAway_extStale (s : State) (code : BitVec 4) (f : BitVec 3) : (s.turnedAway code f).extStale = s.extStale := rfl
@[simp] theorem turnedAway_extRaces (s : State) (code : BitVec 4) (f : BitVec 3) : (s.turnedAway code f).extRaces = s.extRaces := rfl
@[simp] theorem turnedAway_trace (s : State) (code : BitVec 4) (f : BitVec 3) : (s.turnedAway code f).trace = s.trace := rfl
@[simp] theorem turnedAway_answers (s : State) (code : BitVec 4) (f : BitVec 3) : (s.turnedAway code f).answers = s.answers := rfl
@[simp] theorem turnedAway_host (s : State) (code : BitVec 4) (f : BitVec 3) : (s.turnedAway code f).host = s.host := rfl
@[simp] theorem turnedAway_hostReads (s : State) (code : BitVec 4) (f : BitVec 3) : (s.turnedAway code f).hostReads = s.hostReads := rfl
@[simp] theorem turnedAway_faultLog (s : State) (code : BitVec 4) (f : BitVec 3) : (s.turnedAway code f).faultLog = s.faultLog ++ [f] := rfl

/-! ### `scramble` -/

@[simp] theorem scramble_cfg (r : Residue) (s : State) : (s.scramble r).cfg = s.cfg := rfl
@[simp] theorem scramble_args (r : Residue) (s : State) : (s.scramble r).args = s.args := rfl
@[simp] theorem scramble_op (r : Residue) (s : State) : (s.scramble r).op = s.op := rfl
@[simp] theorem scramble_busy (r : Residue) (s : State) : (s.scramble r).busy = s.busy := rfl
@[simp] theorem scramble_done (r : Residue) (s : State) : (s.scramble r).done = s.done := rfl
@[simp] theorem scramble_fault (r : Residue) (s : State) : (s.scramble r).fault = s.fault := rfl
@[simp] theorem scramble_xs (r : Residue) (s : State) : (s.scramble r).xs = r.xs := rfl
@[simp] theorem scramble_ys (r : Residue) (s : State) : (s.scramble r).ys = r.ys := rfl
@[simp] theorem scramble_xe (r : Residue) (s : State) : (s.scramble r).xe = r.xe := rfl
@[simp] theorem scramble_ye (r : Residue) (s : State) : (s.scramble r).ye = r.ye := rfl
@[simp] theorem scramble_color (r : Residue) (s : State) : (s.scramble r).color = r.color := rfl
@[simp] theorem scramble_pixcnt (r : Residue) (s : State) : (s.scramble r).pixcnt = r.pixcnt := rfl
@[simp] theorem scramble_opc (r : Residue) (s : State) : (s.scramble r).opc = r.opc := rfl
@[simp] theorem scramble_len (r : Residue) (s : State) : (s.scramble r).len = r.len := rfl
@[simp] theorem scramble_dlyv (r : Residue) (s : State) : (s.scramble r).dlyv = r.dlyv := rfl
@[simp] theorem scramble_src (r : Residue) (s : State) : (s.scramble r).src = r.src := rfl
@[simp] theorem scramble_sp (r : Residue) (s : State) : (s.scramble r).sp = r.sp := rfl
@[simp] theorem scramble_mode (r : Residue) (s : State) : (s.scramble r).mode = r.mode := rfl
@[simp] theorem scramble_stg (r : Residue) (s : State) : (s.scramble r).stg = r.stg := rfl
@[simp] theorem scramble_ph (r : Residue) (s : State) : (s.scramble r).ph = s.ph := rfl
@[simp] theorem scramble_ext (r : Residue) (s : State) : (s.scramble r).ext = s.ext := rfl
@[simp] theorem scramble_extStale (r : Residue) (s : State) : (s.scramble r).extStale = s.extStale := rfl
@[simp] theorem scramble_extRaces (r : Residue) (s : State) : (s.scramble r).extRaces = s.extRaces := rfl
@[simp] theorem scramble_trace (r : Residue) (s : State) : (s.scramble r).trace = s.trace := rfl
@[simp] theorem scramble_answers (r : Residue) (s : State) : (s.scramble r).answers = s.answers := rfl
@[simp] theorem scramble_host (r : Residue) (s : State) : (s.scramble r).host = s.host := rfl
@[simp] theorem scramble_hostReads (r : Residue) (s : State) : (s.scramble r).hostReads = s.hostReads := rfl
@[simp] theorem scramble_faultLog (r : Residue) (s : State) : (s.scramble r).faultLog = s.faultLog := rfl

end Sys2Proof.Machine
end

