-- ==== Sys2Proof/Laws/Ops.lean ====
section
/-! SUPPORT. One lemma per shared operation that says once what it can do: the examination of a request, the transport
port, and runs of steps. -/

namespace Sys2Proof.Machine

/-! ### Requests (R31, R32) -/

/-- The three ways a write of an operation code to `OPREG` ends: ignored, or examined by its own cases with `OP` set. -/
theorem request_cases (code : BitVec 4) (act : State → State) (s : State) :
    (s.busy = true ∧ request code act s = s) ∨
    (s.busy = false ∧ s.fault = faultTransportError ∧ code ≠ 1 ∧ request code act s = s) ∨
    (s.busy = false ∧ (s.fault = faultTransportError → code = 1) ∧
      request code act s = act { s with op := code }) := by
  unfold request
  by_cases hb : s.busy = true
  · exact .inl ⟨hb, by simp [hb]⟩
  · have hb' : s.busy = false := by simpa using hb
    by_cases h : s.fault = faultTransportError ∧ code ≠ 1
    · exact .inr (.inl ⟨hb', h.1, h.2, by rw [if_neg hb, if_pos h]⟩)
    · refine .inr (.inr ⟨hb', fun hf => ?_, by rw [if_neg hb, if_neg h]⟩)
      by_contra hc
      exact h ⟨hf, hc⟩

theorem request_of_busy {s : State} (h : s.busy = true) (code : BitVec 4) (act : State → State) :
    request code act s = s := by
  simp [request, h]

/-- An idle block with no TransportError latched examines every request. -/
theorem request_of_ready {s : State} (h : s.ready) (code : BitVec 4) (act : State → State) :
    request code act s = act { s with op := code } := by
  rw [request, if_neg (by simp [h.1]), if_neg (fun hf => h.2 hf.1)]

/-- An idle block examines a request for INIT, whatever is latched. -/
theorem request_init {s : State} (h : s.busy = false) (act : State → State) :
    request 1 act s = act { s with op := 1 } := by
  simp [request, h]

theorem accept_request (s : State) (code : BitVec 4) : accept { s with op := code } = s.accepted code := rfl

theorem reject_request (s : State) (code : BitVec 4) (f : BitVec 3) :
    reject f { s with op := code } = s.turnedAway code f := rfl

/-- Acceptance under a geometry check accepts, or raises InvalidRegion (R182). -/
theorem acceptIf_op (s : State) (code : BitVec 4) (inside : Bool) :
    acceptIf inside { s with op := code } =
      if s.cfg.geomCheck = true ∧ inside = false then s.turnedAway code faultInvalidRegion else s.accepted code := by
  unfold acceptIf
  rcases hg : s.cfg.geomCheck <;> rcases inside <;> simp only [Bool.not_false, Bool.not_true, Bool.and_false, Bool.and_true,
    Bool.false_eq_true, if_false, if_true, and_true, and_false, reduceCtorEq, accept_request, reject_request]

/-! ### The transport port (R12, R186) -/

theorem nextAnswer_of_not_terr {s : State} (h : s.cfg.terr = false) : s.nextAnswer = .ok := by
  simp [State.nextAnswer, h]

theorem answersOk_of_not_terr {s : State} (h : s.cfg.terr = false) (m : Nat) : s.answersOk m := by
  simp [State.answersOk, h]

theorem answersOk_mono {s : State} {m n : Nat} (h : s.answersOk n) (hmn : m ≤ n) : s.answersOk m := by
  intro ht
  have := congrArg (List.take m) (h ht)
  simpa [List.take_take, List.take_replicate, Nat.min_eq_left hmn] using this

theorem nextAnswer_of_answersOk {s : State} {m : Nat} (h : s.answersOk m) (hm : 0 < m) : s.nextAnswer = .ok := by
  unfold State.nextAnswer
  split
  · rename_i ht
    have h1 := answersOk_mono h hm ht
    cases hs : s.answers with
    | nil => simp [hs] at h1
    | cons a rest => simpa [hs] using h1
  · rfl

/-- The two ways an emission ends: the step goes on, or TransportError is raised. -/
theorem emit_cases (t : Txn) (after : State → State) (s : State) :
    (s.nextAnswer = .ok ∧ emit t after s = after (s.afterTxns [t])) ∨
    (s.nextAnswer = .fail ∧ s.cfg.terr = true ∧ emit t after s = raiseFault faultTransportError (record t s)) := by
  unfold emit
  cases h : s.nextAnswer with
  | ok =>
    refine .inl ⟨rfl, ?_⟩
    simp [record, State.afterTxns, h]
  | fail =>
    refine .inr ⟨rfl, ?_, rfl⟩
    by_contra ht
    simp [State.nextAnswer, ht] at h

/-- An emission whose answer is `ok`. -/
theorem emit_ok {s : State} (h : s.answersOk 1) (t : Txn) (after : State → State) :
    emit t after s = after (s.afterTxns [t]) := by
  rcases emit_cases t after s with ⟨_, h2⟩ | ⟨h1, _⟩
  · exact h2
  · rw [nextAnswer_of_answersOk h Nat.one_pos] at h1
    cases h1

/-- An emission whose answer is `fail`. -/
theorem emit_fail {s : State} (h : s.nextAnswer = .fail) (t : Txn) (after : State → State) :
    emit t after s = raiseFault faultTransportError (record t s) := by
  rcases emit_cases t after s with ⟨h1, _⟩ | ⟨_, _, h2⟩
  · rw [h] at h1
    cases h1
  · exact h2

@[simp] theorem afterTxns_nil (s : State) : s.afterTxns [] = s := by
  simp [State.afterTxns]

theorem afterTxns_append (s : State) (ts us : List Txn) :
    (s.afterTxns ts).afterTxns us = s.afterTxns (ts ++ us) := by
  rcases h : s.cfg.terr <;> simp [State.afterTxns, h, List.drop_drop]

theorem answersOk_afterTxns {s : State} {ts : List Txn} {n : Nat} (h : s.answersOk (ts.length + n)) :
    (s.afterTxns ts).answersOk n := by
  intro ht
  have ht' : s.cfg.terr = true := ht
  have := congrArg (List.drop ts.length) (h ht')
  simpa [State.afterTxns, ht', List.drop_take, List.drop_replicate] using this

/-! ### Runs -/

theorem runSteps_succ {s t : State} (h : step s = .next t) (n : Nat) : runSteps (n + 1) s = runSteps n t := by
  rw [runSteps, h]

/-- A run goes on from where its first part ends. -/
theorem runSteps_add {s t : State} {m : Nat} (h : runSteps m s = .next t) (n : Nat) :
    runSteps (m + n) s = runSteps n t := by
  induction m generalizing s with
  | zero =>
    rw [runSteps] at h
    cases h
    simp
  | succ m ih =>
    rw [Nat.succ_add, runSteps]
    rw [runSteps] at h
    cases hs : step s with
    | next u =>
      rw [hs] at h
      exact ih h
    | fault f =>
      rw [hs] at h
      cases h
    | refused r =>
      rw [hs] at h
      cases h

/-- Two runs one after the other. -/
theorem runSteps_trans {s t u : State} {m n : Nat} (h : runSteps m s = .next t) (h' : runSteps n t = .next u) :
    runSteps (m + n) s = .next u := by
  rw [runSteps_add h, h']

/-- With no host move to come the step is the block's. -/
theorem step_of_quiet {s : State} (h : s.host = []) : step s = blockStep s := by
  simp [step, h]

end Sys2Proof.Machine
end

