-- ==== Sys2Proof/Laws/Step.lean ====
section
/-! SUPPORT. What the meanings, a step of the block and a step of the machine can do, said once: later proofs cite these
instead of unfolding the definitions. -/

namespace Sys2Proof.Machine

/-! ### The meanings -/

/-- A command instruction fetches the header of its record (R35, R115). -/
theorem exec_of_toDesc {i : Instr} {s : State} {d : Desc} (h : i.toDesc s.cfg = some d) :
    exec i s = .next (fetchCommand d.opcode d.delay d.payload s) := by
  cases i <;> simp only [Instr.toDesc, Option.some.injEq, reduceCtorEq] at h <;> subst h <;> rfl

/-- An instruction of format H is a request of its code, that ends by acceptance, by acceptance under the geometry check,
or by IllegalOp (R32). -/
theorem exec_of_opCode {i : Instr} {s : State} {code : BitVec 4} (h : i.opCode = some code) :
    ∃ act, exec i s = .next (request code act s) ∧
      ((act = accept ∧ 1 ≤ code.toNat ∧ code.toNat ≤ 9) ∨
        (act = reject faultIllegalOp ∧ (code.toNat = 0 ∨ 10 ≤ code.toNat)) ∨
        ∃ inside, act = acceptIf inside ∧ 1 ≤ code.toNat ∧ code.toNat ≤ 9) := by
  cases i <;> simp only [Instr.opCode, Option.some.injEq, reduceCtorEq] at h <;> subst h
  case setwin => exact ⟨_, rfl, .inr (.inr ⟨_, rfl, by decide⟩)⟩
  case fill => exact ⟨_, rfl, .inr (.inr ⟨_, rfl, by decide⟩)⟩
  all_goals first
    | exact ⟨accept, rfl, .inl ⟨rfl, by decide⟩⟩
    | exact ⟨reject faultIllegalOp, rfl, .inr (.inl ⟨rfl, by decide⟩)⟩

/-- Every instruction is a request, the sentinel, or a command of some record. -/
theorem instr_cases (c : Config) (i : Instr) :
    (∃ code, i.opCode = some code) ∨ i = .sentinel ∨ ∃ d, i.toDesc c = some d := by
  cases i <;> simp [Instr.opCode, Instr.toDesc]

theorem decodeOp_opCode (v : U16) : (decodeOp v).opCode = some (v.extractLsb' 0 4) := by
  have h : ∀ c : BitVec 4, (decodeOp (c.setWidth 16)).opCode = some c := by decide
  have e : decodeOp v = decodeOp ((v.extractLsb' 0 4).setWidth 16) := by
    unfold decodeOp
    congr 2
    ext i hi
    simp [hi]
    omega
  rw [e, h]

/-- What a request that was examined leaves (R32 (b), (c), (d)). -/
theorem request_state {s t : State} {i : Instr} {code : BitVec 4} (hc : i.opCode = some code)
    (h : exec i s = .next t) :
    t = s ∨ (s.busy = false ∧ ((t = s.accepted code ∧ 1 ≤ code.toNat ∧ code.toNat ≤ 9) ∨
      (t = s.turnedAway code faultIllegalOp ∧ (code.toNat = 0 ∨ 10 ≤ code.toNat)) ∨
      (s.cfg.geomCheck = true ∧ t = s.turnedAway code faultInvalidRegion))) := by
  obtain ⟨act, he, hact⟩ := exec_of_opCode (s := s) hc
  rw [he] at h
  cases h
  rcases request_cases code act s with ⟨_, hr⟩ | ⟨_, _, _, hr⟩ | ⟨hb, _, hr⟩
  · exact .inl hr
  · exact .inl hr
  · refine .inr ⟨hb, ?_⟩
    rw [hr]
    rcases hact with ⟨rfl, hc⟩ | ⟨rfl, hc⟩ | ⟨inside, rfl, hc⟩
    · exact .inl ⟨accept_request s code, hc⟩
    · exact .inr (.inl ⟨reject_request s code _, hc⟩)
    · rw [acceptIf_op]
      split
      · rename_i hg
        exact .inr (.inr ⟨hg.1, rfl⟩)
      · exact .inl ⟨rfl, hc⟩

/-! ### A step of the block -/

/-- What a step of the block does in each phase (R34 to R40). -/
theorem blockStep_cases {s t : State} (h : blockStep s = .next t) :
    (s.ph = .idle ∧ t = s) ∨
    (s.ph = .dispatch ∧ ∃ ops, s.microOps = some ops ∧
      ((∃ u, ops[s.stg.toNat]? = some u ∧ t = runMicroOp u s) ∨ (s.stg.toNat = ops.length ∧ t = complete s))) ∨
    (s.ph = .fetch ∧
      ((s.byteAt s.src s.sp 0 = .ok s.cfg.opEnd ∧ t = fetchSentinel s) ∨
      ∃ d : Desc, d.wf s.cfg = true ∧ (∀ k b, d.enc[k]? = some b → s.byteAt s.src s.sp k = .ok b) ∧
        t = { s with opc := d.opcode, len := BitVec.ofNat 8 d.payload.length, dlyv := d.delay, ph := .cmd })) ∨
    (s.ph = .cmd ∧ t = emit (.tCmd s.opc) afterCommand s) ∨
    (s.ph = .data ∧ ∃ bs, s.payload = .ok bs ∧ t = emit (.tData bs) afterPayload s) ∨
    (s.ph = .dly ∧ t = emit (.tDelay s.dlyv) (fun u => { u with ph := .adv }) s) ∨
    (s.ph = .adv ∧ ((s.mode = .one ∧ t = endMicroOp s) ∨
      (s.mode = .run ∧ t = { s with sp := nextSp s.sp s.len, ph := .fetch }))) ∨
    (s.ph = .pix ∧ ((s.pixcnt = 0 ∧ t = endMicroOp s) ∨
      (s.pixcnt ≠ 0 ∧ t = emit (.tData (pixelBytes s.color (burst s.cfg s.pixcnt)))
        (fun u => { u with pixcnt := u.pixcnt - BitVec.ofNat 32 (burst u.cfg u.pixcnt) }) s))) := by
  unfold blockStep at h
  cases hp : s.ph <;> rw [hp] at h <;> simp only at h
  · exact .inl ⟨rfl, (Host.Outcome.next.inj h).symm⟩
  · refine .inr (.inl ⟨rfl, ?_⟩)
    unfold phaseDispatch at h
    split at h
    · cases h
    · rename_i ops ho
      refine ⟨ops, ho, ?_⟩
      split at h
      · rename_i u hu
        exact .inl ⟨u, hu, (Host.Outcome.next.inj h).symm⟩
      · split at h
        · rename_i hl
          exact .inr ⟨hl, (Host.Outcome.next.inj h).symm⟩
        · cases h
  · refine .inr (.inr (.inl ⟨rfl, ?_⟩))
    split at h
    · rename_i i hi
      rcases decodeWith_inv hi with ⟨rfl, hb⟩ | ⟨d, hd, rfl, hb⟩
      · exact .inl ⟨hb, (Host.Outcome.next.inj h).symm⟩
      · refine .inr ⟨d, hd, hb, ?_⟩
        rw [exec_of_toDesc (classify_toDesc ..)] at h
        simp only [Desc.wf, Bool.and_eq_true, bne_iff_ne, ne_eq] at hd
        rw [fetchCommand, if_neg hd.1] at h
        exact (Host.Outcome.next.inj h).symm
    · cases h
  · exact .inr (.inr (.inr (.inl ⟨rfl, (Host.Outcome.next.inj h).symm⟩)))
  · refine .inr (.inr (.inr (.inr (.inl ⟨rfl, ?_⟩))))
    unfold phaseData at h
    split at h
    · cases h
    · rename_i bs hbs
      exact ⟨bs, hbs, (Host.Outcome.next.inj h).symm⟩
  · exact .inr (.inr (.inr (.inr (.inr (.inl ⟨rfl, (Host.Outcome.next.inj h).symm⟩)))))
  · refine .inr (.inr (.inr (.inr (.inr (.inr (.inl ⟨rfl, ?_⟩))))))
    unfold phaseAdv at h
    split at h
    · rename_i hm
      exact .inl ⟨hm, (Host.Outcome.next.inj h).symm⟩
    · rename_i hm
      exact .inr ⟨hm, (Host.Outcome.next.inj h).symm⟩
  · refine .inr (.inr (.inr (.inr (.inr (.inr (.inr ⟨rfl, ?_⟩))))))
    unfold phasePix at h
    split at h
    · rename_i hz
      exact .inl ⟨hz, (Host.Outcome.next.inj h).symm⟩
    · rename_i hz
      exact .inr ⟨hz, (Host.Outcome.next.inj h).symm⟩

/-- The header of a descriptor is fetched from a space that holds its bytes (R35). -/
theorem blockStep_fetch_enc {s : State} {d : Desc} (hp : s.ph = .fetch) (hd : d.wf s.cfg = true)
    (h : ∀ k b, d.enc[k]? = some b → s.byteAt s.src s.sp k = .ok b) :
    blockStep s = .next
      { s with opc := d.opcode, len := BitVec.ofNat 8 d.payload.length, dlyv := d.delay, ph := .cmd } := by
  unfold blockStep
  rw [hp]
  simp only [State.descriptorAt, decodeWith_enc hd h, exec_of_toDesc (classify_toDesc ..)]
  simp only [Desc.wf, Bool.and_eq_true, bne_iff_ne, ne_eq] at hd
  rw [fetchCommand, if_neg hd.1]

/-- The sentinel is fetched from a space that holds it (R35). -/
theorem blockStep_fetch_sentinel {s : State} (hp : s.ph = .fetch) (h : s.byteAt s.src s.sp 0 = .ok s.cfg.opEnd) :
    blockStep s = .next (fetchSentinel s) := by
  unfold blockStep
  rw [hp]
  simp only [State.descriptorAt, decodeWith_sentinel h]
  rfl

/-! ### A step of the machine -/

/-- A step is a step of the block, when the host has no move to come, waits for a busy block, or leaves the step to it; or
it is a host move. -/
theorem step_cases {s t : State} (h : step s = .next t) :
    (∃ rest, (s.host = [] ∧ rest = [] ∨ (∃ more, s.host = .awaitIdle :: more ∧ rest = s.host ∧ s.busy = true) ∨
        s.host = .pass :: rest) ∧
      blockStep { s with host := rest } = .next t) ∨
    (∃ m rest, s.host = m :: rest ∧ m ≠ .pass ∧ (m = .awaitIdle → s.busy = false) ∧
      hostStep m { s with host := rest } = .next t) := by
  unfold step at h
  split at h
  · rename_i hh
    exact .inl ⟨s.host, .inl ⟨hh, hh⟩, h⟩
  · rename_i rest hh
    split at h
    · rename_i hb
      exact .inl ⟨s.host, .inr (.inl ⟨rest, hh, rfl, hb⟩), h⟩
    · rename_i hb
      exact .inr ⟨_, rest, hh, by simp, fun _ => by simpa using hb, h⟩
  · rename_i m rest hw hh
    by_cases hm : m = .pass
    · subst hm
      exact .inl ⟨rest, .inr (.inr hh), h⟩
    · exact .inr ⟨m, rest, hh, hm, fun ha => absurd ha hw, h⟩

end Sys2Proof.Machine
end

