-- ==== Sys2Proof/Laws/Phases.lean ====
section
/-! SUPPORT. One lemma per phase and per way its step can go when no host move is to come and the transport answers `ok`
(R34 to R40), in the form in which runs are composed: the next state is a record update, then `afterTxns`. -/

namespace Sys2Proof.Machine

/-! ### What the spaces hold -/

/-- A byte of a space depends on the configuration, the window registers and `EXT` only, as long as no store has raced. -/
theorem byteAt_congr {s t : State} (hc : t.cfg = s.cfg) (h1 : t.xs = s.xs) (h2 : t.ys = s.ys) (h3 : t.xe = s.xe)
    (h4 : t.ye = s.ye) (he : t.ext = s.ext) (hs : s.extStale = []) (ht : t.extStale = []) (space : Space) (base : U16)
    (off : Nat) : t.byteAt space base off = s.byteAt space base off := by
  cases space <;>
    simp only [State.byteAt, hc, h1, h2, h3, h4, extByte_of_noStale hs, extByte_of_noStale ht, he]

/-- A byte of `EXT`, addressed modulo its size (R55, R56). -/
theorem byteAt_ext {s : State} (h : s.extStale = []) (base : U16) (k : Nat) :
    s.byteAt .ext base k = .ok (s.ext.read ((base.toNat + k) % 2 ^ s.cfg.seqAw)) := by
  simp [State.byteAt, extByte_of_noStale h]

/-- The micro-operations depend on `OP`, the configuration and the arguments only (R33). -/
theorem microOps_congr {s t : State} (h1 : t.op = s.op) (h2 : t.cfg = s.cfg) (h3 : t.args = s.args) :
    t.microOps = s.microOps := by
  simp only [State.microOps, State.arg, h1, h2, h3]

/-! ### Phase DISPATCH (R34) -/

theorem step_dispatch {s : State} {ops : List MicroOp} {u : MicroOp} (hh : s.host = []) (hp : s.ph = .dispatch)
    (ho : s.microOps = some ops) (hu : ops[s.stg.toNat]? = some u) : step s = .next (runMicroOp u s) := by
  rw [step_of_quiet hh]
  simp [blockStep, hp, phaseDispatch, ho, hu]

theorem step_complete {s : State} {ops : List MicroOp} (hh : s.host = []) (hp : s.ph = .dispatch)
    (ho : s.microOps = some ops) (hu : s.stg.toNat = ops.length) :
    step s = .next { s with busy := false, done := true, ph := .idle } := by
  rw [step_of_quiet hh]
  simp [blockStep, hp, phaseDispatch, ho, hu, complete, completeFlags]

/-! ### Phases CMD, DATA, DLY, ADV (R36 to R39) -/

theorem step_emit {s : State} {t : Txn} {f : State → State} (hh : s.host = []) (hb : blockStep s = .next (emit t f s))
    (ha : s.answersOk 1) : step s = .next (f (s.afterTxns [t])) := by
  rw [step_of_quiet hh, hb, emit_ok ha]

/-- After the payload, or where there is none, the delay if there is one. -/
theorem afterPayload_eq (s : State) :
    afterPayload s = if s.dlyv = 0 then { s with ph := .adv } else { s with ph := .dly } := by
  unfold afterPayload
  split <;> rfl

theorem step_cmd_data {s : State} (hh : s.host = []) (hp : s.ph = .cmd) (ha : s.answersOk 1) (hl : s.len ≠ 0) :
    step s = .next ({ s with ph := .data }.afterTxns [.tCmd s.opc]) :=
  (step_emit hh (t := .tCmd s.opc) (f := afterCommand) (by simp [blockStep, hp, phaseCmd]) ha).trans
    (congrArg _ (if_neg hl))

theorem step_cmd_dly {s : State} (hh : s.host = []) (hp : s.ph = .cmd) (ha : s.answersOk 1) (hl : s.len = 0)
    (hd : s.dlyv ≠ 0) : step s = .next ({ s with ph := .dly }.afterTxns [.tCmd s.opc]) :=
  (step_emit hh (t := .tCmd s.opc) (f := afterCommand) (by simp [blockStep, hp, phaseCmd]) ha).trans
    (congrArg _ ((if_pos hl).trans ((afterPayload_eq _).trans (if_neg hd))))

theorem step_cmd_adv {s : State} (hh : s.host = []) (hp : s.ph = .cmd) (ha : s.answersOk 1) (hl : s.len = 0)
    (hd : s.dlyv = 0) : step s = .next ({ s with ph := .adv }.afterTxns [.tCmd s.opc]) :=
  (step_emit hh (t := .tCmd s.opc) (f := afterCommand) (by simp [blockStep, hp, phaseCmd]) ha).trans
    (congrArg _ ((if_pos hl).trans ((afterPayload_eq _).trans (if_pos hd))))

theorem step_data_dly {s : State} {bs : List Byte} (hh : s.host = []) (hp : s.ph = .data) (ha : s.answersOk 1)
    (hb : s.payload = .ok bs) (hd : s.dlyv ≠ 0) : step s = .next ({ s with ph := .dly }.afterTxns [.tData bs]) :=
  (step_emit hh (t := .tData bs) (f := afterPayload) (by simp [blockStep, hp, phaseData, hb]) ha).trans
    (congrArg _ ((afterPayload_eq _).trans (if_neg hd)))

theorem step_data_adv {s : State} {bs : List Byte} (hh : s.host = []) (hp : s.ph = .data) (ha : s.answersOk 1)
    (hb : s.payload = .ok bs) (hd : s.dlyv = 0) : step s = .next ({ s with ph := .adv }.afterTxns [.tData bs]) :=
  (step_emit hh (t := .tData bs) (f := afterPayload) (by simp [blockStep, hp, phaseData, hb]) ha).trans
    (congrArg _ ((afterPayload_eq _).trans (if_pos hd)))

theorem step_dly_adv {s : State} (hh : s.host = []) (hp : s.ph = .dly) (ha : s.answersOk 1) :
    step s = .next ({ s with ph := .adv }.afterTxns [.tDelay s.dlyv]) :=
  step_emit hh (t := .tDelay s.dlyv) (f := fun t => { t with ph := .adv }) (by simp [blockStep, hp, phaseDly]) ha

theorem step_adv_run {s : State} (hh : s.host = []) (hp : s.ph = .adv) (hm : s.mode = .run) :
    step s = .next { s with sp := nextSp s.sp s.len, ph := .fetch } := by
  rw [step_of_quiet hh]
  simp [blockStep, hp, phaseAdv, hm]

theorem step_adv_one {s : State} (hh : s.host = []) (hp : s.ph = .adv) (hm : s.mode = .one) :
    step s = .next { s with stg := s.stg + 1, ph := .dispatch } := by
  rw [step_of_quiet hh]
  simp [blockStep, hp, phaseAdv, hm, endMicroOp]

/-! ### Phase PIX (R40) -/

theorem step_pix {s : State} (hh : s.host = []) (hp : s.ph = .pix) (hn : s.pixcnt ≠ 0) (ha : s.answersOk 1) :
    step s = .next ({ s with pixcnt := s.pixcnt - BitVec.ofNat 32 (burst s.cfg s.pixcnt) }.afterTxns
      [.tData (pixelBytes s.color (burst s.cfg s.pixcnt))]) :=
  step_emit hh (t := .tData (pixelBytes s.color (burst s.cfg s.pixcnt)))
    (f := fun t => { t with pixcnt := t.pixcnt - BitVec.ofNat 32 (burst t.cfg t.pixcnt) })
    (by simp only [blockStep, hp, phasePix, hn, if_false]) ha

theorem step_pix_end {s : State} (hh : s.host = []) (hp : s.ph = .pix) (hz : s.pixcnt = 0) :
    step s = .next { s with pixcnt := 0, stg := s.stg + 1, ph := .dispatch } := by
  rw [step_of_quiet hh]
  simp [blockStep, hp, phasePix, hz, endMicroOp]

/-- The bytes of a pixel transaction (R40, R90). -/
theorem pixelBytes_spec (c : U16) (k : Nat) :
    (pixelBytes c k).length = 2 * k ∧
      ∀ j, j < k → (pixelBytes c k)[2 * j]? = some (hi8 c) ∧ (pixelBytes c k)[2 * j + 1]? = some (lo8 c) := by
  induction k with
  | zero => simp [pixelBytes]
  | succ k ih =>
    have e : pixelBytes c (k + 1) = hi8 c :: lo8 c :: pixelBytes c k := by
      simp [pixelBytes, List.replicate_succ, pix]
    rw [e]
    refine ⟨by simp [ih.1]; omega, fun j hj => ?_⟩
    cases j with
    | zero => simp
    | succ j =>
      rw [show 2 * (j + 1) = 2 * j + 1 + 1 by omega]
      simpa using ih.2 j (by omega)

/-- The exact product of two 16-bit sizes fits `PIXCNT` (R25, R162 (b)). -/
theorem pixelCount_toNat (w h : U16) : (pixelCount w h).toNat = w.toNat * h.toNat := by
  simp only [pixelCount, BitVec.toNat_ofNat]
  apply Nat.mod_eq_of_lt
  have := w.isLt
  have := h.isLt
  calc
    w.toNat * h.toNat ≤ (2 ^ 16 - 1) * (2 ^ 16 - 1) := Nat.mul_le_mul (by omega) (by omega)
    _ < 2 ^ 32 := by norm_num

theorem nextSp_toNat (sp : U16) (len : Byte) : (nextSp sp len).toNat = (sp.toNat + 6 + len.toNat) % 2 ^ 16 := by
  simp [nextSp]

/-- `SP` after a descriptor is `SP` plus the descriptor's length (R29, R86). -/
theorem nextSp_enc (sp : U16) {c : Config} {d : Desc} (hd : d.wf c = true) :
    nextSp sp (BitVec.ofNat 8 d.payload.length) = sp + BitVec.ofNat 16 d.enc.length := by
  simp only [Desc.wf, Bool.and_eq_true, bne_iff_ne, ne_eq, decide_eq_true_eq] at hd
  apply BitVec.eq_of_toNat_eq
  simp [nextSp]
  omega

end Sys2Proof.Machine
end

