-- ==== Sys2Proof/Laws/Effects.lean ====
section
/-! SUPPORT. What a step can do to the things outside the datapath: the trace, the record of faults, the configuration, the
arguments, the memory, the host and the record of racing stores. -/

namespace Sys2Proof.Machine

/-- What an emission and what follows it in the step do there (R12, R186). -/
theorem emit_effect (e : Txn) (f : State → State) (s : State)
    (hf : ∀ u, (f u).trace = u.trace ∧ (f u).faultLog = u.faultLog ∧ (f u).cfg = u.cfg ∧ (f u).args = u.args ∧
      (f u).ext = u.ext) :
    (∃ a, (emit e f s).trace = s.trace ++ [⟨e, a⟩]) ∧
    ((emit e f s).faultLog = s.faultLog ∨
      (s.cfg.terr = true ∧ (emit e f s).faultLog = s.faultLog ++ [2] ∧ (emit e f s).fault = 2 ∧
        (emit e f s).busy = false ∧ (emit e f s).done = false ∧ (emit e f s).ph = .idle)) ∧
    (emit e f s).cfg = s.cfg ∧ (emit e f s).args = s.args ∧ (emit e f s).ext = s.ext := by
  rcases emit_cases e f s with ⟨h, h2⟩ | ⟨h, ht, h2⟩ <;> rw [h2]
  · obtain ⟨a, b, c, d, g⟩ := hf (s.afterTxns [e])
    exact ⟨⟨.ok, by rw [a]; rfl⟩, .inl (by rw [b]; rfl), by rw [c]; rfl, by rw [d]; rfl, by rw [g]; rfl⟩
  · exact ⟨⟨_, rfl⟩, .inr ⟨ht, rfl, rfl, rfl, rfl, rfl⟩, rfl, rfl, rfl⟩

/-- A phase that presents a transaction emits it (R34, R36, R37, R38, R40). -/
theorem blockStep_of_outstanding {s : State} {t : Txn} (h : s.outstanding = some t) :
    ∃ f, blockStep s = .next (emit t f s) := by
  unfold State.outstanding at h
  unfold blockStep
  split at h
  · rename_i hp
    rw [hp]
    split at h
    · rename_i ops ho
      split at h
      · rename_i hu
        cases h
        exact ⟨_, by simp [phaseDispatch, ho, hu, runMicroOp]; rfl⟩
      · cases h
    · cases h
  · rename_i hp
    cases h
    rw [hp]
    exact ⟨_, rfl⟩
  · rename_i hp
    rw [hp]
    split at h
    · rename_i bs hb
      cases h
      exact ⟨afterPayload, by simp [phaseData, hb]⟩
    · cases h
  · rename_i hp
    cases h
    rw [hp]
    exact ⟨_, rfl⟩
  · rename_i hp
    split at h
    · cases h
    · rename_i hn
      cases h
      rw [hp]
      exact ⟨_, by simp only [phasePix, hn, if_false]; rfl⟩
  all_goals cases h

/-- What a step of the block does outside the datapath. -/
theorem blockStep_effect {s t : State} (h : blockStep s = .next t) :
    (t.trace = s.trace ∨ ∃ e a, s.outstanding = some e ∧ t.trace = s.trace ++ [⟨e, a⟩]) ∧
    (t.faultLog = s.faultLog ∨
      (s.cfg.terr = true ∧ t.faultLog = s.faultLog ++ [2] ∧ t.fault = 2 ∧ t.busy = false ∧ t.done = false ∧
        t.ph = .idle)) ∧
    t.cfg = s.cfg ∧ t.args = s.args ∧ t.ext = s.ext := by
  have key : ∀ e f, s.outstanding = some e → (∀ u, (f u).trace = u.trace ∧ (f u).faultLog = u.faultLog ∧
      (f u).cfg = u.cfg ∧ (f u).args = u.args ∧ (f u).ext = u.ext) → t = emit e f s →
      (t.trace = s.trace ∨ ∃ e a, s.outstanding = some e ∧ t.trace = s.trace ++ [⟨e, a⟩]) ∧
      (t.faultLog = s.faultLog ∨
        (s.cfg.terr = true ∧ t.faultLog = s.faultLog ++ [2] ∧ t.fault = 2 ∧ t.busy = false ∧ t.done = false ∧
          t.ph = .idle)) ∧
      t.cfg = s.cfg ∧ t.args = s.args ∧ t.ext = s.ext := by
    rintro e f ho hf rfl
    obtain ⟨⟨a, h1⟩, h2, h3⟩ := emit_effect e f s hf
    exact ⟨.inr ⟨e, a, ho, h1⟩, h2, h3⟩
  have frame : ∀ u : State, u.trace = u.trace ∧ u.faultLog = u.faultLog ∧ u.cfg = u.cfg ∧ u.args = u.args ∧
      u.ext = u.ext := fun _ => ⟨rfl, rfl, rfl, rfl, rfl⟩
  rcases blockStep_cases h with ⟨_, rfl⟩ | ⟨hp, ops, ho, ⟨u, hu, rfl⟩ | ⟨_, rfl⟩⟩ | ⟨_, ⟨_, rfl⟩ | ⟨d, _, _, rfl⟩⟩ |
    ⟨hp, h⟩ | ⟨hp, bs, hb, h⟩ | ⟨hp, h⟩ | ⟨_, ⟨_, rfl⟩ | ⟨_, rfl⟩⟩ | ⟨hp, ⟨_, rfl⟩ | ⟨hn, h⟩⟩
  case inr.inl.inl =>
    cases u with
    | tinit => exact key .tInit (fun t => { t with stg := t.stg + 1 }) (by simp [State.outstanding, hp, ho, hu]) frame rfl
    | _ => exact ⟨.inl rfl, .inl rfl, rfl, rfl, rfl⟩
  case inr.inr.inr.inl =>
    exact key (.tCmd s.opc) afterCommand (by simp [State.outstanding, hp])
      (fun u => by unfold afterCommand; split <;> exact frame u) h
  case inr.inr.inr.inr.inl => exact key (.tData bs) afterPayload (by simp [State.outstanding, hp, hb]) frame h
  case inr.inr.inr.inr.inr.inl =>
    exact key (.tDelay s.dlyv) (fun u => { u with ph := .adv }) (by simp [State.outstanding, hp]) frame h
  case inr.inr.inr.inr.inr.inr.inr.inr =>
    exact key (.tData (pixelBytes s.color (burst s.cfg s.pixcnt)))
      (fun u => { u with pixcnt := u.pixcnt - BitVec.ofNat 32 (burst u.cfg u.pixcnt) })
      (by simp only [State.outstanding, hp, hn, if_false]) frame h
  all_goals exact ⟨.inl rfl, .inl rfl, rfl, rfl, rfl⟩

/-- A step of the block leaves the host and the record of racing stores alone. -/
theorem blockStep_host {s t : State} (h : blockStep s = .next t) :
    t.host = s.host ∧ t.hostReads = s.hostReads ∧ t.extStale = s.extStale ∧ t.extRaces = s.extRaces := by
  have key : ∀ (e : Txn) (f : State → State), (∀ u, (f u).host = u.host ∧ (f u).hostReads = u.hostReads ∧
      (f u).extStale = u.extStale ∧ (f u).extRaces = u.extRaces) →
      (emit e f s).host = s.host ∧ (emit e f s).hostReads = s.hostReads ∧ (emit e f s).extStale = s.extStale ∧
        (emit e f s).extRaces = s.extRaces := by
    intro e f hf
    rcases emit_cases e f s with ⟨_, h⟩ | ⟨_, _, h⟩ <;> rw [h]
    · exact hf (s.afterTxns [e])
    · exact ⟨rfl, rfl, rfl, rfl⟩
  have frame : ∀ u : State, u.host = u.host ∧ u.hostReads = u.hostReads ∧ u.extStale = u.extStale ∧
      u.extRaces = u.extRaces := fun _ => ⟨rfl, rfl, rfl, rfl⟩
  rcases blockStep_cases h with ⟨_, rfl⟩ | ⟨_, _, _, ⟨u, _, rfl⟩ | ⟨_, rfl⟩⟩ | ⟨_, ⟨_, rfl⟩ | ⟨_, _, _, rfl⟩⟩ |
    ⟨_, rfl⟩ | ⟨_, bs, _, rfl⟩ | ⟨_, rfl⟩ | ⟨_, ⟨_, rfl⟩ | ⟨_, rfl⟩⟩ | ⟨_, ⟨_, rfl⟩ | ⟨_, rfl⟩⟩
  case inr.inl.inl =>
    cases u with
    | tinit => exact key .tInit (fun t => { t with stg := t.stg + 1 }) frame
    | _ => exact frame s
  case inr.inr.inr.inl => exact key _ _ (fun u => by unfold afterCommand; split <;> exact frame u)
  case inr.inr.inr.inr.inl => exact key (.tData bs) afterPayload frame
  case inr.inr.inr.inr.inr.inl => exact key (.tDelay s.dlyv) (fun u => { u with ph := .adv }) frame
  case inr.inr.inr.inr.inr.inr.inr.inr =>
    exact key _ (fun u => { u with pixcnt := u.pixcnt - BitVec.ofNat 32 (burst u.cfg u.pixcnt) }) frame
  case inl => exact frame _
  all_goals exact frame s

/-- A host's store that answers changes `EXT` and the model's records of races only, at an address of `EXT` (R55). -/
theorem hostStore_next {a : Nat} {b : Byte} {s t : State} (h : hostStore a b s = .next t) :
    a < 2 ^ s.cfg.seqAw ∧ t = { s with ext := s.ext.write a b, extStale := t.extStale, extRaces := t.extRaces } := by
  unfold hostStore at h
  split at h
  · rename_i hlt
    split at h <;> cases h <;> exact ⟨hlt, rfl⟩
  · cases h

/-- What a hardware reset leaves alone, and the one transaction it can let complete (R44, R213). -/
theorem hardReset_effect (time : ResetTime) (r : Residue) (s : State) :
    (hardReset time r s).faultLog = s.faultLog ∧ (hardReset time r s).cfg = s.cfg ∧ (hardReset time r s).ext = s.ext ∧
    (hardReset time r s).ph = .idle ∧ (hardReset time r s).busy = false ∧ (hardReset time r s).done = false ∧
    (hardReset time r s).fault = 0 ∧
    ((hardReset time r s).trace = s.trace ∨
      ∃ e a, s.outstanding = some e ∧ (hardReset time r s).trace = s.trace ++ [⟨e, a⟩]) := by
  unfold hardReset
  split
  · exact ⟨rfl, rfl, rfl, rfl, rfl, rfl, rfl, .inl rfl⟩
  · split
    · rename_i _ _ t a ho
      exact ⟨rfl, rfl, rfl, rfl, rfl, rfl, rfl, .inr ⟨t, _, ho, rfl⟩⟩
    · exact ⟨rfl, rfl, rfl, rfl, rfl, rfl, rfl, .inl rfl⟩

/-- What a host move other than leaving the step to the block can do (R28, R31, R32, R55, R96, R210). -/
theorem hostStep_cases {m : HostMove} {s t : State} (hm : m ≠ .pass) (h : hostStep m s = .next t) :
    (∃ v code, m = .write .opreg v ∧ code = v.extractLsb' 0 4 ∧
      (t = s ∨ (s.busy = false ∧ ((t = s.accepted code ∧ 1 ≤ code.toNat ∧ code.toNat ≤ 9) ∨
        (t = s.turnedAway code 3 ∧ (code.toNat = 0 ∨ 10 ≤ code.toNat)) ∨
        (s.cfg.geomCheck = true ∧ t = s.turnedAway code 1))))) ∨
    (∃ i v, m = .write (.arg i) v ∧ t = writeArg i v s) ∨ (∃ v, m = .write .status v ∧ t = s) ∨
    (∃ r, m = .read r ∧ t = hostRead r s) ∨ (∃ a b, m = .storeExt a b ∧ hostStore a b s = .next t) ∨
    (m = .awaitIdle ∧ t = s) ∨ (∃ time r, m = .hardReset time r ∧ t = hardReset time r s) := by
  cases m with
  | write r v =>
    cases r with
    | opreg => exact .inl ⟨v, _, rfl, rfl, request_state (decodeOp_opCode v) h⟩
    | arg i => exact .inr (.inl ⟨i, v, rfl, (Host.Outcome.next.inj h).symm⟩)
    | status => exact .inr (.inr (.inl ⟨v, rfl, (Host.Outcome.next.inj h).symm⟩))
  | read r => exact .inr (.inr (.inr (.inl ⟨r, rfl, (Host.Outcome.next.inj h).symm⟩)))
  | storeExt a b => exact .inr (.inr (.inr (.inr (.inl ⟨a, b, rfl, h⟩))))
  | pass => exact absurd rfl hm
  | awaitIdle => exact .inr (.inr (.inr (.inr (.inr (.inl ⟨rfl, (Host.Outcome.next.inj h).symm⟩)))))
  | hardReset time r => exact .inr (.inr (.inr (.inr (.inr (.inr ⟨time, r, rfl, (Host.Outcome.next.inj h).symm⟩)))))

end Sys2Proof.Machine
end

