-- ==== Sys2Proof/Laws/PerInstr.lean ====
section
/-! SUPPORT. Statements for all instructions, one lemma per constructor: the words that encode an instruction are of its
format and of the length that R80 and R86 give it. -/

namespace Sys2Proof.Laws.EncodedSize

/-- An instruction of format H is a 16-bit value of two bytes; one of format D is a list of bytes as long as R86 says. -/
def Statement (i : Instr) : Prop :=
  ∀ c : Config,
    match encode c i with
    | .host _ => i.format = .h ∧ i.size c = 2
    | .desc bs => i.format = .d ∧ bs.length = i.size c

/-- Instructions of format H. -/
theorem of_code {i : Instr} {code : BitVec 4} (h : i.opCode = some code) (hf : i.format = .h) : Statement i := by
  intro c
  rw [encode, h]
  exact ⟨hf, by rw [Instr.size, hf]⟩

/-- Commands. -/
theorem of_desc {i : Instr} (h : i.opCode = none) (hf : i.format = .d) (hd : ∀ c, ∃ d, i.toDesc c = some d) :
    Statement i := by
  intro c
  obtain ⟨d, hd⟩ := hd c
  rw [encode, h, hd]
  exact ⟨hf, by rw [Instr.size, hf, hd]; exact enc_length d⟩

theorem init : Statement .init := of_code rfl rfl
theorem reset : Statement .reset := of_code rfl rfl
theorem dispon : Statement .dispon := of_code rfl rfl
theorem dispoff : Statement .dispoff := of_code rfl rfl
theorem runcmd : Statement .runcmd := of_code rfl rfl
theorem runseq : Statement .runseq := of_code rfl rfl
theorem setwin : Statement .setwin := of_code rfl rfl
theorem fill : Statement .fill := of_code rfl rfl
theorem clear : Statement .clear := of_code rfl rfl
theorem reserved0 : Statement .reserved0 := of_code rfl rfl
theorem reserved10 : Statement .reserved10 := of_code rfl rfl
theorem reserved11 : Statement .reserved11 := of_code rfl rfl
theorem reserved12 : Statement .reserved12 := of_code rfl rfl
theorem reserved13 : Statement .reserved13 := of_code rfl rfl
theorem reserved14 : Statement .reserved14 := of_code rfl rfl
theorem reserved15 : Statement .reserved15 := of_code rfl rfl

theorem sentinel : Statement .sentinel := fun _ => ⟨rfl, rfl⟩

theorem cmd (op : Byte) (d : U32) (p : List Byte) : Statement (.cmd op d p) :=
  of_desc rfl rfl (fun _ => ⟨_, rfl⟩)

theorem cmdSwreset (d : U32) (p : List Byte) : Statement (.cmdSwreset d p) :=
  of_desc rfl rfl (fun _ => ⟨_, rfl⟩)

theorem cmdSlpin (d : U32) (p : List Byte) : Statement (.cmdSlpin d p) :=
  of_desc rfl rfl (fun _ => ⟨_, rfl⟩)

theorem cmdSlpout (d : U32) (p : List Byte) : Statement (.cmdSlpout d p) :=
  of_desc rfl rfl (fun _ => ⟨_, rfl⟩)

theorem cmdInvon (d : U32) (p : List Byte) : Statement (.cmdInvon d p) :=
  of_desc rfl rfl (fun _ => ⟨_, rfl⟩)

theorem cmdDispoff (d : U32) (p : List Byte) : Statement (.cmdDispoff d p) :=
  of_desc rfl rfl (fun _ => ⟨_, rfl⟩)

theorem cmdDispon (d : U32) (p : List Byte) : Statement (.cmdDispon d p) :=
  of_desc rfl rfl (fun _ => ⟨_, rfl⟩)

theorem cmdCaset (d : U32) (p : List Byte) : Statement (.cmdCaset d p) :=
  of_desc rfl rfl (fun _ => ⟨_, rfl⟩)

theorem cmdRaset (d : U32) (p : List Byte) : Statement (.cmdRaset d p) :=
  of_desc rfl rfl (fun _ => ⟨_, rfl⟩)

theorem cmdRamwr (d : U32) (p : List Byte) : Statement (.cmdRamwr d p) :=
  of_desc rfl rfl (fun _ => ⟨_, rfl⟩)

theorem cmdMadctl (d : U32) (p : List Byte) : Statement (.cmdMadctl d p) :=
  of_desc rfl rfl (fun _ => ⟨_, rfl⟩)

theorem cmdColmod (d : U32) (p : List Byte) : Statement (.cmdColmod d p) :=
  of_desc rfl rfl (fun _ => ⟨_, rfl⟩)

theorem cmdRamctrl (d : U32) (p : List Byte) : Statement (.cmdRamctrl d p) :=
  of_desc rfl rfl (fun _ => ⟨_, rfl⟩)

theorem cmdRgbctrl (d : U32) (p : List Byte) : Statement (.cmdRgbctrl d p) :=
  of_desc rfl rfl (fun _ => ⟨_, rfl⟩)

theorem cmdCmd2en (d : U32) (p : List Byte) : Statement (.cmdCmd2en d p) :=
  of_desc rfl rfl (fun _ => ⟨_, rfl⟩)

end Sys2Proof.Laws.EncodedSize
end

