-- ==== Sys2Proof/Laws/Runs.lean ====
section
/-! SUPPORT. Runs of several steps, from the fetch of a descriptor to the end of a micro-operation, with no host move to
come and a transport that answers `ok`. -/

namespace Sys2Proof.Machine

theorem runSteps_one {s t : State} (h : step s = .next t) : runSteps 1 s = .next t := by
  simp [runSteps, h]

/-- One more step, which emits, after a run that emitted. -/
theorem runSteps_snoc {s t u : State} {ts us : List Txn} {n : Nat} (h : runSteps n s = .next (t.afterTxns ts))
    (h2 : step (t.afterTxns ts) = .next ((u.afterTxns ts).afterTxns us)) :
    runSteps (n + 1) s = .next (u.afterTxns (ts ++ us)) := by
  rw [runSteps_add h]
  simp only [runSteps, h2, afterTxns_append]

/-- The answers left for what comes after some transactions. -/
theorem answersOk_rest {s t : State} {ts : List Txn} {n : Nat} (h : s.answersOk (ts.length + n)) (hc : t.cfg = s.cfg)
    (ha : t.answers = s.answers) : (t.afterTxns ts).answersOk n := by
  apply answersOk_afterTxns
  simpa [State.answersOk, hc, ha] using h

/-- Completion after a run (R45). -/
theorem runSteps_complete {s u : State} {n : Nat} {ts : List Txn} {ops : List MicroOp}
    (h : runSteps n s = .next (u.afterTxns ts)) (hh : u.host = []) (hp : u.ph = .dispatch) (ho : u.microOps = some ops)
    (hu : u.stg.toNat = ops.length) :
    runSteps (n + 1) s = .next ({ u with busy := false, done := true, ph := .idle }.afterTxns ts) := by
  rw [runSteps_add h]
  exact runSteps_one (step_complete (s := u.afterTxns ts) hh hp ho hu)

/-! ### One descriptor -/

theorem ofNat_length_eq_zero {p : List Byte} (h : p.length ≤ 255) : BitVec.ofNat 8 p.length = 0 ↔ p = [] := by
  constructor
  · intro hz
    have : p.length % 2 ^ 8 = 0 := by simpa using congrArg BitVec.toNat hz
    exact List.eq_nil_of_length_eq_zero (by omega)
  · rintro rfl
    rfl

/-- A command descriptor from its fetch to phase ADV: the transactions of `exec_desc` (R110, R115). -/
theorem run_desc {s : State} {d : Desc} (hh : s.host = []) (hp : s.ph = .fetch) (hd : d.wf s.cfg = true)
    (hb : ∀ k b, d.enc[k]? = some b → s.byteAt s.src s.sp k = .ok b) (hs : s.extStale = [])
    (ha : s.answersOk (execDesc s.cfg d).length) :
    runSteps (1 + (execDesc s.cfg d).length) s = .next
      ({ s with opc := d.opcode, len := BitVec.ofNat 8 d.payload.length, dlyv := d.delay, ph := .adv }.afterTxns
        (execDesc s.cfg d)) := by
  have hw := hd
  simp only [Desc.wf, Bool.and_eq_true, bne_iff_ne, ne_eq, decide_eq_true_eq] at hw
  have hl0 := ofNat_length_eq_zero hw.2
  have hf := blockStep_fetch_enc hp hd hb
  rw [← step_of_quiet hh] at hf
  rw [Nat.add_comm, runSteps_succ hf]
  set s1 : State :=
    { s with opc := d.opcode, len := BitVec.ofNat 8 d.payload.length, dlyv := d.delay, ph := .cmd } with hs1
  have e : execDesc s.cfg d = [.tCmd d.opcode] ++ ((if d.payload = [] then [] else [.tData d.payload]) ++
      (if d.delay = 0 then [] else [Txn.tDelay d.delay])) := by
    simp [execDesc, hw.1]
  rw [e] at ha ⊢
  have ha1 : s1.answersOk 1 := answersOk_mono (s := s) ha (by simp)
  have hpay : ∀ p ts, State.payload (({ s1 with ph := p } : State).afterTxns ts) = Except.ok d.payload := by
    intro p ts
    have hl : (({ s1 with ph := p } : State).afterTxns ts).len.toNat = d.payload.length := by
      show (BitVec.ofNat 8 d.payload.length).toNat = d.payload.length
      simp only [BitVec.toNat_ofNat]
      omega
    rw [State.payload, hl]
    refine readBytes_ok (fun k b hk => ?_)
    have := hb (6 + k) b (by rw [Nat.add_comm 6 k]; simpa [Desc.enc, delayBytes] using hk)
    rw [byteAt_congr (s := s)] <;> first | rfl | exact hs | exact this
  by_cases hpl : d.payload = []
  · by_cases hdl : d.delay = 0
    · simp only [if_pos hpl, if_pos hdl, List.append_nil, List.length_singleton] at ha ⊢
      exact runSteps_one (step_cmd_adv (s := s1) hh rfl ha1 (hl0.2 hpl) hdl)
    · simp only [if_pos hpl, if_neg hdl, List.nil_append, List.singleton_append, List.length_cons,
        List.length_nil] at ha ⊢
      refine runSteps_snoc (n := 1) (t := { s1 with ph := .dly }) (ts := [.tCmd d.opcode]) (us := [.tDelay d.delay])
        (runSteps_one (step_cmd_dly (s := s1) hh rfl ha1 (hl0.2 hpl) hdl)) ?_
      exact step_dly_adv (s := ({ s1 with ph := .dly } : State).afterTxns [.tCmd d.opcode]) hh rfl
        (answersOk_rest (s := s) ha rfl rfl)
  · have h1 : runSteps 1 s1 = .next (({ s1 with ph := .data } : State).afterTxns [.tCmd d.opcode]) :=
      runSteps_one (step_cmd_data (s := s1) hh rfl ha1 (fun h => hpl (hl0.1 h)))
    by_cases hdl : d.delay = 0
    · simp only [if_neg hpl, if_pos hdl, List.append_nil, List.singleton_append, List.length_cons,
        List.length_nil] at ha ⊢
      refine runSteps_snoc (t := { s1 with ph := .data }) (us := [.tData d.payload]) h1 ?_
      exact step_data_adv (s := ({ s1 with ph := .data } : State).afterTxns [.tCmd d.opcode]) hh rfl
        (answersOk_rest (s := s) ha rfl rfl) (hpay _ _) hdl
    · simp only [if_neg hpl, if_neg hdl, List.singleton_append, List.length_cons, List.length_nil] at ha ⊢
      have h2 : runSteps 2 s1 =
          .next (({ s1 with ph := .dly } : State).afterTxns [.tCmd d.opcode, .tData d.payload]) := by
        refine runSteps_snoc (t := { s1 with ph := .data }) (us := [.tData d.payload]) h1 ?_
        exact step_data_dly (s := ({ s1 with ph := .data } : State).afterTxns [.tCmd d.opcode]) hh rfl
          (answersOk_rest (s := s) (answersOk_mono ha (by simp)) rfl rfl) (hpay _ _) hdl
      refine runSteps_snoc (t := { s1 with ph := .dly }) (us := [.tDelay d.delay]) h2 ?_
      exact step_dly_adv (s := ({ s1 with ph := .dly } : State).afterTxns [.tCmd d.opcode, .tData d.payload]) hh rfl
        (answersOk_rest (s := s) ha rfl rfl)

/-- A command descriptor in a run: then the next one is to be fetched (R39). -/
theorem run_desc_run {s : State} {d : Desc} (hh : s.host = []) (hp : s.ph = .fetch) (hm : s.mode = .run)
    (hd : d.wf s.cfg = true) (hb : ∀ k b, d.enc[k]? = some b → s.byteAt s.src s.sp k = .ok b) (hs : s.extStale = [])
    (ha : s.answersOk (execDesc s.cfg d).length) :
    runSteps (2 + (execDesc s.cfg d).length) s = .next
      ({ s with
        opc := d.opcode, len := BitVec.ofNat 8 d.payload.length, dlyv := d.delay
        sp := s.sp + BitVec.ofNat 16 d.enc.length, ph := .fetch }.afterTxns (execDesc s.cfg d)) := by
  rw [show 2 + (execDesc s.cfg d).length = (1 + (execDesc s.cfg d).length) + 1 by omega,
    runSteps_add (run_desc hh hp hd hb hs ha)]
  refine runSteps_one ((step_adv_run (s := State.afterTxns (execDesc s.cfg d)
    { s with opc := d.opcode, len := BitVec.ofNat 8 d.payload.length, dlyv := d.delay, ph := .adv }) hh rfl hm).trans ?_)
  rw [← nextSp_enc s.sp hd]
  rfl

/-- A command descriptor executed once: then its micro-operation ends (R39). -/
theorem run_desc_one {s : State} {d : Desc} (hh : s.host = []) (hp : s.ph = .fetch) (hm : s.mode = .one)
    (hd : d.wf s.cfg = true) (hb : ∀ k b, d.enc[k]? = some b → s.byteAt s.src s.sp k = .ok b) (hs : s.extStale = [])
    (ha : s.answersOk (execDesc s.cfg d).length) :
    runSteps (2 + (execDesc s.cfg d).length) s = .next
      ({ s with
        opc := d.opcode, len := BitVec.ofNat 8 d.payload.length, dlyv := d.delay
        stg := s.stg + 1, ph := .dispatch }.afterTxns (execDesc s.cfg d)) := by
  rw [show 2 + (execDesc s.cfg d).length = (1 + (execDesc s.cfg d).length) + 1 by omega,
    runSteps_add (run_desc hh hp hd hb hs ha)]
  exact runSteps_one (step_adv_one (s := State.afterTxns (execDesc s.cfg d)
    { s with opc := d.opcode, len := BitVec.ofNat 8 d.payload.length, dlyv := d.delay, ph := .adv }) hh rfl hm)

/-! ### A sequence -/

theorem encSeq_cons (c : Config) (d : Desc) (ds : List Desc) : encSeq c (d :: ds) = d.enc ++ encSeq c ds := by
  simp [encSeq]

theorem seqTxns_cons (c : Config) (d : Desc) (ds : List Desc) :
    seqTxns c (d :: ds) = execDesc c d ++ seqTxns c ds := by
  simp [seqTxns]

/-- A space holds bytes from an address on, however the address is reached. -/
def State.holds (s : State) (space : Space) (a : U16) (bs : List Byte) : Prop :=
  ∀ (k : Nat) (b : Byte) (p : U16) (off : Nat), bs[k]? = some b →
    (p.toNat + off) % 2 ^ 16 = (a.toNat + k) % 2 ^ 16 → s.byteAt space p off = .ok b

theorem holds_prefix {s : State} {space : Space} {a : U16} {bs cs : List Byte} (h : s.holds space a (bs ++ cs))
    (k : Nat) (b : Byte) (hk : bs[k]? = some b) : s.byteAt space a k = .ok b := by
  refine h k b a k ?_ rfl
  rw [List.getElem?_append_left]
  · exact hk
  · by_contra hc
    rw [List.getElem?_eq_none (by omega)] at hk
    cases hk

theorem holds_suffix {s : State} {space : Space} {a : U16} {bs cs : List Byte} (h : s.holds space a (bs ++ cs)) :
    s.holds space (a + BitVec.ofNat 16 bs.length) cs := by
  intro k b p off hk hp
  refine h (bs.length + k) b p off ?_ ?_
  · rw [List.getElem?_append_right (by omega), Nat.add_sub_cancel_left]
    exact hk
  · rw [hp]
    simp only [BitVec.toNat_add, BitVec.toNat_ofNat]
    omega

/-- A run over a well-formed sequence, from a fetch to the end of the micro-operation: the transactions of every
descriptor in order (R111, R114). -/
theorem run_seq {s : State} {ds : List Desc} (hh : s.host = []) (hp : s.ph = .fetch) (hm : s.mode = .run)
    (hd : ∀ d ∈ ds, d.wf s.cfg = true) (hb : s.holds s.src s.sp (encSeq s.cfg ds)) (hs : s.extStale = [])
    (ha : s.answersOk (seqTxns s.cfg ds).length) :
    ∃ len dlyv, runSteps (1 + 2 * ds.length + (seqTxns s.cfg ds).length) s = .next
      ({ s with
        opc := s.cfg.opEnd, len := len, dlyv := dlyv, sp := s.sp + BitVec.ofNat 16 (ds.flatMap Desc.enc).length
        stg := s.stg + 1, ph := .dispatch }.afterTxns (seqTxns s.cfg ds)) := by
  induction ds generalizing s with
  | nil =>
    refine ⟨s.len, s.dlyv, ?_⟩
    have h0 := blockStep_fetch_sentinel hp (hb 0 s.cfg.opEnd s.sp 0 rfl rfl)
    rw [← step_of_quiet hh] at h0
    simp only [seqTxns, List.flatMap_nil, List.length_nil, afterTxns_nil]
    refine (runSteps_one h0).trans ?_
    simp [fetchSentinel, endMicroOp]
  | cons d ds ih =>
    rw [seqTxns_cons] at ha ⊢
    rw [List.length_append] at ha
    rw [encSeq_cons] at hb
    have h1 := run_desc_run hh hp hm (hd d (by simp)) (holds_prefix hb) hs (answersOk_mono ha (by omega))
    set s2 : State := ({ s with
      opc := d.opcode, len := BitVec.ofNat 8 d.payload.length, dlyv := d.delay
      sp := s.sp + BitVec.ofNat 16 d.enc.length, ph := .fetch } : State).afterTxns (execDesc s.cfg d) with hs2
    obtain ⟨len, dlyv, h2⟩ := ih (s := s2) hh rfl hm (fun e he => hd e (by simp [he])) (by
      intro k b p off hk hp
      have e : s2.byteAt s2.src p off = s.byteAt s.src p off := by
        rw [byteAt_congr (s := s) (t := s2)] <;> first | rfl | exact hs
      rw [e]
      exact holds_suffix hb k b p off hk hp) hs (answersOk_rest ha rfl rfl)
    refine ⟨len, dlyv, ?_⟩
    have e : 1 + 2 * (d :: ds).length + (execDesc s.cfg d ++ seqTxns s.cfg ds).length =
        (2 + (execDesc s.cfg d).length) + (1 + 2 * ds.length + (seqTxns s2.cfg ds).length) := by
      simp [hs2, State.afterTxns]
      omega
    rw [e, runSteps_add h1, h2, ← afterTxns_append]
    congr 1
    simp only [hs2, State.afterTxns, List.flatMap_cons, List.length_append]
    congr 1
    rw [BitVec.ofNat_add, BitVec.add_assoc]

/-! ### What the block's own spaces hold (R51 to R54) -/

theorem holds_of_list {s : State} {space : Space} {a : U16} {whole bs : List Byte}
    (h : ∀ p off, s.byteAt space p off = listByte whole ((p.toNat + off) % 2 ^ 16)) (hl : whole.length ≤ 2 ^ 16)
    (hd : ∀ k b, bs[k]? = some b → whole[a.toNat + k]? = some b) : s.holds space a bs := by
  intro k b p off hk he
  have hw := hd k b hk
  have hlt : a.toNat + k < whole.length := by
    by_contra hc
    rw [List.getElem?_eq_none (by omega)] at hw
    cases hw
  rw [h, he, Nat.mod_eq_of_lt (by omega), listByte, hw]

theorem holds_rom1 {s : State} (h : s.cfg.rom1.length ≤ 2 ^ 16) : s.holds .rom1 0 s.cfg.rom1 :=
  holds_of_list (whole := s.cfg.rom1) (fun _ _ => rfl) h (fun k b hk => by
    rw [show (0 : U16).toNat + k = k by simp]
    exact hk)

theorem holds_rom2 {s : State} (h : s.cfg.rom2.length ≤ 2 ^ 16) : s.holds .rom2 0 s.cfg.rom2 :=
  holds_of_list (whole := s.cfg.rom2) (fun _ _ => rfl) h (fun k b hk => by
    rw [show (0 : U16).toNat + k = k by simp]
    exact hk)

theorem winBytes_length (c : Config) (xs ys xe ye : U16) : (winBytes c xs ys xe ye).length = 21 := by
  simp [winBytes, encSeq, windowDescs, pair]

theorem ctlBytes_length (c : Config) : (ctlBytes c).length = 24 := by
  simp [ctlBytes]

theorem holds_win (s : State) : s.holds .win 0 (encSeq s.cfg (windowDescs s.cfg s.xs s.ys s.xe s.ye)) :=
  holds_of_list (whole := winBytes s.cfg s.xs s.ys s.xe s.ye) (fun _ _ => rfl)
    (by rw [winBytes_length]; omega) (fun k b hk => by
    rw [show (0 : U16).toNat + k = k by simp]
    exact hk)

/-- The four descriptors of `CTL` and their addresses (R53). -/
theorem holds_ctl (s : State) :
    s.holds .ctl 0 (Desc.enc ⟨s.cfg.opRamwr, 0, []⟩) ∧
      s.holds .ctl 6 (Desc.enc ⟨s.cfg.opSwreset, s.cfg.resetDelayMs, []⟩) ∧
      s.holds .ctl 12 (Desc.enc ⟨s.cfg.opDispon, s.cfg.disponDelayMs, []⟩) ∧
      s.holds .ctl 18 (Desc.enc ⟨s.cfg.opDispoff, s.cfg.dispoffDelayMs, []⟩) := by
  refine ⟨?_, ?_, ?_, ?_⟩ <;>
  · refine holds_of_list (whole := ctlBytes s.cfg) (fun _ _ => rfl) (by rw [ctlBytes_length]; omega) (fun k b hk => ?_)
    have hlt : k < 6 := by
      by_contra hc
      rw [List.getElem?_eq_none (by simp; omega)] at hk
      cases hk
    have : k = 0 ∨ k = 1 ∨ k = 2 ∨ k = 3 ∨ k = 4 ∨ k = 5 := by omega
    rcases this with rfl | rfl | rfl | rfl | rfl | rfl <;> exact hk

/-! ### Micro-operations -/

/-- ONE from its dispatch to its end. -/
theorem run_one_op {s : State} {ops : List MicroOp} {space : Space} {a : U16} {d : Desc} (hh : s.host = [])
    (hp : s.ph = .dispatch) (ho : s.microOps = some ops) (hu : ops[s.stg.toNat]? = some (.one space a))
    (hd : d.wf s.cfg = true) (hb : s.holds space a d.enc) (hs : s.extStale = [])
    (ha : s.answersOk (execDesc s.cfg d).length) :
    runSteps (3 + (execDesc s.cfg d).length) s = .next
      ({ s with
        src := space, sp := a, mode := .one, opc := d.opcode, len := BitVec.ofNat 8 d.payload.length
        dlyv := d.delay, stg := s.stg + 1, ph := .dispatch }.afterTxns (execDesc s.cfg d)) := by
  rw [show 3 + (execDesc s.cfg d).length = (2 + (execDesc s.cfg d).length) + 1 by omega,
    runSteps_succ (step_dispatch hh hp ho hu)]
  refine run_desc_one (s := runMicroOp (.one space a) s) hh rfl rfl hd (fun k b hk => ?_) hs ha
  rw [← hb k b a k hk rfl, byteAt_congr (s := s)] <;> first | rfl | exact hs

/-- RUN over a well-formed sequence from its dispatch to its end. -/
theorem run_run_op {s : State} {ops : List MicroOp} {space : Space} {a : U16} {ds : List Desc} (hh : s.host = [])
    (hp : s.ph = .dispatch) (ho : s.microOps = some ops) (hu : ops[s.stg.toNat]? = some (.run space a))
    (hd : ∀ d ∈ ds, d.wf s.cfg = true) (hb : s.holds space a (encSeq s.cfg ds)) (hs : s.extStale = [])
    (ha : s.answersOk (seqTxns s.cfg ds).length) :
    ∃ len dlyv, runSteps (runStepCount s.cfg ds) s = .next
      ({ s with
        src := space, sp := a + BitVec.ofNat 16 (ds.flatMap Desc.enc).length, mode := .run, opc := s.cfg.opEnd
        len := len, dlyv := dlyv, stg := s.stg + 1, ph := .dispatch }.afterTxns (seqTxns s.cfg ds)) := by
  obtain ⟨len, dlyv, h2⟩ := run_seq (s := runMicroOp (.run space a) s) (ds := ds) hh rfl rfl hd (by
    intro k b p off hk hp
    rw [← hb k b p off hk hp, byteAt_congr (s := s)] <;> first | rfl | exact hs) hs ha
  refine ⟨len, dlyv, ?_⟩
  rw [runStepCount, show 2 + 2 * ds.length + (seqTxns s.cfg ds).length =
      (1 + 2 * ds.length + (seqTxns s.cfg ds).length) + 1 by omega, runSteps_succ (step_dispatch hh hp ho hu)]
  exact h2

theorem opcode_ne_sentinel {c : Config} (h : c.sentinelApart = true) {op : Byte} (ho : op ∈ c.namedOps) :
    op ≠ c.opEnd := by
  simp only [Config.sentinelApart, Bool.not_eq_true', List.contains_eq_mem, decide_eq_false_iff_not] at h
  rintro rfl
  exact h ho

theorem wf_of_named {c : Config} (h : c.sentinelApart = true) {op : Byte} (ho : op ∈ c.namedOps) {d : U32}
    {p : List Byte} (hl : p.length ≤ 255) : Desc.wf c ⟨op, d, p⟩ = true := by
  simp [Desc.wf, opcode_ne_sentinel h ho, hl]

/-- The five transactions of a window-set (R150). -/
theorem setWindow_eq {c : Config} (h : c.sentinelApart = true) (xs ys xe ye : U16) :
    setWindow c xs ys xe ye =
      [.tCmd c.opCaset, .tData (pair xs xe), .tCmd c.opRaset, .tData (pair ys ye), .tCmd c.opRamwr] := by
  have h1 : c.opCaset ≠ c.opEnd := opcode_ne_sentinel h (by simp [Config.namedOps])
  have h2 : c.opRaset ≠ c.opEnd := opcode_ne_sentinel h (by simp [Config.namedOps])
  have h3 : c.opRamwr ≠ c.opEnd := opcode_ne_sentinel h (by simp [Config.namedOps])
  simp [setWindow, seqTxns, windowDescs, execDesc, h1, h2, h3, pair]

/-- The window-set of an operation, RUN(WIN, 0) and ONE(CTL, 0), from its dispatch to its end. -/
theorem run_windowSet {s : State} {ops : List MicroOp} (hh : s.host = []) (hp : s.ph = .dispatch)
    (ho : s.microOps = some ops) (hu : ops[s.stg.toNat]? = some (.run .win 0))
    (hv : ops[(s.stg + 1).toNat]? = some (.one .ctl 0)) (hs : s.extStale = []) (hc : s.cfg.sentinelApart = true)
    (ha : s.answersOk 5) :
    runSteps 14 s = .next
      ({ s with
        src := .ctl, sp := 0, mode := .one, opc := s.cfg.opRamwr, len := 0, dlyv := 0, stg := s.stg + 1 + 1
        ph := .dispatch }.afterTxns (setWindow s.cfg s.xs s.ys s.xe s.ye)) := by
  have h1 : s.cfg.opCaset ≠ s.cfg.opEnd := opcode_ne_sentinel hc (by simp [Config.namedOps])
  have h2 : s.cfg.opRaset ≠ s.cfg.opEnd := opcode_ne_sentinel hc (by simp [Config.namedOps])
  have h3 : s.cfg.opRamwr ≠ s.cfg.opEnd := opcode_ne_sentinel hc (by simp [Config.namedOps])
  have e1 : (seqTxns s.cfg (windowDescs s.cfg s.xs s.ys s.xe s.ye)).length = 4 := by
    simp [seqTxns, windowDescs, execDesc, h1, h2, pair]
  have e2 : (execDesc s.cfg ⟨s.cfg.opRamwr, 0, []⟩).length = 1 := by
    simp [execDesc, h3]
  obtain ⟨len, dlyv, r1⟩ := run_run_op hh hp ho hu (ds := windowDescs s.cfg s.xs s.ys s.xe s.ye) (by
    intro d hd
    simp only [windowDescs, List.mem_cons, List.not_mem_nil, or_false] at hd
    rcases hd with rfl | rfl <;> exact wf_of_named hc (by simp [Config.namedOps]) (by simp [pair])) (holds_win s) hs
    (answersOk_mono ha (by omega))
  have r2 := run_one_op (ops := ops) (d := ⟨s.cfg.opRamwr, 0, []⟩)
    (s := State.afterTxns (seqTxns s.cfg (windowDescs s.cfg s.xs s.ys s.xe s.ye)) { s with
      src := .win, sp := 0 + BitVec.ofNat 16 ((windowDescs s.cfg s.xs s.ys s.xe s.ye).flatMap Desc.enc).length
      mode := .run, opc := s.cfg.opEnd, len := len, dlyv := dlyv, stg := s.stg + 1, ph := .dispatch })
    hh rfl ho hv (wf_of_named hc (by simp [Config.namedOps]) (by simp)) (holds_ctl _).1 hs
    (answersOk_rest (s := s) (by
      show s.answersOk (_ + (execDesc s.cfg ⟨s.cfg.opRamwr, 0, []⟩).length)
      rw [e1, e2]
      exact ha) rfl rfl)
  have r := runSteps_trans r1 r2
  have l : runStepCount s.cfg (windowDescs s.cfg s.xs s.ys s.xe s.ye) = 10 := by
    rw [runStepCount, e1]
    rfl
  change runSteps (runStepCount s.cfg (windowDescs s.cfg s.xs s.ys s.xe s.ye) +
    (3 + (execDesc s.cfg ⟨s.cfg.opRamwr, 0, []⟩).length)) s = _ at r
  rw [l, e2] at r
  refine r.trans ?_
  congr 1
  rw [setWindow, ← afterTxns_append]
  rfl

/-- PIX from its entry to its end: the loop of `fill_area` (R40, R160). -/
theorem run_pix {s : State} (fuel : Nat) (hh : s.host = []) (hp : s.ph = .pix) (hb : 1 ≤ s.cfg.fillBurst)
    (hf : s.pixcnt.toNat ≤ fuel) (ha : s.answersOk (pixelTxns s.cfg s.color fuel s.pixcnt.toNat).length) :
    runSteps ((pixelTxns s.cfg s.color fuel s.pixcnt.toNat).length + 1) s = .next
      ({ s with pixcnt := 0, stg := s.stg + 1, ph := .dispatch }.afterTxns
        (pixelTxns s.cfg s.color fuel s.pixcnt.toNat)) := by
  induction fuel generalizing s with
  | zero =>
    have hz : s.pixcnt = 0 := BitVec.eq_of_toNat_eq (by simp; omega)
    simp only [pixelTxns, List.length_nil, Nat.zero_add, afterTxns_nil]
    exact runSteps_one (step_pix_end hh hp hz)
  | succ fuel ih =>
    rw [pixelTxns] at ha ⊢
    by_cases hz : s.pixcnt.toNat = 0
    · have hz' : s.pixcnt = 0 := BitVec.eq_of_toNat_eq (by simpa using hz)
      simp only [hz, if_true, List.length_nil, Nat.zero_add, afterTxns_nil]
      exact runSteps_one (step_pix_end hh hp hz')
    · rw [if_neg hz] at ha ⊢
      have hz' : s.pixcnt ≠ 0 := by
        intro h
        rw [h] at hz
        exact hz rfl
      set k := min s.pixcnt.toNat s.cfg.fillBurst with hk
      have hbk : burst s.cfg s.pixcnt = k := rfl
      have h1 := step_pix hh hp hz' (answersOk_mono ha (by simp))
      rw [hbk] at h1
      have hlt := s.pixcnt.isLt
      have hn : (s.pixcnt - BitVec.ofNat 32 k).toNat = s.pixcnt.toNat - k := by
        simp only [BitVec.toNat_sub, BitVec.toNat_ofNat]
        omega
      set s2 : State := ({ s with pixcnt := s.pixcnt - BitVec.ofNat 32 k }).afterTxns
        [.tData (pixelBytes s.color k)] with hs2
      have e2 : s2.pixcnt.toNat = s.pixcnt.toNat - k := hn
      have hcc : s2.cfg = s.cfg := rfl
      have hco : s2.color = s.color := rfl
      have h2 := ih (s := s2) hh hp hb (by rw [e2]; omega) (by
        rw [hcc, hco, e2]
        refine answersOk_rest (s := s) ?_ rfl rfl
        rw [List.length_cons] at ha
        rw [List.length_singleton, Nat.add_comm]
        exact ha)
      rw [hcc, hco, e2] at h2
      rw [List.length_cons, runSteps_succ h1, h2]
      congr 1
      rw [← List.singleton_append, ← afterTxns_append]
      rfl

/-- The number of pixel transactions (R167). -/
theorem pixelTxns_length (c : Config) (color : U16) (hb : 1 ≤ c.fillBurst) (fuel n : Nat) (hf : n ≤ fuel) :
    (pixelTxns c color fuel n).length = pixelTxnCount c n := by
  unfold pixelTxnCount
  induction fuel generalizing n with
  | zero =>
    obtain rfl : n = 0 := by omega
    simp only [pixelTxns, List.length_nil]
    exact (Nat.div_eq_of_lt (by omega)).symm
  | succ fuel ih =>
    rw [pixelTxns]
    split
    · rename_i h
      subst h
      exact (Nat.div_eq_of_lt (by omega)).symm
    · rw [List.length_cons, ih _ (by omega)]
      by_cases h : n ≤ c.fillBurst
      · rw [Nat.min_eq_left h, Nat.sub_self, Nat.div_eq_of_lt (by omega)]
        symm
        apply Nat.div_eq_of_lt_le <;> omega
      · rw [Nat.min_eq_right (by omega), show n + c.fillBurst - 1 =
          (n - c.fillBurst + c.fillBurst - 1) + c.fillBurst by omega, Nat.add_div_right _ (by omega)]

/-- The four micro-operations of a fill, from LOADFILL to the end of PIX (R160). -/
theorem run_fillOps {s : State} {ops : List MicroOp} {color x y w h : U16} (hh : s.host = []) (hp : s.ph = .dispatch)
    (ho : s.microOps = some ops) (hs : s.extStale = []) (hc : s.cfg.sentinelApart = true) (hb : 1 ≤ s.cfg.fillBurst)
    (u0 : ops[s.stg.toNat]? = some (.loadfill color x y w h)) (u1 : ops[(s.stg + 1).toNat]? = some (.run .win 0))
    (u2 : ops[(s.stg + 1 + 1).toNat]? = some (.one .ctl 0)) (u3 : ops[(s.stg + 1 + 1 + 1).toNat]? = some .pix)
    (ha : s.answersOk (fillArea s.cfg color x y w h).length) :
    runSteps (fillStepCount s.cfg (w.toNat * h.toNat)) s = .next
      ({ s with
        xs := x, ys := y, xe := corner x w, ye := corner y h, color := color, pixcnt := 0, src := .ctl, sp := 0
        mode := .one, opc := s.cfg.opRamwr, len := 0, dlyv := 0, stg := s.stg + 1 + 1 + 1 + 1
        ph := .dispatch }.afterTxns (fillArea s.cfg color x y w h)) := by
  have hw5 : (setWindow s.cfg x y (corner x w) (corner y h)).length = 5 := by rw [setWindow_eq hc]; rfl
  have hlen : (fillArea s.cfg color x y w h).length =
      5 + (pixelTxns s.cfg color (w.toNat * h.toNat) (w.toNat * h.toNat)).length := by
    rw [fillArea, List.length_append, hw5]
  rw [hlen] at ha
  have h1 := step_dispatch hh hp ho u0
  have h2 := run_windowSet (s := runMicroOp (.loadfill color x y w h) s) hh hp ho u1 u2 hs hc
    (answersOk_mono (s := s) ha (by omega))
  set t2 : State := State.afterTxns (setWindow s.cfg x y (corner x w) (corner y h))
    { runMicroOp (.loadfill color x y w h) s with
      src := .ctl, sp := 0, mode := .one, opc := s.cfg.opRamwr, len := 0, dlyv := 0, stg := s.stg + 1 + 1 + 1
      ph := .dispatch } with ht2
  have h2' : runSteps 14 (runMicroOp (.loadfill color x y w h) s) = .next t2 := h2
  have h3 := step_dispatch (s := t2) hh rfl ho u3
  have e : (runMicroOp .pix t2).pixcnt.toNat = w.toNat * h.toNat := pixelCount_toNat w h
  have h4 := run_pix (s := runMicroOp .pix t2) (w.toNat * h.toNat) hh rfl hb (by rw [e]) (by
    rw [e]
    exact answersOk_rest (s := s) (by rw [hw5]; exact ha) rfl rfl)
  rw [e] at h4
  have hx : fillStepCount s.cfg (w.toNat * h.toNat) =
      14 + (((pixelTxns s.cfg color (w.toNat * h.toNat) (w.toNat * h.toNat)).length + 1) + 1) + 1 := by
    rw [fillStepCount, pixelTxns_length _ _ hb _ _ le_rfl]
    omega
  rw [hx, runSteps_succ h1, runSteps_add h2', runSteps_succ h3]
  refine h4.trans ?_
  congr 1
  rw [fillArea, ← afterTxns_append]
  rfl

/-- A request for an operation that is not checked, by an idle block with no TransportError latched (R32 (d)). -/
theorem exec_accept {s : State} (h : s.ready) {i : Instr} {code : BitVec 4}
    (he : exec i s = .next (request code accept s)) : exec i s = .next (s.accepted code) := by
  rw [he, request_of_ready h]
  rfl

end Sys2Proof.Machine
end

