-- ==== Sys2Proof/Tests/Slice0.lean ====
section
/-! SUPPORT. Tests and witnesses. Expected values are the spec's: its encodings (R81, R84, R85, R93), the worked examples of
its instruction rules, and the vectors V<n> and programs P<n> of spec/95_test_vectors.md. A theorem witness_<statement> gives,
for a statement of Certificates/Slice0/Obligations.lean that has hypotheses, states and operands that meet them, clause by
clause. -/

namespace Sys2Proof.Tests

open Sys2Proof Sys2Proof.Machine

/-! ### Small states -/

/-- The idle block in TINY. -/
def idle : State := State.resetWith Config.tiny

/-- The idle block in TINY with `GEOM_CHECK` and `TERR` (program P4). -/
def checked : State := State.resetWith { Config.tiny with geomCheck := true, terr := true }

/-- The idle block in REF with `GEOM_CHECK`. -/
def checkedRef : State := State.resetWith { Config.ref with geomCheck := true }

/-- The block in a phase of an operation. -/
def running (s : State) (op : BitVec 4) (ph : Phase) : State := { s with op := op, busy := true, ph := ph }

/-- Five argument registers. -/
def withArgs (s : State) (a b c d e : U16) : State := { s with args := ⟨#[a, b, c, d, e], rfl⟩ }

/-- A state whose `EXT` holds bytes from an address on. -/
def withExt (s : State) (a : Nat) (bs : List Byte) : State := { s with ext := Memory.writeAll (a + ·) s.ext 0 bs }

/-- A host with one move to make. -/
def withMove (s : State) (m : HostMove) : State := { s with host := [m] }

/-- The bytes of V11's and P5's descriptor, `3A 01 00 00 00 0A 55`. -/
def colmodBytes : List Byte := [0x3A, 0x01, 0x00, 0x00, 0x00, 0x0A, 0x55]

/-- Its record. -/
def colmodDesc : Desc := ⟨0x3A, 10, [0x55]⟩

/-- Values of the unspecified registers that are not those of `State.reset`. -/
def junk : Residue where
  xs := 1
  ys := 2
  xe := 3
  ye := 4
  color := 5
  pixcnt := 6
  opc := 7
  len := 8
  dlyv := 9
  src := .ext
  sp := 10
  mode := .run
  stg := 7

/-- What holds at every index of a list holds of every entry that the list has. -/
theorem entries_of_all {p : Nat → Byte → Prop} (bs : List Byte) (h : ∀ k : Fin bs.length, p k.val bs[k]) :
    ∀ (k : Nat) (b : Byte), bs[k]? = some b → p k b := by
  intro k b hk
  obtain ⟨hlt, rfl⟩ := List.getElem?_eq_some_iff.mp hk
  exact h ⟨k, hlt⟩

/-! ### Well-formedness -/

/-- R84: a payload has at most 255 bytes. -/
theorem test_wf_payload_limit : Instr.wf Config.tiny (.cmd 0x55 0 (List.replicate 256 0)) = false ∧
    Instr.wf Config.tiny (.cmd 0x55 0 (List.replicate 255 0)) = true := by decide +kernel

/-- R84, for a named opcode. -/
theorem test_wf_named_payload_limit : Instr.wf Config.tiny (.cmdRamwr 0 (List.replicate 256 0)) = false := by
  decide +kernel

/-- R94: no command has the sentinel as its opcode. -/
theorem test_wf_sentinel_opcode : Instr.wf Config.tiny (.cmd 0xFF 0 []) = false := by decide +kernel

/-- R94, for a named opcode that a configuration makes the sentinel. -/
theorem test_wf_named_sentinel : Instr.wf { Config.tiny with opEnd := 0x29 } (.cmdDispon 0 []) = false := by
  decide +kernel

/-- R93: a named opcode is not written as the generic command. -/
theorem test_wf_named_under_cmd : Instr.wf Config.tiny (.cmd 0x29 0 []) = false := by decide +kernel

/-- R87: a record with the sentinel as its opcode, or too long a payload, has no encoding. -/
theorem test_desc_wf : Desc.wf Config.tiny ⟨0xFF, 0, []⟩ = false ∧
    Desc.wf Config.tiny ⟨0x2C, 0, List.replicate 256 0⟩ = false ∧ Desc.wf Config.tiny colmodDesc = true := by
  decide +kernel

/-- R7: equal named opcodes. -/
theorem test_named_distinct : Config.tiny.namedDistinct = true ∧
    ({ Config.tiny with opSlpin := 0x11 }).namedDistinct = false := by decide +kernel

/-- R7, R132 to R134: a delay of the table that is not below that of the reset steps, a table without its sentinel, a burst
of 128, a sentinel among the named opcodes. -/
theorem test_illegal_configurations : ({ Config.tiny with rom1 := romTinyOne ++ [0xFF] }).legal = false ∧
    ({ Config.tiny with rom2 := (romTwo 0x07).dropLast }).legal = false ∧
    ({ Config.tiny with fillBurst := 128 }).legal = false ∧ ({ Config.tiny with panelW := 5 }).legal = false ∧
    ({ Config.tiny with opEnd := 0x10 }).legal = false := by decide +kernel

/-- REF is legal (R136, R137). -/
theorem test_ref_legal : Config.ref.legal = true := by decide +kernel

/-- TINY is legal (R138). -/
theorem test_tiny_legal : Config.tiny.legal = true := by decide +kernel

/-! ### Decoding: format H, the values of R82 and R83 -/

theorem test_decode_reserved0 : decodeTableWord 16 0x0000 = some .reserved0 := by decide
theorem test_decode_init : decodeTableWord 16 0x0001 = some .init := by decide
theorem test_decode_reset : decodeTableWord 16 0x0002 = some .reset := by decide
theorem test_decode_dispon : decodeTableWord 16 0xFFF3 = some .dispon := by decide
theorem test_decode_dispoff : decodeTableWord 16 0x0004 = some .dispoff := by decide
theorem test_decode_runcmd : decodeTableWord 16 0x0005 = some .runcmd := by decide
theorem test_decode_runseq : decodeTableWord 16 0x0006 = some .runseq := by decide
theorem test_decode_setwin : decodeTableWord 16 0x0007 = some .setwin := by decide
theorem test_decode_fill : decodeTableWord 16 0x1238 = some .fill := by decide
theorem test_decode_clear : decodeTableWord 16 0x0009 = some .clear := by decide
theorem test_decode_reserved10 : decodeTableWord 16 0x000A = some .reserved10 := by decide
theorem test_decode_reserved11 : decodeTableWord 16 0x000B = some .reserved11 := by decide
theorem test_decode_reserved12 : decodeTableWord 16 0x000C = some .reserved12 := by decide
theorem test_decode_reserved13 : decodeTableWord 16 0x000D = some .reserved13 := by decide
theorem test_decode_reserved14 : decodeTableWord 16 0x000E = some .reserved14 := by decide
theorem test_decode_reserved15 : decodeTableWord 16 0xABCF = some .reserved15 := by decide

/-! ### Decoding: format D, bytes laid out by R84 with the opcodes of R93 -/

theorem test_decode_end : decodeBytes Config.ref [0xFF, 0x2A, 0x00] = .ok (.sentinel, [0x2A, 0x00]) := by rfl
theorem test_decode_cmd : decodeBytes Config.ref [0xB7, 0x01, 0x00, 0x00, 0x00, 0x00, 0x35, 0xFF] =
    .ok (.cmd 0xB7 0 [0x35], [0xFF]) := by rfl
theorem test_decode_cmd_swreset : decodeBytes Config.ref [0x01, 0x00, 0x00, 0x00, 0x01, 0x00] =
    .ok (.cmdSwreset 256 [], []) := by rfl
theorem test_decode_cmd_slpin : decodeBytes Config.ref [0x10, 0x00, 0x00, 0x00, 0x00, 0x78] =
    .ok (.cmdSlpin 120 [], []) := by rfl
theorem test_decode_cmd_slpout : decodeBytes Config.ref [0x11, 0x00, 0x00, 0x01, 0x00, 0x00] =
    .ok (.cmdSlpout 65536 [], []) := by rfl
theorem test_decode_cmd_invon : decodeBytes Config.ref [0x21, 0x00, 0x00, 0x00, 0x00, 0x00] =
    .ok (.cmdInvon 0 [], []) := by rfl
theorem test_decode_cmd_dispoff : decodeBytes Config.ref [0x28, 0x00, 0xFF, 0xFF, 0xFF, 0xFF] =
    .ok (.cmdDispoff 4294967295 [], []) := by rfl
theorem test_decode_cmd_dispon : decodeBytes Config.ref [0x29, 0x00, 0x01, 0x00, 0x00, 0x00] =
    .ok (.cmdDispon 16777216 [], []) := by rfl
theorem test_decode_cmd_caset : decodeBytes Config.ref [0x2A, 0x04, 0x00, 0x00, 0x00, 0x00, 0x00, 0x00, 0x00, 0xEF] =
    .ok (.cmdCaset 0 [0x00, 0x00, 0x00, 0xEF], []) := by rfl
theorem test_decode_cmd_raset : decodeBytes Config.ref [0x2B, 0x04, 0x00, 0x00, 0x00, 0x00, 0x00, 0x00, 0x01, 0x3F] =
    .ok (.cmdRaset 0 [0x00, 0x00, 0x01, 0x3F], []) := by rfl
theorem test_decode_cmd_ramwr : decodeBytes Config.ref [0x2C, 0x02, 0x00, 0x00, 0x00, 0x00, 0xF8, 0x00, 0x99] =
    .ok (.cmdRamwr 0 [0xF8, 0x00], [0x99]) := by rfl
theorem test_decode_cmd_madctl : decodeBytes Config.ref [0x36, 0x01, 0x00, 0x00, 0x00, 0x00, 0xFF] =
    .ok (.cmdMadctl 0 [0xFF], []) := by rfl
theorem test_decode_cmd_colmod : decodeBytes Config.ref colmodBytes = .ok (.cmdColmod 10 [0x55], []) := by rfl
theorem test_decode_cmd_ramctrl : decodeBytes Config.ref [0xB0, 0x02, 0x00, 0x00, 0x00, 0x00, 0x11, 0xF0] =
    .ok (.cmdRamctrl 0 [0x11, 0xF0], []) := by rfl
theorem test_decode_cmd_rgbctrl : decodeBytes Config.ref [0xB1, 0x03, 0x00, 0x00, 0x00, 0x00, 0x40, 0x02, 0x14] =
    .ok (.cmdRgbctrl 0 [0x40, 0x02, 0x14], []) := by rfl
theorem test_decode_cmd_cmd2en :
    decodeBytes Config.ref [0xDF, 0x04, 0x00, 0x00, 0x00, 0x00, 0x5A, 0x69, 0x02, 0x01] =
      .ok (.cmdCmd2en 0 [0x5A, 0x69, 0x02, 0x01], []) := by rfl

/-- A list of bytes that is too short is refused by name. -/
theorem test_decode_refuses : decodeBytes Config.ref [] = .error .noByte ∧
    decodeBytes Config.ref [0x29, 0x00, 0x00] = .error .shortHeader ∧
    decodeBytes Config.ref [0x29, 0x01, 0x00, 0x00, 0x00, 0x00] = .error .shortPayload := ⟨rfl, rfl, rfl⟩

/-- R98: for another sentinel the `END` row is that value, and 0xFF is a command. -/
theorem test_decode_other_sentinel : decodeBytes { Config.tiny with opEnd := 0x00 } [0x00] = .ok (.sentinel, []) ∧
    decodeBytes { Config.tiny with opEnd := 0x00 } [0xFF, 0x00, 0x00, 0x00, 0x00, 0x02] = .ok (.cmd 0xFF 2 [], []) :=
  ⟨rfl, rfl⟩

/-- Words of the table: `END`, and a header of `CMD.SWRESET`, byte 0 in the low bits. R98: the rows of format H match the
16-bit value only, so that an 8-bit word is an opcode byte whatever its value. -/
theorem test_table_words : decodeTableWord 8 0xFF = some .sentinel ∧ decodeTableWord 8 0x01 = some (.cmdSwreset 0 []) ∧
    decodeTableWord 8 0x00 = some (.cmd 0x00 0 []) ∧ decodeTableWord 48 0x01 = some (.cmdSwreset 0 []) ∧
    decodeTableWord 48 0xDF = some (.cmdCmd2en 0 []) ∧ decodeTableWord 48 0xB7 = some (.cmd 0xB7 0 []) := by decide

/-- The encoder, against V11's bytes and R116's. -/
theorem test_encode : encode Config.tiny (.cmdColmod 10 [0x55]) = .desc colmodBytes ∧
    encode Config.tiny .sentinel = .desc [0xFF] ∧ encode Config.tiny .fill = .host 0x0008 := by decide

/-! ### Memory and reset -/

/-- Reset memory lists nothing and is in canonical form. -/
theorem test_reset_memory : State.reset.ext = [] ∧ State.reset.ext.wf = true := ⟨rfl, rfl⟩

/-- Storing what an unlisted address reads as removes the entry; entries stay sorted. -/
theorem test_memory_canonical : Memory.write (Memory.write [] 5 0x12) 5 0x00 = [] ∧
    Memory.write (Memory.write [] 5 0x12) 3 0x34 = [(3, 0x34), (5, 0x12)] ∧
    Memory.wf [(5, 0x12), (3, 0x34)] = false ∧ Memory.wf [(5, 0x00)] = false := by decide

/-- V60. -/
theorem test_reset_reads : (State.reset.readReg .status, State.reset.readReg .opreg, State.reset.readReg (.arg 4)) =
    (0, 0, 0) := by decide

/-! ### Acceptance and faults (V50 to V61) -/

/-- V50, V51, V61: a reserved code. -/
theorem test_reserved_codes : exec .reserved0 idle = .next (idle.turnedAway 0 3) ∧
    exec .reserved15 idle = .next (idle.turnedAway 15 3) ∧ (idle.turnedAway 15 3).status = 0x000C ∧
    (idle.turnedAway 15 3).readReg .opreg = 15 := ⟨rfl, rfl, rfl, rfl⟩

/-- V52: bits 15 to 4 are ignored. -/
theorem test_fill_accepted : exec (decodeOp 0x1238) (withArgs idle 0xF800 0 0 2 2) =
    .next ((withArgs idle 0xF800 0 0 2 2).accepted 8) ∧ (idle.accepted 8).status = 0x0001 := ⟨rfl, rfl⟩

/-- V54: a latched IllegalOp is cleared at acceptance. -/
theorem test_dispoff_clears_illegal_op : exec .dispoff { idle with fault := 3 } = .next (idle.accepted 4) := rfl

/-- V56: InvalidRegion, `3 + 2 - 1 = 4` is not below 4. -/
theorem test_fill_invalid_region : exec .fill (withArgs checked 0xF800 3 0 2 1) =
    .next ((withArgs checked 0xF800 3 0 2 1).turnedAway 8 1) := rfl

/-- P4 (2): one pixel further left is accepted. -/
theorem test_fill_valid_region : exec .fill (withArgs checked 0xF800 2 0 2 1) =
    .next ((withArgs checked 0xF800 2 0 2 1).accepted 8) := rfl

/-- V33, V38: sizes of 0 fail the check over the integers. -/
theorem test_fill_zero_size : regionInside Config.ref 0 0 0 5 = false ∧ regionInside Config.ref 0 0 0 0 = false ∧
    regionInside Config.ref 239 319 1 1 = true ∧ regionInside Config.ref 239 0 2 1 = false ∧
    regionInside Config.ref 0xFFFF 0 2 1 = false := by decide

/-- V20 to V27, the check of SETWIN. -/
theorem test_setwin_check : windowInside Config.ref 0 0 239 319 = true ∧ windowInside Config.ref 5 5 5 5 = true ∧
    windowInside Config.ref 0 0 239 320 = false ∧ windowInside Config.ref 50 0 10 0 = false ∧
    windowInside Config.ref 0xFFFF 0 0 0xFFFF = false ∧ windowInside Config.ref 300 0 310 10 = false := by decide

/-- V57: nothing while the block is busy. -/
theorem test_busy_ignores : exec .clear (running idle 8 .pix) = .next (running idle 8 .pix) := rfl

/-- V58: a TransportError turns away a reserved code too. -/
theorem test_transport_error_blocks : exec .reserved12 { checked with fault := 2, op := 6 } =
    .next { checked with fault := 2, op := 6 } := rfl

/-- V59. -/
theorem test_init_clears_transport_error : exec .init { checked with fault := 2 } = .next (checked.accepted 1) := rfl

/-! ### One step of an operation -/

/-- P2: LOADFILL. -/
theorem test_loadfill : runMicroOp (.loadfill 0x07E0 1 1 3 2) idle =
    { idle with color := 0x07E0, xs := 1, ys := 1, xe := 3, ye := 2, pixcnt := 6, stg := 1 } := by decide +kernel

/-- V33, V34, V37: the corner wraps modulo `2^16`; V39: the count does not. -/
theorem test_corners_and_count : corner 0 0 = 0xFFFF ∧ corner 0xFFFE 4 = 0x0001 ∧ corner 0xFFFF 2 = 0x0000 ∧
    pixelCount 65535 65535 = 0xFFFE0001 := by decide

/-- P2: the bytes of `WIN` after LOADFILL. -/
theorem test_win_bytes : winBytes Config.tiny 1 1 3 2 = [0x2A, 0x04, 0x00, 0x00, 0x00, 0x00, 0x00, 0x01, 0x00, 0x03,
    0x2B, 0x04, 0x00, 0x00, 0x00, 0x00, 0x00, 0x01, 0x00, 0x02, 0xFF] := by decide

/-- P5: RUNCMD at 0x0020 fetches the descriptor there. -/
theorem test_fetch_descriptor :
    step { withExt (running idle 5 .fetch) 0x20 colmodBytes with src := .ext, sp := 0x20 } =
      .next { withExt (running idle 5 .cmd) 0x20 colmodBytes with
        src := .ext, sp := 0x20, opc := 0x3A, len := 1, dlyv := 10 } := by rfl

/-- P5: RUNCMD at 0x0010 finds the sentinel; one end of the micro-operation, `SP` stays. -/
theorem test_fetch_sentinel :
    step { withExt (running idle 5 .fetch) 0x10 [0xFF] with src := .ext, sp := 0x10 } =
      .next { withExt (running idle 5 .dispatch) 0x10 [0xFF] with src := .ext, sp := 0x10, opc := 0xFF, stg := 1 } := by
  rfl

/-- R56: a fetch at the top of `EXT` wraps; bits of the address above `SEQ_AW - 1` are ignored. -/
theorem test_ext_address_wraps : { withExt idle 0 [0x77] with cfg := { Config.tiny with seqAw := 8 } }.byteAt .ext 0x12FF 1 =
    .ok 0x77 := by rfl

/-- P2: the first burst of four pixel words. -/
theorem test_pix_burst :
    step { running idle 8 .pix with cfg := { Config.tiny with fillBurst := 4 }, color := 0x07E0, pixcnt := 6 } =
      .next { running idle 8 .pix with
        cfg := { Config.tiny with fillBurst := 4 }, color := 0x07E0, pixcnt := 2
        trace := [⟨.tData [0x07, 0xE0, 0x07, 0xE0, 0x07, 0xE0, 0x07, 0xE0], .ok⟩] } := by rfl

/-- V62: the transport answers `fail`. -/
theorem test_failed_command :
    step { running checked 2 .cmd with opc := 0x01, dlyv := 5, answers := [.fail] } =
      .next { checked with
        op := 2, opc := 0x01, dlyv := 5, fault := 2, trace := [⟨.tCmd 0x01, .fail⟩], faultLog := [2] } := by rfl

/-- R39: `SP` after V12's first descriptor. -/
theorem test_advance : nextSp 0x0020 1 = 0x0027 ∧ nextSp 0xFFFF 255 = 0x0104 := by decide

/-! ### The functions -/

/-- V20 and V22: SETWIN's five transactions in REF. -/
theorem test_set_window : setWindow Config.ref 10 20 49 59 = [.tCmd 0x2A, .tData [0x00, 0x0A, 0x00, 0x31],
      .tCmd 0x2B, .tData [0x00, 0x14, 0x00, 0x3B], .tCmd 0x2C] ∧
    setWindow Config.ref 0x1234 0xABCD 0x5678 0xEF01 = [.tCmd 0x2A, .tData [0x12, 0x34, 0x56, 0x78],
      .tCmd 0x2B, .tData [0xAB, 0xCD, 0xEF, 0x01], .tCmd 0x2C] := by decide +kernel

/-- V30: FILL's transactions in REF. -/
theorem test_fill_area : fillArea Config.ref 0xF800 0 0 2 2 = [.tCmd 0x2A, .tData [0x00, 0x00, 0x00, 0x01],
      .tCmd 0x2B, .tData [0x00, 0x00, 0x00, 0x01], .tCmd 0x2C, .tData [0xF8, 0x00], .tData [0xF8, 0x00],
      .tData [0xF8, 0x00], .tData [0xF8, 0x00]] := by decide +kernel

/-- V39b: CLEAR of TINY in bursts of five: 10, 10 and 4 bytes. -/
theorem test_clear_bursts : (pixelTxns { Config.tiny with fillBurst := 5 } 0x07E0 12 12).map
    (fun t => (dataStream [t]).length) = [10, 10, 4] := by decide +kernel

/-- R115's example. -/
theorem test_exec_desc : execDesc Config.tiny colmodDesc = [.tCmd 0x3A, .tData [0x55], .tDelay 10] := by decide

/-- P3: the 45 transactions of INIT in TINY, first and last. -/
theorem test_init_transactions :
    ((sequenceOf Config.tiny romTinyOne).bind fun one => (sequenceOf Config.tiny (romTwo 0x07)).map fun two =>
      ((initTxns Config.tiny one two).length, (initTxns Config.tiny one two).head?,
        (initTxns Config.tiny one two).getLast?)) = some (45, some .tInit, some (.tCmd 0x2C)) := by decide +kernel

/-- V12, V16, V31, V45, P5: the spec's counts of steps, each with the one that completes. -/
theorem test_step_counts : runStepCount Config.tiny [colmodDesc, ⟨0x29, 0, []⟩] + 1 = 11 ∧
    oneStepCount Config.ref ⟨0x01, 150, []⟩ + 1 = 6 ∧ fillStepCount Config.tiny 6 + 1 = 24 ∧
    fillStepCount { Config.tiny with fillBurst := 4 } 6 + 1 = 20 ∧ oneStepCount Config.tiny colmodDesc + 1 = 7 := by
  decide

/-! ### Witnesses: encodings -/

theorem witness_OperationCodeIsTheLowFourBits : (0x1238 : U16).extractLsb' 0 4 = (0x0008 : U16).extractLsb' 0 4 := by
  decide

/-- Format H; a generic command with no payload and the longest delay; a named one with 255 bytes; the sentinel. -/
theorem witness_EncodedInstructionsDecodeToThemselves : Config.tiny.namedDistinct = true ∧
    (Instr.fill.wf Config.tiny = true ∧ encode Config.tiny .fill = .host 8) ∧
    (Instr.wf Config.tiny (.cmd 0x00 0xFFFFFFFF []) = true ∧
      encode Config.tiny (.cmd 0x00 0xFFFFFFFF []) = .desc [0x00, 0x00, 0xFF, 0xFF, 0xFF, 0xFF]) ∧
    (Instr.wf Config.tiny (.cmdRamwr 0 (List.replicate 255 0xFF)) = true ∧
      encode Config.tiny (.cmdRamwr 0 (List.replicate 255 0xFF)) =
        .desc ([0x2C, 0xFF, 0x00, 0x00, 0x00, 0x00] ++ List.replicate 255 0xFF)) ∧
    (Instr.sentinel.wf Config.tiny = true ∧ encode Config.tiny .sentinel = .desc [0xFF]) := by decide +kernel

/-- Each direction: a record with the longest payload; the sentinel's byte and a command's bytes. -/
theorem witness_DescriptorRecordAndBytesAgree : Desc.wf Config.tiny ⟨0x2C, 0, List.replicate 255 0xFF⟩ = true ∧
    decodeBytes Config.tiny [0xFF, 0x01] = .ok (.sentinel, [0x01]) ∧
    decodeBytes Config.tiny colmodBytes = .ok (.cmdColmod 10 [0x55], []) := ⟨by decide +kernel, rfl, rfl⟩

/-- A sequence of one descriptor, and the empty one, each followed by a byte. -/
theorem witness_WellFormedSequenceHasOneReading :
    ((∀ d ∈ [colmodDesc], d.wf Config.tiny = true) ∧
      encSeq Config.tiny [colmodDesc] ++ [0x01] = encSeq Config.tiny [colmodDesc] ++ [0x01]) ∧
    ((∀ d ∈ ([] : List Desc), d.wf Config.tiny = true) ∧
      encSeq Config.tiny [] ++ [0x01] = encSeq Config.tiny [] ++ [0x01]) := by
  refine ⟨⟨?_, rfl⟩, ⟨?_, rfl⟩⟩ <;> decide

/-! ### Witnesses: reset and the host interface -/

/-- Between two steps; while a pixel transaction is outstanding: not completed, completed without `TERR`, completed with a
failure under `TERR`; in a step that presents no transaction. -/
theorem witness_HardwareResetLeavesTheBlockIdle :
    let move (time : ResetTime) := HostMove.hardReset time junk
    let inPix (s : State) (time : ResetTime) := withMove { running s 8 .pix with pixcnt := 3 } (move time)
    (withMove idle (move .betweenSteps)).host = move .betweenSteps :: [] ∧
    (inPix idle (.whileOutstanding none)).host = move (.whileOutstanding none) :: [] ∧
    ((inPix idle (.whileOutstanding (some .ok))).host = move (.whileOutstanding (some .ok)) :: [] ∧
      (inPix idle (.whileOutstanding (some .ok))).outstanding = some (.tData [0x00, 0x00])) ∧
    ((inPix checked (.whileOutstanding (some .fail))).host = move (.whileOutstanding (some .fail)) :: [] ∧
      (inPix checked (.whileOutstanding (some .fail))).cfg.terr = true ∧
      (inPix checked (.whileOutstanding (some .fail))).outstanding = some (.tData [0x00, 0x00])) ∧
    ((withMove (running idle 8 .adv) (move (.whileOutstanding (some .ok)))).outstanding = none) := by decide +kernel

theorem witness_IdleBlockDoesNothing : idle.ph = .idle ∧ idle.host = [] := ⟨rfl, rfl⟩

/-- A read; writes while busy to `OPREG` and to the last argument; writes while idle to the first and the last argument, with
a fault latched; a write to `STATUS`. -/
theorem witness_HostAccessReadsAnyTimeAndWritesOnlyWhenIdle :
    (withMove idle (.read .status)).host = .read .status :: [] ∧
    ((withMove (running idle 8 .pix) (.write .opreg 1)).busy = true ∧
      (withMove (running idle 8 .pix) (.write .opreg 1)).host = .write .opreg 1 :: []) ∧
    ((withMove (running idle 8 .pix) (.write (.arg 4) 1)).busy = true ∧
      (withMove (running idle 8 .pix) (.write (.arg 4) 1)).host = .write (.arg 4) 1 :: []) ∧
    ((withMove { idle with fault := 2 } (.write (.arg 0) 1)).busy = false ∧
      (withMove { idle with fault := 2 } (.write (.arg 0) 1)).host = .write (.arg 0) 1 :: []) ∧
    (withMove idle (.write .status 1)).host = .write .status 1 :: [] := by decide +kernel

/-- Case (a) at codes 0 and 15, and INIT left out of it; case (b) at codes 0, 10 and 15; case (c) for a window and a region one
column too wide; case (d) for the same one column to the left, and for codes 1 and 9. -/
theorem witness_WriteToOpregDoesTheFirstCaseThatApplies : checked.busy = false ∧
    (({ checked with fault := 2 } : State).fault = 2 ∧ ((0x0000 : U16).extractLsb' 0 4).toNat ≠ 1 ∧
      ((0x000F : U16).extractLsb' 0 4).toNat ≠ 1 ∧ ((0x0001 : U16).extractLsb' 0 4).toNat = 1) ∧
    (((0x0000 : U16).extractLsb' 0 4).toNat = 0 ∧ 10 ≤ ((0x000A : U16).extractLsb' 0 4).toNat ∧
      10 ≤ ((0x000F : U16).extractLsb' 0 4).toNat) ∧
    (checked.cfg.geomCheck = true ∧ ((0x0007 : U16).extractLsb' 0 4).toNat = 7 ∧
      ¬ ((withArgs checked 0 0 4 2 0).args[2].toNat < checked.cfg.panelW)) ∧
    (((0x0008 : U16).extractLsb' 0 4).toNat = 8 ∧ ¬ ((withArgs checked 0 3 0 2 1).args[1].toNat +
      (withArgs checked 0 3 0 2 1).args[3].toNat - 1 < checked.cfg.panelW)) ∧
    (windowInside checked.cfg 0 0 3 2 = true ∧ regionInside checked.cfg 2 0 2 1 = true) ∧
    (1 ≤ ((0x0001 : U16).extractLsb' 0 4).toNat ∧ ((0x0009 : U16).extractLsb' 0 4).toNat ≤ 9) := by decide +kernel

/-- With and without a latched TransportError, and with another fault latched. -/
theorem witness_UncheckedOperationsAreAccepted : ({ checked with fault := 2 } : State).busy = false ∧ idle.busy = false ∧
    idle.fault ≠ 2 ∧ ({ idle with fault := 3 } : State).fault ≠ 2 := by decide +kernel

theorem witness_ReservedCodesRaiseIllegalOp : ({ idle with fault := 1 } : State).busy = false ∧
    ({ idle with fault := 1 } : State).fault ≠ 2 ∧ ((0xFFF0 : U16).extractLsb' 0 4).toNat = 0 ∧
    10 ≤ ((0x000A : U16).extractLsb' 0 4).toNat ∧ 10 ≤ ((0x000F : U16).extractLsb' 0 4).toNat := by decide +kernel

/-- The check on: the last window and region that lie on REF's panel, and the first that do not. The check off. -/
theorem witness_GeometryCheckGuardsSetwinAndFillOnly :
    let s := withArgs checkedRef 239 319 239 319 0
    let f := withArgs checkedRef 0xF800 239 319 1 1
    (s.busy = false ∧ s.fault ≠ 2 ∧ s.cfg.geomCheck = true ∧ s.args[0].toNat ≤ s.args[2].toNat ∧
      s.args[2].toNat < s.cfg.panelW ∧ s.args[1].toNat ≤ s.args[3].toNat ∧ s.args[3].toNat < s.cfg.panelH) ∧
    ¬ (withArgs checkedRef 239 319 240 319 0).args[2].toNat < checkedRef.cfg.panelW ∧
    (1 ≤ f.args[3].toNat ∧ 1 ≤ f.args[4].toNat ∧ f.args[1].toNat + f.args[3].toNat - 1 < f.cfg.panelW ∧
      f.args[2].toNat + f.args[4].toNat - 1 < f.cfg.panelH) ∧
    ¬ 1 ≤ (withArgs checkedRef 0xF800 239 319 0 1).args[3].toNat ∧ idle.cfg.geomCheck = false := by decide +kernel

/-- With a TransportError latched and a code that is not INIT; with IllegalOp latched. -/
theorem witness_TransportErrorTurnsAwayAllButInit : ({ checked with fault := 2 } : State).busy = false ∧
    ({ checked with fault := 2 } : State).fault = 2 ∧ Instr.reserved0.format = .h ∧ Instr.reserved0 ≠ .init ∧
    ({ checked with fault := 3 } : State).fault ≠ 2 := by decide +kernel

/-- Format H; a command; the sentinel. -/
theorem witness_InstructionStepsKeepTheirFrame :
    (Instr.fill.format = .h ∧ exec .fill idle = .next (idle.accepted 8)) ∧
    ((Instr.cmdDispon 5 []).format = .d ∧
      exec (.cmdDispon 5 []) idle = .next { idle with opc := 0x29, dlyv := 5, ph := .cmd }) ∧
    (Instr.sentinel.format = .d ∧
      exec .sentinel idle = .next { idle with opc := 0xFF, stg := 1, ph := .dispatch }) :=
  ⟨⟨rfl, rfl⟩, ⟨rfl, rfl⟩, ⟨rfl, rfl⟩⟩

/-! ### Witnesses: the step -/

/-- A write to `OPREG`; no move; `pass`; `awaitIdle` with the block busy, and with it idle. -/
theorem witness_StepRunsTheWrittenOperation :
    (withMove idle (.write .opreg 0x1238)).host = .write .opreg 0x1238 :: [] ∧ idle.host = [] ∧
    (withMove (idle.accepted 8) .pass).host = .pass :: [] ∧
    ((withMove (idle.accepted 8) .awaitIdle).host = .awaitIdle :: [] ∧ (withMove (idle.accepted 8) .awaitIdle).busy = true ∧
      blockStep (withMove (idle.accepted 8) .awaitIdle) =
        .next { withMove (idle.accepted 8) .awaitIdle with xe := 0xFFFF, ye := 0xFFFF, stg := 1 }) ∧
    ((withMove idle .awaitIdle).host = .awaitIdle :: [] ∧ (withMove idle .awaitIdle).busy = false) :=
  ⟨rfl, rfl, rfl, ⟨rfl, rfl, rfl⟩, ⟨rfl, rfl⟩⟩

/-- P5's descriptor, fetched from `EXT`; and the sentinel of `WIN`. -/
theorem witness_DescriptorBytesInASpaceAreFetched :
    let s := { withExt (running idle 5 .fetch) 0x20 colmodBytes with src := .ext, sp := 0x20 }
    let w := { running idle 7 .fetch with src := .win, sp := 20 }
    (s.host = [] ∧ s.ph = .fetch ∧ decodeBytes s.cfg colmodBytes = .ok (.cmdColmod 10 [0x55], []) ∧
      ∀ (k : Nat) (b : Byte), colmodBytes[k]? = some b → s.byteAt s.src s.sp k = .ok b) ∧
    (w.host = [] ∧ w.ph = .fetch ∧ decodeBytes w.cfg [0xFF] = .ok (.sentinel, []) ∧
      ∀ (k : Nat) (b : Byte), [(0xFF : Byte)][k]? = some b → w.byteAt w.src w.sp k = .ok b) :=
  ⟨⟨rfl, rfl, rfl, entries_of_all _ (by decide +kernel)⟩, ⟨rfl, rfl, rfl, entries_of_all _ (by decide +kernel)⟩⟩

/-- Completion; TINIT with an answer to come; LOADWIN, LOADFILL, RUN, ONE and PIX, each in an operation that has it. -/
theorem witness_DispatchRunsTheMicroOperationAtStg :
    let stage (op : BitVec 4) (stg : BitVec 3) : State := { running idle op .dispatch with stg := stg }
    let t := { running checked 1 .dispatch with answers := [.ok] }
    ((stage 2 1).microOps = some [.one .ctl 6] ∧ (stage 2 1).stg.toNat = [MicroOp.one .ctl 6].length) ∧
    ((t.microOps.getD [])[t.stg.toNat]? = some .tinit ∧ t.answers.take 1 = List.replicate 1 .ok) ∧
    ((stage 7 0).microOps.getD [])[0]? = some (.loadwin 0 0 0 0) ∧
    ((stage 8 0).microOps.getD [])[0]? = some (.loadfill 0 0 0 0 0) ∧
    ((stage 7 1).microOps.getD [])[1]? = some (.run .win 0) ∧ ((stage 7 2).microOps.getD [])[2]? = some (.one .ctl 0) ∧
    ((stage 8 3).microOps.getD [])[3]? = some .pix := by decide +kernel

/-- Both forms of INIT, a code of each range, the ends of the reserved ranges. -/
theorem witness_MicroOperationListsAreThoseOfTheTable : ({ idle with op := 1 } : State).op = 1 ∧
    idle.cfg.initCallsTinit = true ∧
    (State.resetWith { Config.tiny with initCallsTinit := false }).cfg.initCallsTinit = false ∧
    idle.op = 0 ∧ ({ idle with op := 9 } : State).op = 9 ∧ 10 ≤ ({ idle with op := 10 } : State).op.toNat ∧
    10 ≤ ({ idle with op := 15 } : State).op.toNat := by decide +kernel

/-- A payload; a delay alone; neither. -/
theorem witness_CommandPhaseSendsTheOpcode :
    let s := running idle 6 .cmd
    s.host = [] ∧ s.ph = .cmd ∧ s.cfg.terr = false ∧ ({ s with len := 1 } : State).len ≠ 0 ∧
      (({ s with dlyv := 1 } : State).len = 0 ∧ ({ s with dlyv := 1 } : State).dlyv ≠ 0) ∧
      (s.len = 0 ∧ s.dlyv = 0) := by decide +kernel

/-- P5's payload, with its delay and with none. -/
theorem witness_DataPhaseSendsThePayloadAsOneTransaction :
    let s := { withExt (running idle 5 .data) 0x20 colmodBytes with src := .ext, sp := 0x20, len := 1, dlyv := 10 }
    s.host = [] ∧ s.ph = .data ∧ s.cfg.terr = false ∧ [(0x55 : Byte)].length = s.len.toNat ∧
      (∀ (k : Nat) (b : Byte), [(0x55 : Byte)][k]? = some b → s.byteAt s.src s.sp (6 + k) = .ok b) ∧
      s.dlyv ≠ 0 ∧ ({ s with dlyv := 0 } : State).dlyv = 0 :=
  ⟨rfl, rfl, rfl, rfl, entries_of_all _ (by decide +kernel), by decide +kernel, rfl⟩

theorem witness_DelayPhaseSendsTheDelay :
    let s := { running checked 6 .dly with dlyv := 7, answers := [.ok, .fail] }
    s.host = [] ∧ s.ph = .dly ∧ s.answers.take 1 = List.replicate 1 .ok := by decide +kernel

theorem witness_AdvancePhaseMovesPastTheDescriptor :
    let s := running idle 6 .adv
    s.host = [] ∧ s.ph = .adv ∧ s.mode = .one ∧ ({ s with mode := .run, sp := 0xFFFF, len := 0xFF } : State).mode = .run := by
  decide +kernel

/-- No pixel left; one left. -/
theorem witness_PixelPhaseSendsOneBurst :
    let s := running idle 8 .pix
    s.host = [] ∧ s.ph = .pix ∧ s.pixcnt = 0 ∧ ({ s with pixcnt := 1 } : State).pixcnt ≠ 0 ∧ s.cfg.terr = false := by
  decide +kernel

/-! ### Witnesses: faults, frames, memory -/

/-- From the idle phase: a step that does nothing, and a host's write to `OPREG`. -/
theorem witness_RaisingAFaultChangesOnlyFlagsAndPhase : idle.ph = .idle ∧ step idle = .next idle ∧
    step (withMove idle (.write .opreg 2)) = .next (idle.accepted 2) := ⟨rfl, rfl, rfl⟩

/-- V62's failing command; no `TERR`, and an answer `ok`; an answer in the queue. -/
theorem witness_FailedAnswerEndsTheOperation :
    let s := { running checked 2 .cmd with opc := 0x01, answers := [.fail] }
    s.host = [] ∧ s.outstanding = some (.tCmd 0x01) ∧ s.nextAnswer = .fail ∧ s.cfg.terr = true ∧ s.answers = .fail :: [] ∧
      (running idle 2 .cmd).outstanding = some (.tCmd 0x00) ∧ (running idle 2 .cmd).cfg.terr = false ∧
      (running idle 2 .cmd).nextAnswer = .ok := by decide +kernel

/-- A step that raises no fault, and one that raises one. -/
theorem witness_AStepRaisesAtMostOneFault : step idle = .next idle ∧
    step (withMove idle (.write .opreg 12)) = .next (idle.turnedAway 12 3) := ⟨rfl, rfl⟩

theorem witness_DefaultConfigurationRaisesOnlyIllegalOp :
    let s := withMove idle (.write .opreg 0x000F)
    s.cfg.geomCheck = false ∧ s.cfg.terr = false ∧ step s = .next (idle.turnedAway 15 3) := ⟨rfl, rfl, rfl⟩

/-- A step that emits nothing, and one that emits. -/
theorem witness_AStepEmitsAtMostOneTransaction : step idle = .next idle ∧
    step { running idle 6 .cmd with opc := 0x29 } =
      .next { running idle 6 .adv with opc := 0x29, trace := [⟨.tCmd 0x29, .ok⟩] } := ⟨rfl, rfl⟩

/-- No host move; a store; a host that reads while the block is busy. -/
theorem witness_OnlyTheHostWritesMemoryAndArguments :
    let s := withMove idle (.storeExt 0xFFFF 0x12)
    let r := withMove (running idle 8 .pix) (.read .status)
    (idle.ext.wf = true ∧ step idle = .next idle ∧ idle.host = []) ∧
    (s.ext.wf = true ∧ s.host = .storeExt 0xFFFF 0x12 :: [] ∧ step s = .next { idle with ext := [(0xFFFF, 0x12)] }) ∧
    (r.busy = true ∧ ∀ time residue rest, r.host ≠ .hardReset time residue :: rest) := by
  refine ⟨⟨rfl, rfl, rfl⟩, ⟨rfl, rfl, rfl⟩, ⟨rfl, ?_⟩⟩
  intro time residue rest h
  injection h with h _
  cases h

/-- The last address of `EXT`, and the first beyond it. -/
theorem witness_StoredBytesAreReadBack :
    let s := withMove idle (.storeExt 0xFFFF 0x12)
    let r := withMove idle (.storeExt 0x10000 0x12)
    (s.ext.wf = true ∧ s.host = .storeExt 0xFFFF 0x12 :: [] ∧ s.busy = false ∧ 0xFFFF < 2 ^ s.cfg.seqAw) ∧
    (r.host = .storeExt 0x10000 0x12 :: [] ∧ 2 ^ r.cfg.seqAw ≤ 0x10000) := by decide +kernel

/-- The first store of an operation, at address 0, and a second one, to the same byte; a step of the block. -/
theorem witness_ARacingStoreIsReadAsOldOrNew :
    let s := withMove (running idle 6 .fetch) (.storeExt 0 0x12)
    let r := { s with ext := [(0, 0x34)], extStale := [(0, 0x00)], extRaces := 1 }
    (s.ext.wf = true ∧ s.host = .storeExt 0 0x12 :: [] ∧ s.busy = true ∧ 0 < 2 ^ s.cfg.seqAw) ∧
    (r.ext.wf = true ∧ r.host = .storeExt 0 0x12 :: [] ∧ r.busy = true ∧ 0 < 2 ^ r.cfg.seqAw ∧
      0x00 ∈ staleBytes r.extStale 0) ∧
    ((idle.accepted 8).busy = true ∧ (∀ a b rest, (idle.accepted 8).host ≠ .storeExt a b :: rest) ∧
      step (idle.accepted 8) = .next { idle.accepted 8 with xe := 0xFFFF, ye := 0xFFFF, stg := 1 }) :=
  ⟨by decide +kernel, by decide +kernel, rfl, nofun, rfl⟩

theorem witness_TheSentinelIsNeverTransmitted :
    let s := { running idle 6 .cmd with opc := 0x29, trace := [⟨.tCmd 0x11, .ok⟩] }
    ((s.ph = .cmd → s.opc ≠ s.cfg.opEnd) ∧ ∀ e ∈ s.trace, e.txn ≠ .tCmd s.cfg.opEnd) ∧
      step s = .next { running idle 6 .adv with opc := 0x29, trace := [⟨.tCmd 0x11, .ok⟩, ⟨.tCmd 0x29, .ok⟩] } :=
  ⟨by decide +kernel, rfl⟩

/-! ### Witnesses: descriptors and operations -/

/-- The longest payload under a generic opcode; a named opcode. -/
theorem witness_CommandFetchLoadsTheHeader :
    ((Instr.cmd 0xE0 0 (List.replicate 255 1)).toDesc Config.tiny = some ⟨0xE0, 0, List.replicate 255 1⟩ ∧
      Desc.wf Config.tiny ⟨0xE0, 0, List.replicate 255 1⟩ = true) ∧
    ((Instr.cmdColmod 10 [0x55]).toDesc Config.tiny = some colmodDesc ∧ colmodDesc.wf Config.tiny = true) := by
  decide +kernel

/-- P5's descriptor, singly, and with `TERR` in a run, with three answers to come. -/
theorem witness_CommandDescriptorsAreCarriedOut :
    let s := { withExt (running idle 5 .fetch) 0x20 colmodBytes with src := .ext, sp := 0x20 }
    let r := { withExt (running checked 6 .fetch) 0x20 colmodBytes with
      src := .ext, sp := 0x20, mode := .run, answers := [.ok, .ok, .ok] }
    ((Instr.cmdColmod 10 [0x55]).toDesc s.cfg = some colmodDesc ∧ colmodDesc.wf s.cfg = true ∧ s.host = [] ∧
      s.extStale = [] ∧ s.cfg.terr = false ∧ s.mode = .one ∧
      ∀ (k : Nat) (b : Byte), colmodDesc.enc[k]? = some b → s.byteAt s.src s.sp k = .ok b) ∧
    ((Instr.cmdColmod 10 [0x55]).toDesc r.cfg = some colmodDesc ∧ r.mode = .run ∧
      r.answers.take (execDesc r.cfg colmodDesc).length = List.replicate (execDesc r.cfg colmodDesc).length .ok ∧
      ∀ (k : Nat) (b : Byte), colmodDesc.enc[k]? = some b → r.byteAt r.src r.sp k = .ok b) :=
  ⟨⟨rfl, rfl, rfl, rfl, rfl, rfl, entries_of_all _ (by decide +kernel)⟩,
    ⟨rfl, rfl, rfl, entries_of_all _ (by decide +kernel)⟩⟩

/-- TINY: RESET and DISPON with their delays, DISPOFF with none. -/
theorem witness_PanelControlOperationsComplete : (idle.busy = false ∧ idle.fault ≠ faultTransportError) ∧ idle.host = [] ∧
    idle.cfg.sentinelApart = true ∧ idle.cfg.terr = false ∧ idle.cfg.resetDelayMs ≠ 0 ∧ idle.cfg.disponDelayMs ≠ 0 ∧
    idle.cfg.dispoffDelayMs = 0 := by decide +kernel

/-- The full panel, checked, with `TERR` and five answers to come. -/
theorem witness_SetwinSendsItsFiveTransactions :
    let s := { withArgs checked 0 0 3 2 0 with answers := List.replicate 5 .ok }
    (s.busy = false ∧ s.fault ≠ faultTransportError) ∧ s.host = [] ∧ s.cfg.sentinelApart = true ∧
      s.answers.take 5 = List.replicate 5 .ok ∧ s.cfg.geomCheck = true ∧
      windowInside s.cfg s.args[0] s.args[1] s.args[2] s.args[3] = true := by decide +kernel

/-- Checked: the last two columns of a row (P4 (2)). Unchecked: no pixel at all (V33). -/
theorem witness_FillStreamsItsPixels :
    let s := { withArgs checked 0xF800 2 0 2 1 with answers := List.replicate 7 .ok }
    let z := withArgs idle 0xFFFF 0 0 0 5
    ((s.busy = false ∧ s.fault ≠ faultTransportError) ∧ s.host = [] ∧ s.cfg.sentinelApart = true ∧ 1 ≤ s.cfg.fillBurst ∧
      regionInside s.cfg s.args[1] s.args[2] s.args[3] s.args[4] = true ∧
      s.answers.take (fillArea s.cfg s.args[0] s.args[1] s.args[2] s.args[3] s.args[4]).length =
        List.replicate (fillArea s.cfg s.args[0] s.args[1] s.args[2] s.args[3] s.args[4]).length .ok) ∧
    (z.cfg.geomCheck = false ∧ z.cfg.terr = false ∧ z.args[3].toNat * z.args[4].toNat = 0) := by decide +kernel

theorem witness_ClearIsAFillOfThePanel : (idle.busy = false ∧ idle.fault ≠ faultTransportError) ∧ idle.host = [] ∧
    idle.cfg.sentinelApart = true ∧ 1 ≤ idle.cfg.fillBurst ∧ 1 ≤ idle.cfg.panelW ∧ idle.cfg.panelW ≤ 65535 ∧
    1 ≤ idle.cfg.panelH ∧ idle.cfg.panelH ≤ 65535 ∧ idle.cfg.terr = false := by decide +kernel

/-- P5: the descriptor at 0x0020 and the sentinel at 0x0010. -/
theorem witness_RuncmdExecutesOneDescriptor :
    let s := withArgs (withExt idle 0x20 colmodBytes) 0x20 0 0 0 0
    let e := withArgs (withExt idle 0x10 [0xFF]) 0x10 0 0 0 0
    ((s.busy = false ∧ s.fault ≠ faultTransportError) ∧ s.host = [] ∧ colmodDesc.wf s.cfg = true ∧ s.cfg.terr = false ∧
      s.extHolds s.args[0] colmodDesc.enc) ∧
    ((e.busy = false ∧ e.fault ≠ faultTransportError) ∧ e.host = [] ∧ e.extHolds e.args[0] [e.cfg.opEnd]) :=
  ⟨⟨by decide +kernel, rfl, rfl, rfl, entries_of_all _ (by decide +kernel)⟩,
    ⟨by decide +kernel, rfl, entries_of_all _ (by decide +kernel)⟩⟩

/-- P5's descriptor and a sentinel, wrapped past the top of an `EXT` of 256 bytes; and the empty sequence. -/
theorem witness_RunseqRunsToTheSentinel :
    let s := { withArgs idle 0x12FE 0 0 0 0 with
      cfg := { Config.tiny with seqAw := 8 }
      ext := [(3, 0x0A), (4, 0x55), (5, 0xFF), (0xFE, 0x3A), (0xFF, 0x01)] }
    let e := withArgs (withExt idle 0x10 [0xFF]) 0x10 0 0 0 0
    (s.cfg.seqAw ≤ 16 ∧ (s.busy = false ∧ s.fault ≠ faultTransportError) ∧ s.host = [] ∧ s.cfg.terr = false ∧
      (∀ d ∈ [colmodDesc], d.wf s.cfg = true) ∧ s.extHolds s.args[0] (encSeq s.cfg [colmodDesc])) ∧
    ((∀ d ∈ ([] : List Desc), d.wf e.cfg = true) ∧ e.extHolds e.args[0] (encSeq e.cfg [])) :=
  ⟨⟨by decide, by decide +kernel, rfl, rfl, by decide +kernel, entries_of_all _ (by decide +kernel)⟩,
    by decide +kernel, entries_of_all _ (by decide +kernel)⟩

/-- TINY, with a TransportError latched; its tables are sequences. -/
theorem witness_InitBringsThePanelUp : ({ idle with fault := 2 } : State).busy = false ∧ idle.host = [] ∧
    idle.cfg.legal = true ∧ (sequenceOf idle.cfg idle.cfg.rom1).map List.length = some 10 ∧
    (sequenceOf idle.cfg idle.cfg.rom2).map List.length = some 5 ∧ idle.cfg.terr = false := by decide +kernel

/-! ### Witnesses: the functions and the machine -/

/-- The window-set sequence, in `WIN` at address 0. -/
theorem witness_RunSeqLoopIsTheListOfDescriptors :
    (∀ d ∈ windowDescs idle.cfg 0 0 0 0, d.wf idle.cfg = true) ∧
    (∀ (k : Nat) (b : Byte) (p : U16) (off : Nat), (encSeq idle.cfg (windowDescs idle.cfg 0 0 0 0))[k]? = some b →
      (p.toNat + off) % 2 ^ 16 = ((0 : U16).toNat + k) % 2 ^ 16 → idle.byteAt .win p off = .ok b) := by
  refine ⟨by decide +kernel, fun k b p off hk hp => ?_⟩
  have h : ∀ (k : Nat) (b : Byte), (encSeq idle.cfg (windowDescs idle.cfg 0 0 0 0))[k]? = some b →
      listByte (winBytes idle.cfg 0 0 0 0) (((0 : U16).toNat + k) % 2 ^ 16) = .ok b :=
    entries_of_all _ (by decide +kernel)
  exact (congrArg (listByte (winBytes idle.cfg 0 0 0 0)) hp).trans (h k b hk)

theorem witness_PixelStreamDoesNotDependOnTheBurst : 1 ≤ Config.tiny.fillBurst := by decide

/-- The idle block, and one that has just accepted FILL. -/
theorem witness_EveryStepKeepsTheInvariant : (idle.Inv ∧ step idle = .next idle) ∧
    ((idle.accepted 8).Inv ∧ step (idle.accepted 8) =
      .next { idle.accepted 8 with xe := 0xFFFF, ye := 0xFFFF, stg := 1 }) := by
  refine ⟨⟨?_, rfl⟩, ⟨?_, rfl⟩⟩
  · exact {
      cfgLegal := test_tiny_legal, extWf := rfl, extBelow := rfl, busyIff := rfl, busyClear := nofun, doneClear := nofun
      faultCode := by decide, running := fun h => absurd rfl h, pc := nofun, header := nofun, dataPhase := nofun
      dlyPhase := nofun, advPhase := nofun, traceLegal := nofun, traceData := rfl }
  · exact {
      cfgLegal := test_tiny_legal, extWf := rfl, extBelow := rfl, busyIff := rfl, busyClear := fun _ => ⟨rfl, rfl⟩
      doneClear := nofun, faultCode := by decide
      running := fun _ => ⟨fillOps 0 0 0 0 0, rfl, by decide, nofun, nofun, nofun⟩
      pc := nofun, header := nofun, dataPhase := nofun, dlyPhase := nofun, advPhase := nofun, traceLegal := nofun
      traceData := rfl }

/-- The last address of `EXT`; the invariant is that of the theorem before. -/
theorem witness_TheMachineNeverGetsStuck : idle.Inv ∧ idle.hostInExt ∧
    (withMove idle (.storeExt 0xFFFF 1)).hostInExt := by
  refine ⟨witness_EveryStepKeepsTheInvariant.1.1, nofun, ?_⟩
  rintro a b rest h
  injection h with h _
  injection h with h _
  subst h
  decide

theorem witness_UnspecifiedRegistersAreNeverObserved : idle.ph = .idle ∧ idle.busy = false ∧ idle.scramble junk ≠ idle := by
  decide +kernel

/-- An `EXT` of 16 bytes with the sentinel 0x00: a loop of two descriptors of 8 bytes, their delays and payloads full of
sentinel bytes. -/
theorem witness_RunWithoutSentinelNeverEnds :
    let s := { idle with
      cfg := { Config.tiny with opEnd := 0x00, seqAw := 4 }, ext := [(0, 0x29), (1, 2), (8, 0x28), (9, 2)] }
    (s.busy = false ∧ s.fault ≠ faultTransportError) ∧ s.host = [] ∧
      ∀ k, s.ext.read ((s.runPosition k).toNat % 2 ^ s.cfg.seqAw) ≠ s.cfg.opEnd := by
  intro s
  have h : ∀ k, (s.runPosition k).toNat % 16 = 0 ∨ (s.runPosition k).toNat % 16 = 8 := by
    intro k
    induction k with
    | zero => exact .inl rfl
    | succ k ih =>
      have e : (s.runPosition (k + 1)).toNat =
          ((s.runPosition k).toNat + 6 + (s.ext.read (((s.runPosition k).toNat + 1) % 16)).toNat) % 2 ^ 16 := by
        simp [State.runPosition, nextSp, s, Config.tiny]
      have l : (s.ext.read (((s.runPosition k).toNat + 1) % 16)).toNat = 2 := by
        rcases ih with ih | ih
        · rw [show ((s.runPosition k).toNat + 1) % 16 = 1 by omega]
          rfl
        · rw [show ((s.runPosition k).toNat + 1) % 16 = 9 by omega]
          rfl
      omega
  refine ⟨by decide +kernel, rfl, fun k => ?_⟩
  have e : (s.runPosition k).toNat % 2 ^ s.cfg.seqAw = (s.runPosition k).toNat % 16 := rfl
  rcases h k with h | h <;> rw [e, h] <;> decide +kernel

/-- FILL and INIT, accepted; RUNCMD and RUNSEQ over P5's descriptor and its sentinel; RUNCMD at the sentinel. -/
theorem witness_AnOperationEmitsABeginningOfItsFunction : idle.cfg.legal = true ∧ idle.busy = false ∧ idle.host = [] ∧
    (exec .fill idle = .next (idle.accepted 8) ∧ (idle.accepted 8).busy = true ∧
      runSteps 0 (idle.accepted 8) = .next (idle.accepted 8)) ∧
    (exec .init idle = .next (idle.accepted 1) ∧ (sequenceOf idle.cfg idle.cfg.rom1).isSome = true ∧
      (sequenceOf idle.cfg idle.cfg.rom2).isSome = true) ∧
    (let s := withArgs (withExt idle 0x20 (colmodBytes ++ [0xFF])) 0x20 0 0 0 0;
      exec .runcmd s = .next (s.accepted 5) ∧ exec .runseq s = .next (s.accepted 6) ∧ colmodDesc.wf s.cfg = true ∧
        s.extHolds s.args[0] colmodDesc.enc ∧ (∀ d ∈ [colmodDesc], d.wf s.cfg = true) ∧
        s.extHolds s.args[0] (encSeq s.cfg [colmodDesc])) ∧
    (let e := withArgs (withExt idle 0x10 [0xFF]) 0x10 0 0 0 0;
      exec .runcmd e = .next (e.accepted 5) ∧ e.extHolds e.args[0] [e.cfg.opEnd]) :=
  ⟨test_tiny_legal, rfl, rfl, ⟨rfl, rfl, rfl⟩, ⟨rfl, by decide +kernel, by decide +kernel⟩,
    ⟨rfl, rfl, rfl, entries_of_all _ (by decide +kernel), by decide +kernel, entries_of_all _ (by decide +kernel)⟩,
    ⟨rfl, entries_of_all _ (by decide +kernel)⟩⟩

/-- A run that ends while the block is busy; and the last step of an operation, after which it is idle. -/
theorem witness_AwaitingHostLeavesTheOperationUndisturbed :
    let s := idle.accepted 8
    let e := { running idle 2 .dispatch with stg := 1 }
    (s.host = [] ∧ runSteps 1 s = .next { s with xe := 0xFFFF, ye := 0xFFFF, stg := 1 } ∧
      ∀ (k : Nat) (u : State), k < 1 → runSteps k s = .next u → u.busy = true) ∧
    (e.host = [] ∧ runSteps 1 e = .next { e with busy := false, done := true, ph := .idle } ∧
      (∀ (k : Nat) (u : State), k < 1 → runSteps k e = .next u → u.busy = true) ∧
      ({ e with busy := false, done := true, ph := .idle } : State).busy = false) := by
  refine ⟨⟨rfl, rfl, ?_⟩, ⟨rfl, rfl, ?_, rfl⟩⟩ <;>
  · intro k u hk hu
    obtain rfl : k = 0 := by omega
    cases hu
    rfl

end Sys2Proof.Tests
end

/-! SUPPORT. Lists of bytes: what the decoder answers on them, and the parser of a table (R86 to R88). -/

namespace Sys2Proof

/-- A list begins with the bytes that it is read to hold from its front. -/
theorem prefix_of_listReader {ds bs : List Byte} (h : ∀ (k : Nat) b, ds[k]? = some b → listReader bs k = .ok b) :
    ds <+: bs := by
  refine List.prefix_iff_getElem?.2 (fun k hk => ?_)
  have hr := h k ds[k] (List.getElem?_eq_getElem hk)
  unfold listReader at hr
  split at hr
  · rename_i b hb
    cases hr
    exact hb
  · cases hr

/-- A list read from its front holds the lists that it begins with. -/
theorem listReader_append {ds rest : List Byte} (k : Nat) (b : Byte) (h : ds[k]? = some b) :
    listReader (ds ++ rest) k = .ok b := by
  obtain ⟨hk, -⟩ := List.getElem?_eq_some_iff.1 h
  simp [listReader, List.getElem?_append_left hk, h]

theorem classify_size (c : Config) (d : Desc) : (classify c d.opcode d.delay d.payload).size c = d.enc.length := by
  simp [Instr.size, classify_format, classify_toDesc]

theorem decodeBytes_enc {c : Config} {d : Desc} (hd : d.wf c = true) (rest : List Byte) :
    decodeBytes c (d.enc ++ rest) = .ok (classify c d.opcode d.delay d.payload, rest) := by
  rw [decodeBytes, decodeWith_enc hd (fun k b => listReader_append k b)]
  simp only [classify_size, List.drop_left]

theorem decodeBytes_sentinel (c : Config) (rest : List Byte) :
    decodeBytes c (c.opEnd :: rest) = .ok (.sentinel, rest) := by
  rw [decodeBytes, decodeWith_sentinel rfl]
  rfl

/-- Bytes that decode begin with the sentinel or with a descriptor's bytes, and the rest is left over (R85 to R87). -/
theorem decodeBytes_inv {c : Config} {bs rest : List Byte} {i : Instr} (h : decodeBytes c bs = .ok (i, rest)) :
    (i = .sentinel ∧ bs = c.opEnd :: rest) ∨
    ∃ d : Desc, d.wf c = true ∧ i.toDesc c = some d ∧ bs = d.enc ++ rest := by
  unfold decodeBytes at h
  split at h
  · cases h
  · rename_i j hj
    cases h
    rcases decodeWith_inv hj with ⟨rfl, h0⟩ | ⟨d, hd, rfl, hb⟩
    · obtain ⟨rest, rfl⟩ : [c.opEnd] <+: bs := by
        refine prefix_of_listReader (fun k b hk => ?_)
        cases k with
        | zero =>
          cases hk
          exact h0
        | succ k => cases hk
      exact .inl ⟨rfl, rfl⟩
    · refine .inr ⟨d, hd, classify_toDesc .., ?_⟩
      rw [classify_size]
      exact (List.prefix_iff_eq_append.1 (prefix_of_listReader hb)).symm

/-- One descriptor is parsed, then the rest of the table. -/
theorem parseSeq_enc {c : Config} {d : Desc} (hd : d.wf c = true) (fuel : Nat) (rest : List Byte) :
    parseSeq c (fuel + 1) (d.enc ++ rest) = (parseSeq c fuel rest).map (d :: ·) := by
  simp only [parseSeq, decodeBytes_enc hd, classify_toDesc]
  cases parseSeq c fuel rest <;> rfl

theorem parseSeq_sentinel (c : Config) (fuel : Nat) (rest : List Byte) :
    parseSeq c (fuel + 1) (c.opEnd :: rest) = if rest = [] then some [] else none := by
  simp only [parseSeq, decodeBytes_sentinel, Instr.toDesc]

/-- What the parser accepts is the encoding of what it answers (R88). -/
theorem parseSeq_sound {c : Config} {fuel : Nat} {bs : List Byte} {ds : List Desc}
    (h : parseSeq c fuel bs = some ds) : (∀ d ∈ ds, d.wf c = true) ∧ bs = encSeq c ds := by
  induction fuel generalizing bs ds with
  | zero => cases h
  | succ fuel ih =>
    cases hb : decodeBytes c bs with
    | error e => simp [parseSeq, hb] at h
    | ok r =>
      obtain ⟨i, rest⟩ := r
      rcases decodeBytes_inv hb with ⟨rfl, rfl⟩ | ⟨d, hd, -, rfl⟩
      · rw [parseSeq_sentinel, Option.ite_none_right_eq_some] at h
        obtain ⟨rfl, hds⟩ := h
        cases hds
        exact ⟨nofun, rfl⟩
      · rw [parseSeq_enc hd, Option.map_eq_some_iff] at h
        obtain ⟨es, hes, rfl⟩ := h
        obtain ⟨hw, rfl⟩ := ih hes
        exact ⟨List.forall_mem_cons.2 ⟨hd, hw⟩, (Machine.encSeq_cons c d es).symm⟩

/-- The parser accepts every encoded sequence, with fuel for each descriptor and the sentinel (R88). -/
theorem parseSeq_complete {c : Config} {fuel : Nat} {ds : List Desc} (hw : ∀ d ∈ ds, d.wf c = true)
    (hf : ds.length < fuel) : parseSeq c fuel (encSeq c ds) = some ds := by
  induction ds generalizing fuel with
  | nil =>
    obtain ⟨fuel, rfl⟩ := Nat.exists_eq_succ_of_ne_zero (Nat.ne_zero_of_lt hf)
    exact parseSeq_sentinel c fuel []
  | cons d ds ih =>
    obtain ⟨fuel, rfl⟩ := Nat.exists_eq_succ_of_ne_zero (Nat.ne_zero_of_lt hf)
    obtain ⟨hd, hw⟩ := List.forall_mem_cons.1 hw
    rw [Machine.encSeq_cons, parseSeq_enc hd, ih hw (by simpa using hf), Option.map_some]

/-- Every descriptor of a sequence takes a byte at least, and the sentinel one more (R86). -/
theorem length_lt_encSeq_length (c : Config) (ds : List Desc) : ds.length < (encSeq c ds).length := by
  induction ds with
  | nil => simp [encSeq]
  | cons d ds ih =>
    rw [Machine.encSeq_cons]
    simp only [List.length_cons, List.length_append, enc_length]
    omega

theorem sequenceOf_eq_some_iff (c : Config) (bs : List Byte) (ds : List Desc) :
    sequenceOf c bs = some ds ↔ (∀ d ∈ ds, d.wf c = true) ∧ bs = encSeq c ds := by
  refine ⟨parseSeq_sound, ?_⟩
  rintro ⟨hw, rfl⟩
  exact parseSeq_complete hw (length_lt_encSeq_length c ds)

/-- Settles O6: the parser is sound by induction on its fuel, complete by induction on the descriptors. -/
theorem tableParserAcceptsExactlySequences : Obligations.TableParserAcceptsExactlySequences :=
  sequenceOf_eq_some_iff

end Sys2Proof

/-! SUPPORT. What one step of the machine adds to the trace (R12, R34, R213). -/

namespace Sys2Proof.Machine

/-- A host move adds to the trace nothing, or, by a hardware reset, the transaction that was outstanding. -/
theorem hostStep_trace {m : HostMove} {s t : State} (hm : m ≠ .pass) (h : hostStep m s = .next t) :
    t.trace = s.trace ∨ ∃ e a, s.outstanding = some e ∧ t.trace = s.trace ++ [⟨e, a⟩] := by
  rcases hostStep_cases hm h with ⟨v, code, -, -, rfl | ⟨-, ⟨rfl, -⟩ | ⟨rfl, -⟩ | ⟨-, rfl⟩⟩⟩ | ⟨i, v, -, rfl⟩ |
    ⟨v, -, rfl⟩ | ⟨r, -, rfl⟩ | ⟨a, b, -, hs⟩ | ⟨-, rfl⟩ | ⟨time, r, -, rfl⟩
  case inr.inl =>
    unfold writeArg
    split <;> exact .inl rfl
  case inr.inr.inr.inr.inl =>
    rw [(hostStore_next hs).2]
    exact .inl rfl
  case inr.inr.inr.inr.inr.inr =>
    obtain ⟨-, -, -, -, -, -, -, ht⟩ := hardReset_effect time r s
    exact ht
  all_goals exact .inl rfl

theorem step_trace {s t : State} (h : step s = .next t) :
    t.trace = s.trace ∨ ∃ e a, s.outstanding = some e ∧ t.trace = s.trace ++ [⟨e, a⟩] := by
  rcases step_cases h with ⟨rest, -, hb⟩ | ⟨m, rest, -, hm, -, hs⟩
  · exact (blockStep_effect hb).1
  · exact hostStep_trace (s := { s with host := rest }) hm hs

/-- Settles O32, by the cases of a step: the block's own, and the host's moves. -/
theorem aStepEmitsAtMostOneTransaction : Obligations.AStepEmitsAtMostOneTransaction :=
  fun _ _ => step_trace

end Sys2Proof.Machine

/-! SUPPORT. What a legal configuration guarantees (R7), the lists of micro-operations (R33), and the rules of the
transport's boundary (R59, R60, R85) for one more transaction. -/

namespace Sys2Proof

/-! ### A legal configuration -/

theorem romLegal_inv {c : Config} {conforms : List Desc → Bool} {rom : List Byte}
    (h : romLegal c conforms rom = true) :
    rom.length ≤ 2 ^ 16 ∧ ∃ ds : List Desc, (∀ d ∈ ds, d.wf c = true) ∧ rom = encSeq c ds := by
  unfold romLegal at h
  rw [Bool.and_eq_true, decide_eq_true_eq] at h
  obtain ⟨hl, hm⟩ := h
  split at hm
  · rename_i ds hs
    exact ⟨hl, ds, (sequenceOf_eq_some_iff c rom ds).1 hs⟩
  · cases hm

/-- What the control of the block needs of a legal configuration. -/
theorem legal_inv {c : Config} (h : c.legal = true) :
    c.sentinelApart = true ∧ romLegal c (romOneConforms c) c.rom1 = true ∧
      romLegal c (romTwoConforms c) c.rom2 = true ∧ 1 ≤ c.fillBurst ∧ c.fillBurst ≤ 127 := by
  simp only [Config.legal, Bool.and_eq_true, decide_eq_true_eq] at h
  obtain ⟨⟨⟨⟨⟨⟨⟨-, hs⟩, h1⟩, h2⟩, hlo⟩, hhi⟩, -⟩, -⟩ := h
  exact ⟨hs, h1, h2, hlo, hhi⟩

namespace Machine

/-! ### The lists of micro-operations -/

/-- Where a micro-operation may send the program counter: a run over fixed contents starts at their first byte, a single
execution from `CTL` at one of its four descriptors, and over `EXT` both start anywhere (R33, R53). -/
def MicroOp.aimed : MicroOp → Prop
  | .run .rom1 a | .run .rom2 a | .run .win a => a = 0
  | .one .ctl a => a.toNat ∈ [0, 6, 12, 18]
  | .run .ctl _ | .one .rom1 _ | .one .rom2 _ | .one .win _ => False
  | .run .ext _ | .one .ext _ | .tinit | .loadwin _ _ _ _ | .loadfill _ _ _ _ _ | .pix => True

/-- The shape of every operation's list: `STG` can count it, PIX stands only after the memory-write of a window-set, and
every program counter is aimed at a descriptor. -/
theorem microOps_shape {s : State} {ops : List MicroOp} (h : s.microOps = some ops) :
    ops.length ≤ 7 ∧ ops.head? ≠ some .pix ∧
      ops.IsChain (fun u v => v = .pix → u = .one .ctl 0) ∧ ∀ u ∈ ops, u.aimed := by
  unfold State.microOps at h
  split at h
  case h_1 =>
    cases h
    unfold initOps clearOps fillOps windowSetOps
    split <;> simp [MicroOp.aimed]
  case h_10 => cases h
  all_goals
    cases h
    simp [clearOps, fillOps, windowSetOps, MicroOp.aimed]

theorem microOps_of_code {s : State} (h : 1 ≤ s.op.toNat ∧ s.op.toNat ≤ 9) : ∃ ops, s.microOps = some ops := by
  obtain ⟨hlo, hhi⟩ := h
  unfold State.microOps
  interval_cases s.op.toNat <;> exact ⟨_, rfl⟩

/-- PIX is never the first micro-operation. -/
theorem microOps_head_ne_pix {s : State} {ops : List MicroOp} (h : s.microOps = some ops) : ops[0]? ≠ some .pix := by
  obtain ⟨-, hh, -, -⟩ := microOps_shape h
  rwa [← List.head?_eq_getElem?]

/-- What stands before PIX is the memory-write of a window-set (R33, R60). -/
theorem microOps_before_pix {s : State} {ops : List MicroOp} (h : s.microOps = some ops) {i : Nat} {u : MicroOp}
    (hu : ops[i]? = some u) (hp : ops[i + 1]? = some .pix) : u = .one .ctl 0 := by
  obtain ⟨-, -, hc, -⟩ := microOps_shape h
  obtain ⟨hi, rfl⟩ := List.getElem?_eq_some_iff.1 hu
  obtain ⟨hj, hp⟩ := List.getElem?_eq_some_iff.1 hp
  exact List.isChain_iff_getElem.1 hc i hj hp

theorem microOps_aimed {s : State} {ops : List MicroOp} (h : s.microOps = some ops) {i : Nat} {u : MicroOp}
    (hu : ops[i]? = some u) : u.aimed := by
  obtain ⟨-, -, -, ha⟩ := microOps_shape h
  exact ha u (List.mem_of_getElem? hu)

/-- `STG` counts on without wrapping while a micro-operation stands at it. -/
theorem stg_succ {s : State} {ops : List MicroOp} (h : s.microOps = some ops) {u : MicroOp}
    (hu : ops[s.stg.toNat]? = some u) : (s.stg + 1).toNat = s.stg.toNat + 1 ∧ s.stg.toNat + 1 ≤ ops.length := by
  obtain ⟨hl, -, -, -⟩ := microOps_shape h
  obtain ⟨hi, -⟩ := List.getElem?_eq_some_iff.1 hu
  refine ⟨?_, hi⟩
  rw [BitVec.toNat_add, show (1 : BitVec 3).toNat = 1 from rfl]
  omega

/-! ### One more transaction -/

/-- A transaction that the transport's boundary admits next (R59, R60, R85). -/
def Txn.admitted (c : Config) (armed : Bool) (e : Txn) : Prop :=
  e.legal c = true ∧ dataFollowsCommand armed [e] = true

theorem dataFollowsCommand_append (armed : Bool) (ts us : List Txn) :
    dataFollowsCommand armed (ts ++ us) =
      (dataFollowsCommand armed ts && dataFollowsCommand (ts.foldl armedAfter armed) us) := by
  induction ts generalizing armed with
  | nil => rfl
  | cons t ts ih => simp only [List.cons_append, dataFollowsCommand, ih, List.foldl_cons, Bool.and_assoc]

@[simp] theorem armedBy_snoc (ts : List Txn) (e : Txn) : armedBy (ts ++ [e]) = armedAfter (armedBy ts) e := by
  simp [armedBy]

@[simp] theorem txns_afterTxns (s : State) (e : Txn) : (s.afterTxns [e]).txns = s.txns ++ [e] := by
  simp [State.txns]

end Machine
end Sys2Proof

/-! SUPPORT. The program counter (R29, R51 to R56): where it stands in a run over fixed contents, in `CTL` and in `EXT`, and
what dispatch, fetch and advance make of it. -/

namespace Sys2Proof.Machine

/-! ### What a reader can hold -/

/-- A reader holds the bytes of one descriptor at most. -/
theorem desc_unique {ε : Type} {c : Config} {rd : Nat → Except ε Byte} {d e : Desc} (hd : d.wf c = true)
    (he : e.wf c = true) (hrd : ∀ (k : Nat) b, d.enc[k]? = some b → rd k = .ok b)
    (hre : ∀ (k : Nat) b, e.enc[k]? = some b → rd k = .ok b) : d = e := by
  have hi := Except.ok.inj ((decodeWith_enc hd hrd).symm.trans (decodeWith_enc he hre))
  have h := congrArg (Instr.toDesc c) hi
  simpa only [classify_toDesc, Option.some.injEq] using h

/-- A reader that holds the bytes of a descriptor does not stand at the sentinel. -/
theorem desc_not_sentinel {ε : Type} {c : Config} {rd : Nat → Except ε Byte} {d : Desc} (hd : d.wf c = true)
    (hrd : ∀ (k : Nat) b, d.enc[k]? = some b → rd k = .ok b) : rd 0 ≠ .ok c.opEnd := by
  intro h
  have hi := Except.ok.inj ((decodeWith_enc hd hrd).symm.trans (decodeWith_sentinel h))
  have hn := classify_toDesc c d.opcode d.delay d.payload
  rw [hi] at hn
  cases hn

/-! ### Fixed contents -/

/-- The fixed contents over which a run goes, by the space that it goes over. -/
def State.runBytes (s : State) : Option (List Byte) :=
  match s.src with
  | .rom1 => some s.cfg.rom1
  | .rom2 => some s.cfg.rom2
  | .win => some (winBytes s.cfg s.xs s.ys s.xe s.ye)
  | .ctl | .ext => none

theorem src_cases (s : State) : (∃ bs, s.runBytes = some bs) ∨ s.src = .ctl ∨ s.src = .ext := by
  cases h : s.src <;> simp [State.runBytes, h]

theorem pcOk_iff_inSequence {s : State} {bs : List Byte} (h : s.runBytes = some bs) : s.pcOk ↔ s.inSequence bs := by
  unfold State.runBytes at h
  unfold State.pcOk
  split at h <;> cases h <;> simp only [*]

theorem pcOk_ctl_iff {s : State} (h : s.src = .ctl) :
    s.pcOk ↔ s.mode = .one ∧ s.sp.toNat ∈ [0, 6, 12, 18] ∧ (s.ph ≠ .fetch → s.len = 0) := by
  simp only [State.pcOk, h]

theorem pcOk_ext {s : State} (h : s.src = .ext) : s.pcOk := by
  simp only [State.pcOk, h]

theorem byteAt_runBytes {s : State} {bs : List Byte} (h : s.runBytes = some bs) (p : U16) (off : Nat) :
    s.byteAt s.src p off = listByte bs ((p.toNat + off) % 2 ^ 16) := by
  unfold State.runBytes at h
  split at h <;> rename_i hs <;> cases h <;> simp only [hs, State.byteAt]

/-- The bytes from the program counter on, as far as the contents go. -/
theorem byteAt_drop {s : State} {bs : List Byte} (h : s.runBytes = some bs) (hl : bs.length ≤ 2 ^ 16) {k : Nat}
    {b : Byte} (hk : (bs.drop s.sp.toNat)[k]? = some b) : s.byteAt s.src s.sp k = .ok b := by
  rw [List.getElem?_drop] at hk
  obtain ⟨hlt, -⟩ := List.getElem?_eq_some_iff.1 hk
  rw [byteAt_runBytes h, Nat.mod_eq_of_lt (by omega), listByte, hk]

/-- The program counter in `CTL` stands at a descriptor without payload (R53). -/
theorem ctl_desc {s : State} (hc : s.cfg.sentinelApart = true) (hs : s.src = .ctl) (hpc : s.pcOk) :
    ∃ d : Desc, d.wf s.cfg = true ∧ d.payload = [] ∧
      ∀ (k : Nat) b, d.enc[k]? = some b → s.byteAt s.src s.sp k = .ok b := by
  have key : ∀ (a : U16) (op : Byte) (dly : U32), s.sp.toNat = a.toNat → op ∈ s.cfg.namedOps →
      s.holds .ctl a (Desc.enc ⟨op, dly, []⟩) → ∃ d : Desc, d.wf s.cfg = true ∧ d.payload = [] ∧
        ∀ (k : Nat) b, d.enc[k]? = some b → s.byteAt s.src s.sp k = .ok b := by
    intro a op dly ha ho hb
    refine ⟨⟨op, dly, []⟩, wf_of_named hc ho (by simp), rfl, fun k b hk => ?_⟩
    rw [hs]
    exact hb k b s.sp k hk (by rw [ha])
  obtain ⟨h0, h6, h12, h18⟩ := holds_ctl s
  obtain ⟨-, hsp, -⟩ := (pcOk_ctl_iff hs).1 hpc
  simp only [List.mem_cons, List.not_mem_nil, or_false] at hsp
  rcases hsp with h | h | h | h
  · exact key 0 _ _ h (by simp [Config.namedOps]) h0
  · exact key 6 _ _ h (by simp [Config.namedOps]) h6
  · exact key 12 _ _ h (by simp [Config.namedOps]) h12
  · exact key 18 _ _ h (by simp [Config.namedOps]) h18

/-! ### Dispatch, fetch, advance -/

/-- A run that is dispatched starts at the first byte of a well-formed sequence (R33, R51, R52, R54). -/
theorem pcOk_dispatch_run {s : State} {space : Space} {a : U16} (hc : s.cfg.legal = true)
    (ha : (MicroOp.run space a).aimed) : (runMicroOp (.run space a) s).pcOk := by
  obtain ⟨hs, h1, h2, -, -⟩ := legal_inv hc
  have rom : ∀ (space : Space) conforms bs, romLegal s.cfg conforms bs = true →
      (runMicroOp (.run space 0) s).inSequence bs := by
    intro space conforms bs h
    obtain ⟨hl, ds, hw, hd⟩ := romLegal_inv h
    exact ⟨rfl, hl, ds, hw, hd, fun hp => absurd rfl hp⟩
  cases space with
  | rom1 =>
    cases ha
    exact rom .rom1 _ _ h1
  | rom2 =>
    cases ha
    exact rom .rom2 _ _ h2
  | win =>
    cases ha
    refine ⟨rfl, ?_, windowDescs s.cfg s.xs s.ys s.xe s.ye, ?_, rfl, fun hp => absurd rfl hp⟩
    · rw [winBytes_length]
      omega
    · simp only [windowDescs, List.forall_mem_cons]
      exact ⟨wf_of_named hs (by simp [Config.namedOps]) (by simp [pair]),
        wf_of_named hs (by simp [Config.namedOps]) (by simp [pair]), nofun⟩
  | ctl => exact absurd ha id
  | ext => exact trivial

/-- A single execution that is dispatched stands at a descriptor of `CTL`, or anywhere in `EXT` (R33, R53, R55). -/
theorem pcOk_dispatch_one {s : State} {space : Space} {a : U16} (ha : (MicroOp.one space a).aimed) :
    (runMicroOp (.one space a) s).pcOk := by
  cases space with
  | ctl => exact ⟨rfl, ha, fun hp => absurd rfl hp⟩
  | ext => exact trivial
  | rom1 | rom2 | win => exact absurd ha id

/-- The state in which a descriptor has been fetched (R35). -/
def State.fetched (s : State) (d : Desc) : State :=
  { s with opc := d.opcode, len := BitVec.ofNat 8 d.payload.length, dlyv := d.delay, ph := .cmd }

/-- The header that is fetched is that of the descriptor at the program counter. -/
theorem pcOk_fetched {s : State} {d : Desc} (hc : s.cfg.legal = true) (hpc : s.pcOk) (hd : d.wf s.cfg = true)
    (hb : ∀ (k : Nat) b, d.enc[k]? = some b → s.byteAt s.src s.sp k = .ok b) : (s.fetched d).pcOk := by
  rcases src_cases s with ⟨bs, hs⟩ | hs | hs
  · obtain ⟨hm, hl, ds, hw, hdrop, -⟩ := (pcOk_iff_inSequence hs).1 hpc
    refine (pcOk_iff_inSequence (s := s.fetched d) hs).2 ⟨hm, hl, ds, hw, hdrop, fun _ => ?_⟩
    have hrd : ∀ k b, (encSeq s.cfg ds)[k]? = some b → s.byteAt s.src s.sp k = .ok b :=
      fun k b hk => byteAt_drop hs hl (hdrop ▸ hk)
    cases ds with
    | nil => exact absurd (hrd 0 _ rfl) (desc_not_sentinel hd hb)
    | cons e es =>
      obtain rfl : d = e := by
        refine desc_unique hd (hw e List.mem_cons_self) hb (fun k b hk => hrd k b ?_)
        obtain ⟨hlt, -⟩ := List.getElem?_eq_some_iff.1 hk
        rw [encSeq_cons, List.getElem?_append_left hlt, hk]
      exact ⟨d, es, rfl, rfl, rfl, rfl⟩
  · obtain ⟨hm, hsp, -⟩ := (pcOk_ctl_iff hs).1 hpc
    obtain ⟨e, he, hp, hbe⟩ := ctl_desc (legal_inv hc).1 hs hpc
    obtain rfl := desc_unique hd he hb hbe
    exact (pcOk_ctl_iff (s := s.fetched d) hs).2 ⟨hm, hsp, fun _ => by simp [State.fetched, hp]⟩
  · exact pcOk_ext (s := s.fetched d) hs

/-- The program counter does not move while a descriptor is executed. -/
theorem pcOk_enter {s : State} (hpc : s.pcOk) (hp : s.ph ≠ .fetch) (p : Phase) (ts : List Txn) :
    (({ s with ph := p } : State).afterTxns ts).pcOk := by
  rcases src_cases s with ⟨bs, hs⟩ | hs | hs
  · obtain ⟨hm, hl, ds, hw, hdrop, hh⟩ := (pcOk_iff_inSequence hs).1 hpc
    exact (pcOk_iff_inSequence (s := ({ s with ph := p } : State).afterTxns ts) hs).2
      ⟨hm, hl, ds, hw, hdrop, fun _ => hh hp⟩
  · obtain ⟨hm, hsp, hh⟩ := (pcOk_ctl_iff hs).1 hpc
    exact (pcOk_ctl_iff (s := ({ s with ph := p } : State).afterTxns ts) hs).2 ⟨hm, hsp, fun _ => hh hp⟩
  · exact pcOk_ext (s := ({ s with ph := p } : State).afterTxns ts) hs

/-- In a run the program counter goes on to the next descriptor or to the sentinel (R29, R39). -/
theorem pcOk_advance {s : State} (hpc : s.pcOk) (hp : s.ph ≠ .fetch) (hm : s.mode = .run) :
    ({ s with sp := nextSp s.sp s.len, ph := .fetch } : State).pcOk := by
  rcases src_cases s with ⟨bs, hs⟩ | hs | hs
  · obtain ⟨-, hl, ds, hw, hdrop, hh⟩ := (pcOk_iff_inSequence hs).1 hpc
    obtain ⟨d, rest, rfl, -, hlen, -⟩ := hh hp
    refine (pcOk_iff_inSequence (s := { s with sp := nextSp s.sp s.len, ph := .fetch }) hs).2
      ⟨hm, hl, rest, fun e he => hw e (List.mem_cons_of_mem d he), ?_, fun h => absurd rfl h⟩
    rw [encSeq_cons] at hdrop
    have hd := hw d List.mem_cons_self
    have hfit : s.sp.toNat + d.enc.length < 2 ^ 16 := by
      have h := congrArg List.length hdrop
      have := length_lt_encSeq_length s.cfg rest
      simp only [List.length_drop, List.length_append] at h
      omega
    have hsp : (nextSp s.sp s.len).toNat = s.sp.toNat + d.enc.length := by
      rw [hlen, nextSp_enc s.sp hd, BitVec.toNat_add, BitVec.toNat_ofNat]
      omega
    show bs.drop (nextSp s.sp s.len).toNat = encSeq s.cfg rest
    rw [hsp, ← List.drop_drop, hdrop, List.drop_left]
  · obtain ⟨ho, -, -⟩ := (pcOk_ctl_iff hs).1 hpc
    rw [hm] at ho
    cases ho
  · exact pcOk_ext (s := { s with sp := nextSp s.sp s.len, ph := .fetch }) hs

end Sys2Proof.Machine

/-! SUPPORT. The invariant of the machine in two parts: what holds whatever the block does, and the control of the block,
which is idle or running. -/

namespace Sys2Proof.Machine

/-- The configuration, the memory and the trace. -/
structure State.Base (s : State) : Prop where
  cfgLegal : s.cfg.legal = true
  extWf : s.ext.wf = true
  extBelow : s.ext.below (2 ^ s.cfg.seqAw) = true
  traceLegal : ∀ t ∈ s.txns, t.legal s.cfg = true
  traceData : dataFollowsCommand false s.txns = true

/-- The block is idle, and its flags are those of one of the ends of an operation (R45, R184) or of a reset. -/
def State.Idle (s : State) : Prop :=
  s.ph = .idle ∧ s.busy = false ∧ (s.done = true → s.fault = 0) ∧ s.fault.toNat ≤ 3

/-- The flags of a block that carries out an operation (R28, R32 (d)). -/
def State.Operating (s : State) : Prop :=
  s.busy = true ∧ s.done = false ∧ s.fault = 0

/-- The block carries out a micro-operation. -/
structure State.Running (s : State) : Prop where
  active : s.ph ≠ .idle
  operating : s.Operating
  running : ∃ ops, s.microOpOk ops
  pc : s.ph.inDescriptor = true → s.pcOk
  header : s.ph.inDescriptor = true → s.ph ≠ .fetch → s.opc ≠ s.cfg.opEnd
  dataPhase : s.ph = .data → s.len ≠ 0 ∧ armedBy s.txns = true
  dlyPhase : s.ph = .dly → s.dlyv ≠ 0 ∧ armedBy s.txns = true
  advPhase : s.ph = .adv → armedBy s.txns = true

theorem inv_of_idle {s : State} (hb : s.Base) (hi : s.Idle) : s.Inv := by
  obtain ⟨hcfg, hwf, hbelow, hlegal, hdata⟩ := hb
  obtain ⟨hp, hbusy, hdone, hfault⟩ := hi
  refine ⟨hcfg, hwf, hbelow, ?_, ?_, hdone, hfault, fun h => absurd hp h, ?_, ?_, ?_, ?_, ?_, hlegal, hdata⟩ <;>
    simp [hp, hbusy, Phase.inDescriptor]

theorem inv_of_running {s : State} (hb : s.Base) (hr : s.Running) : s.Inv := by
  obtain ⟨hcfg, hwf, hbelow, hlegal, hdata⟩ := hb
  obtain ⟨hp, ⟨hbusy, hdone, hfault⟩, hrun, hpc, hheader, hdatap, hdly, hadv⟩ := hr
  exact ⟨hcfg, hwf, hbelow, by simp [hbusy, hp], fun _ => ⟨hdone, hfault⟩, fun _ => hfault, by simp [hfault],
    fun _ => hrun, hpc, hheader, hdatap, hdly, hadv, hlegal, hdata⟩

theorem inv_iff (s : State) : s.Inv ↔ s.Base ∧ (s.Idle ∨ s.Running) := by
  constructor
  · intro h
    refine ⟨⟨h.cfgLegal, h.extWf, h.extBelow, h.traceLegal, h.traceData⟩, ?_⟩
    have hbusy := h.busyIff
    by_cases hp : s.ph = .idle
    · exact .inl ⟨hp, by simpa [hp] using hbusy, h.doneClear, h.faultCode⟩
    · have hbusy : s.busy = true := by simpa [hp] using hbusy
      obtain ⟨hdone, hfault⟩ := h.busyClear hbusy
      exact .inr ⟨hp, ⟨hbusy, hdone, hfault⟩, h.running hp, h.pc, h.header, h.dataPhase, h.dlyPhase, h.advPhase⟩
  · rintro ⟨hb, hi | hr⟩
    · exact inv_of_idle hb hi
    · exact inv_of_running hb hr

/-- A block that is not busy is idle. -/
theorem State.Inv.idle_of_not_busy {s : State} (h : s.Inv) (hb : s.busy = false) : s.Idle := by
  rcases ((inv_iff s).1 h).2 with hi | hr
  · exact hi
  · exact absurd hr.operating.1 (by simp [hb])

/-- Nothing in the invariant speaks of the host, of what it has read, or of the records of racing stores. -/
theorem State.Inv.outside {s : State} (h : s.Inv) {ext : Memory} (hwf : ext.wf = true)
    (hbelow : ext.below (2 ^ s.cfg.seqAw) = true) (host : List HostMove) (hostReads : List (HostReg × U16))
    (extStale : List Host.Cell) (extRaces : Nat) :
    ({ s with
      ext := ext, host := host, hostReads := hostReads, extStale := extStale, extRaces := extRaces } : State).Inv :=
  ⟨h.cfgLegal, hwf, hbelow, h.busyIff, h.busyClear, h.doneClear, h.faultCode, h.running, h.pc, h.header, h.dataPhase,
    h.dlyPhase, h.advPhase, h.traceLegal, h.traceData⟩

theorem inv_withHost {s : State} (h : s.Inv) (rest : List HostMove) : ({ s with host := rest } : State).Inv :=
  h.outside h.extWf h.extBelow rest s.hostReads s.extStale s.extRaces

/-! ### Reset -/

theorem inv_resetWith {c : Config} (h : c.legal = true) : (State.resetWith c).Inv :=
  inv_of_idle ⟨h, rfl, rfl, nofun, rfl⟩ ⟨rfl, rfl, nofun, Nat.zero_le 3⟩

theorem legal_ref : Config.ref.legal = true := by decide +kernel

theorem legal_tiny : Config.tiny.legal = true := by decide +kernel

/-- Settles O49: the reset machine is idle with an empty trace and an empty `EXT`; the tables of REF and TINY are parsed by
evaluation. -/
theorem theInvariantHoldsAtReset : Obligations.TheInvariantHoldsAtReset :=
  ⟨fun _ => inv_resetWith, legal_ref, legal_tiny, inv_resetWith legal_ref⟩

/-! ### The trace -/

/-- The transaction that a phase presents is one that the transport's boundary admits (R59, R60, R85). -/
theorem outstanding_admitted {s : State} {e : Txn} (h : s.Inv) (ho : s.outstanding = some e) :
    e.admitted s.cfg (armedBy s.txns) := by
  unfold State.outstanding at ho
  split at ho
  case h_1 =>
    split at ho
    · split at ho <;> cases ho
      exact ⟨rfl, rfl⟩
    · cases ho
  case h_2 hp =>
    cases ho
    exact ⟨bne_iff_ne.2 (h.header (by rw [hp]; rfl) (by simp [hp])), rfl⟩
  case h_3 hp =>
    split at ho <;> cases ho
    rename_i bs hbs
    obtain ⟨hlen, harmed⟩ := h.dataPhase hp
    have hn := (readBytes_inv hbs).1
    have hpos : s.len.toNat ≠ 0 := fun hz => hlen (BitVec.eq_of_toNat_eq hz)
    have hlt := s.len.isLt
    refine ⟨?_, by simp [dataFollowsCommand, harmed]⟩
    simp only [Txn.legal, Bool.and_eq_true, decide_eq_true_eq]
    omega
  case h_4 hp =>
    cases ho
    exact ⟨bne_iff_ne.2 (h.dlyPhase hp).1, rfl⟩
  case h_5 hp =>
    split at ho <;> cases ho
    rename_i hn
    obtain ⟨ops, -, -, -, hpix, harmed⟩ := h.running (by simp [hp])
    obtain ⟨-, -, -, hlo, hhi⟩ := legal_inv h.cfgLegal
    have hpos : s.pixcnt.toNat ≠ 0 := fun hz => hn (BitVec.eq_of_toNat_eq hz)
    refine ⟨?_, by simp [dataFollowsCommand, harmed (hpix hp)]⟩
    simp only [Txn.legal, (pixelBytes_spec _ _).1, burst, Bool.and_eq_true, decide_eq_true_eq]
    omega
  all_goals cases ho

/-- The configuration, the memory and the trace are in order after what adds the outstanding transaction at most. -/
theorem State.Inv.base_after {s t : State} (h : s.Inv) (hc : t.cfg = s.cfg) (he : t.ext = s.ext)
    (ht : t.trace = s.trace ∨ ∃ e a, s.outstanding = some e ∧ t.trace = s.trace ++ [⟨e, a⟩]) : t.Base := by
  obtain ⟨⟨hcfg, hwf, hbelow, hlegal, hdata⟩, -⟩ := (inv_iff s).1 h
  have htrace : (∀ u ∈ t.txns, u.legal s.cfg = true) ∧ dataFollowsCommand false t.txns = true := by
    rcases ht with ht | ⟨e, a, ho, ht⟩
    · have htx : t.txns = s.txns := by rw [State.txns, ht]; rfl
      rw [htx]
      exact ⟨hlegal, hdata⟩
    · have htx : t.txns = s.txns ++ [e] := by simp [State.txns, ht]
      obtain ⟨hle, hde⟩ := outstanding_admitted h ho
      rw [htx, dataFollowsCommand_append, hdata]
      exact ⟨List.forall_mem_append.2 ⟨hlegal, List.forall_mem_singleton.2 hle⟩, hde⟩
  exact ⟨hc ▸ hcfg, he ▸ hwf, by rw [hc, he]; exact hbelow, by rw [hc]; exact htrace.1, htrace.2⟩

end Sys2Proof.Machine

/-! SUPPORT. Every step keeps the invariant: what each phase makes of a running block, then the host's moves. -/

namespace Sys2Proof.Machine

/-! ### Ways to be running -/

/-- A micro-operation, or completion, is to be dispatched next. -/
theorem running_dispatch {t : State} {ops : List MicroOp} (hp : t.ph = .dispatch) (hf : t.Operating)
    (ho : t.microOps = some ops) (hs : t.stg.toNat ≤ ops.length)
    (ha : ops[t.stg.toNat]? = some .pix → armedBy t.txns = true) : t.Running := by
  refine ⟨by simp [hp], hf, ⟨ops, ho, hs, ?_, ?_, ha⟩, ?_, ?_, ?_, ?_, ?_⟩ <;> simp [hp, Phase.inDescriptor]

/-- The next micro-operation is to be dispatched after the one at `STG` (R34, R35, R39, R40). -/
theorem running_next {s t : State} {ops : List MicroOp} {u : MicroOp} (ho : s.microOps = some ops)
    (hu : ops[s.stg.toNat]? = some u) (hm : t.microOps = s.microOps) (hs : t.stg = s.stg + 1) (hp : t.ph = .dispatch)
    (hf : t.Operating) (ha : u = .one .ctl 0 → armedBy t.txns = true) : t.Running := by
  obtain ⟨hstg, hle⟩ := stg_succ ho hu
  refine running_dispatch hp hf (hm.trans ho) (by rw [hs, hstg]; exact hle) (fun hpix => ha ?_)
  rw [hs, hstg] at hpix
  exact microOps_before_pix ho hu hpix

/-- Pixels are streamed (R40). -/
theorem running_pix {t : State} {ops : List MicroOp} (hp : t.ph = .pix) (hf : t.Operating) (ho : t.microOps = some ops)
    (hu : ops[t.stg.toNat]? = some .pix) (ha : armedBy t.txns = true) : t.Running := by
  obtain ⟨-, hle⟩ := stg_succ ho hu
  refine ⟨by simp [hp], hf, ⟨ops, ho, Nat.le_of_succ_le hle, ?_, fun _ => hu, fun _ => ha⟩, ?_, ?_, ?_, ?_, ?_⟩ <;>
    simp [hp, Phase.inDescriptor]

/-- The program counter serves the micro-operation at `STG`: a run, or the single execution that it asks for (R33). -/
def State.serves (s : State) (ops : List MicroOp) : Prop :=
  (∃ a, ops[s.stg.toNat]? = some (.run s.src a) ∧ s.mode = .run) ∨
    (ops[s.stg.toNat]? = some (.one s.src s.sp) ∧ s.mode = .one)

theorem serves_at {s : State} {ops : List MicroOp} (h : s.serves ops) :
    ∃ u, ops[s.stg.toNat]? = some u ∧ u ≠ .pix := by
  rcases h with ⟨a, hu, -⟩ | ⟨hu, -⟩
  · exact ⟨_, hu, nofun⟩
  · exact ⟨_, hu, nofun⟩

theorem State.Running.serves {s : State} (h : s.Running) (hd : s.ph.inDescriptor = true) :
    ∃ ops, s.microOps = some ops ∧ s.serves ops := by
  obtain ⟨ops, ho, -, hserves, -, -⟩ := h.running
  exact ⟨ops, ho, hserves hd⟩

theorem microOpOk_of_serves {t : State} {ops : List MicroOp} (hd : t.ph.inDescriptor = true)
    (ho : t.microOps = some ops) (h : t.serves ops) : t.microOpOk ops := by
  obtain ⟨u, hu, hne⟩ := serves_at h
  obtain ⟨-, hle⟩ := stg_succ ho hu
  refine ⟨ho, Nat.le_of_succ_le hle, fun _ => h, fun hp => ?_, fun hp => ?_⟩
  · rw [hp] at hd
    cases hd
  · rw [hu] at hp
    exact absurd (Option.some.inj hp) hne

/-- A descriptor is to be fetched (R35). -/
theorem running_fetch {t : State} {ops : List MicroOp} (hp : t.ph = .fetch) (hf : t.Operating)
    (ho : t.microOps = some ops) (hs : t.serves ops) (hpc : t.pcOk) : t.Running := by
  refine ⟨by simp [hp], hf, ⟨ops, microOpOk_of_serves (by rw [hp]; rfl) ho hs⟩, fun _ => hpc, ?_, ?_, ?_, ?_⟩ <;>
    simp [hp]

/-! ### The phases of a descriptor -/

/-- The phases that may follow an emission while a descriptor is executed (R36, R37, R38). -/
def State.mayEnter (s : State) (p : Phase) : Prop :=
  p = .data ∧ s.len ≠ 0 ∨ p = .dly ∧ s.dlyv ≠ 0 ∨ p = .adv

/-- The descriptor at the program counter goes on to its next phase. -/
theorem running_enter {s : State} {p : Phase} {e : Txn} (hr : s.Running) (hd : s.ph.inDescriptor = true)
    (hf : s.ph ≠ .fetch) (hp : s.mayEnter p) (ha : armedAfter (armedBy s.txns) e = true) :
    (({ s with ph := p } : State).afterTxns [e]).Running := by
  obtain ⟨ops, ho, hs⟩ := hr.serves hd
  have harmed : armedBy (({ s with ph := p } : State).afterTxns [e]).txns = true := by
    rw [txns_afterTxns, armedBy_snoc]
    exact ha
  have hin : p.inDescriptor = true ∧ p ≠ .idle := by
    rcases hp with ⟨rfl, -⟩ | ⟨rfl, -⟩ | rfl <;> exact ⟨rfl, nofun⟩
  refine ⟨hin.2, hr.operating, ⟨ops, microOpOk_of_serves hin.1 ho hs⟩, fun _ => pcOk_enter (hr.pc hd) hf p [e],
    fun _ _ => hr.header hd hf, fun hdata => ⟨?_, harmed⟩, fun hdly => ⟨?_, harmed⟩, fun _ => harmed⟩
  · obtain rfl : p = .data := hdata
    simpa [State.mayEnter] using hp
  · obtain rfl : p = .dly := hdly
    simpa [State.mayEnter] using hp

theorem afterPayload_enters (s : State) :
    ∃ p, s.mayEnter p ∧ ∀ ts, afterPayload (s.afterTxns ts) = ({ s with ph := p } : State).afterTxns ts := by
  refine ⟨if s.dlyv = 0 then .adv else .dly, ?_, fun _ => rfl⟩
  split
  · exact .inr (.inr rfl)
  · rename_i h
    exact .inr (.inl ⟨rfl, h⟩)

theorem afterCommand_enters (s : State) :
    ∃ p, s.mayEnter p ∧ ∀ ts, afterCommand (s.afterTxns ts) = ({ s with ph := p } : State).afterTxns ts := by
  by_cases hl : s.len = 0
  · obtain ⟨p, hp, he⟩ := afterPayload_enters s
    exact ⟨p, hp, fun ts => (if_pos hl).trans (he ts)⟩
  · exact ⟨.data, .inl ⟨rfl, hl⟩, fun ts => if_neg hl⟩

/-- An emission leaves the block idle with a TransportError, or as what follows it leaves it (R186). -/
theorem emit_control {s : State} {e : Txn} {f : State → State} (h : (f (s.afterTxns [e])).Running) :
    (emit e f s).Idle ∨ (emit e f s).Running := by
  rcases emit_cases e f s with ⟨-, he⟩ | ⟨-, -, he⟩ <;> rw [he]
  · exact .inr h
  · exact .inl ⟨rfl, rfl, nofun, by rw [raiseFault_fault]; decide⟩

/-- An emission while a descriptor is executed, with the phase that follows it. -/
theorem emit_enter {s : State} {e : Txn} {f : State → State} (hr : s.Running) (hd : s.ph.inDescriptor = true)
    (hf : s.ph ≠ .fetch) (ha : armedAfter (armedBy s.txns) e = true)
    (he : ∃ p, s.mayEnter p ∧ ∀ ts, f (s.afterTxns ts) = ({ s with ph := p } : State).afterTxns ts) :
    (emit e f s).Idle ∨ (emit e f s).Running := by
  obtain ⟨p, hp, he⟩ := he
  refine emit_control ?_
  rw [he]
  exact running_enter hr hd hf hp ha

/-! ### A step of the block -/

/-- Phase DISPATCH runs the micro-operation at `STG` (R34). -/
theorem runMicroOp_control {s : State} {ops : List MicroOp} {u : MicroOp} (hc : s.cfg.legal = true) (hr : s.Running)
    (hp : s.ph = .dispatch) (ho : s.microOps = some ops) (hu : ops[s.stg.toNat]? = some u) :
    (runMicroOp u s).Idle ∨ (runMicroOp u s).Running := by
  have haim := microOps_aimed ho hu
  cases u with
  | tinit => exact emit_control (running_next ho hu rfl rfl hp hr.operating nofun)
  | run space a =>
    exact .inr (running_fetch (t := runMicroOp (.run space a) s) rfl hr.operating ho (.inl ⟨a, hu, rfl⟩)
      (pcOk_dispatch_run hc haim))
  | one space a =>
    exact .inr (running_fetch (t := runMicroOp (.one space a) s) rfl hr.operating ho (.inr ⟨hu, rfl⟩)
      (pcOk_dispatch_one haim))
  | loadwin xs ys xe ye =>
    exact .inr (running_next (t := runMicroOp (.loadwin xs ys xe ye) s) ho hu rfl rfl hp hr.operating nofun)
  | loadfill color x y w h =>
    exact .inr (running_next (t := runMicroOp (.loadfill color x y w h) s) ho hu rfl rfl hp hr.operating nofun)
  | pix =>
    obtain ⟨ops', ho', -, -, -, harmed⟩ := hr.running
    obtain rfl : ops = ops' := Option.some.inj (ho.symm.trans ho')
    exact .inr (running_pix (t := runMicroOp .pix s) rfl hr.operating ho hu (harmed hu))

/-- The sentinel ends the micro-operation; no descriptor of `CTL` is one, so PIX does not come next (R35, R53, R94). -/
theorem fetchSentinel_running {s : State} (hc : s.cfg.legal = true) (hr : s.Running) (hp : s.ph = .fetch)
    (hb : s.byteAt s.src s.sp 0 = .ok s.cfg.opEnd) : (fetchSentinel s).Running := by
  have hd : s.ph.inDescriptor = true := by rw [hp]; rfl
  obtain ⟨ops, ho, hs⟩ := hr.serves hd
  obtain ⟨u, hu, -⟩ := serves_at hs
  refine running_next (t := fetchSentinel s) ho hu rfl rfl rfl hr.operating ?_
  rintro rfl
  have hctl : s.src = .ctl := by
    rcases hs with ⟨a, h, -⟩ | ⟨h, -⟩
    · cases hu.symm.trans h
    · exact (MicroOp.one.inj (Option.some.inj (h.symm.trans hu))).1
  obtain ⟨d, hw, -, hbytes⟩ := ctl_desc (legal_inv hc).1 hctl (hr.pc hd)
  exact absurd hb (desc_not_sentinel hw hbytes)

/-- A descriptor's header is fetched (R35). -/
theorem fetched_running {s : State} {d : Desc} (hc : s.cfg.legal = true) (hr : s.Running) (hp : s.ph = .fetch)
    (hw : d.wf s.cfg = true) (hb : ∀ (k : Nat) b, d.enc[k]? = some b → s.byteAt s.src s.sp k = .ok b) :
    (s.fetched d).Running := by
  have hd : s.ph.inDescriptor = true := by rw [hp]; rfl
  obtain ⟨ops, ho, hs⟩ := hr.serves hd
  have hne : d.opcode ≠ s.cfg.opEnd := by
    simp only [Desc.wf, Bool.and_eq_true, bne_iff_ne] at hw
    exact hw.1
  exact ⟨nofun, hr.operating, ⟨ops, microOpOk_of_serves rfl ho hs⟩, fun _ => pcOk_fetched hc (hr.pc hd) hw hb,
    fun _ _ => hne, nofun, nofun, nofun⟩

/-- Phase ADV ends a single execution, and goes on in a run (R39). -/
theorem adv_running {s t : State} (hr : s.Running) (hp : s.ph = .adv)
    (h : (s.mode = .one ∧ t = endMicroOp s) ∨ (s.mode = .run ∧ t = { s with sp := nextSp s.sp s.len, ph := .fetch })) :
    t.Running := by
  have hd : s.ph.inDescriptor = true := by rw [hp]; rfl
  obtain ⟨ops, ho, hs⟩ := hr.serves hd
  rcases h with ⟨-, rfl⟩ | ⟨hm, rfl⟩
  · obtain ⟨u, hu, -⟩ := serves_at hs
    exact running_next (t := endMicroOp s) ho hu rfl rfl rfl hr.operating (fun _ => hr.advPhase hp)
  · refine running_fetch rfl hr.operating ho ?_ (pcOk_advance (hr.pc hd) (by simp [hp]) hm)
    rcases hs with ⟨a, hu, -⟩ | ⟨-, hone⟩
    · exact .inl ⟨a, hu, hm⟩
    · rw [hm] at hone
      cases hone

/-- Phase PIX ends its micro-operation, or emits pixels (R40). -/
theorem pix_control {s t : State} (hr : s.Running) (hp : s.ph = .pix)
    (h : (s.pixcnt = 0 ∧ t = endMicroOp s) ∨
      (s.pixcnt ≠ 0 ∧ t = emit (.tData (pixelBytes s.color (burst s.cfg s.pixcnt)))
        (fun u => { u with pixcnt := u.pixcnt - BitVec.ofNat 32 (burst u.cfg u.pixcnt) }) s)) :
    t.Idle ∨ t.Running := by
  obtain ⟨ops, ho, -, -, hpix, harmed⟩ := hr.running
  have hu := hpix hp
  rcases h with ⟨-, rfl⟩ | ⟨-, rfl⟩
  · exact .inr (running_next (t := endMicroOp s) ho hu rfl rfl rfl hr.operating nofun)
  · refine emit_control (running_pix hp hr.operating ho hu ?_)
    show armedBy (s.afterTxns [_]).txns = true
    rw [txns_afterTxns, armedBy_snoc]
    exact harmed hu

/-- A step of a running block leaves it idle or running. -/
theorem blockStep_control {s t : State} (hc : s.cfg.legal = true) (hr : s.Running) (h : blockStep s = .next t) :
    t.Idle ∨ t.Running := by
  rcases blockStep_cases h with ⟨hp, -⟩ | ⟨hp, ops, ho, ⟨u, hu, rfl⟩ | ⟨-, rfl⟩⟩ | ⟨hp, ⟨hb, rfl⟩ | ⟨d, hw, hb, rfl⟩⟩ |
    ⟨hp, rfl⟩ | ⟨hp, bs, -, rfl⟩ | ⟨hp, rfl⟩ | ⟨hp, h⟩ | ⟨hp, h⟩
  · exact absurd hp hr.active
  · exact runMicroOp_control hc hr hp ho hu
  · obtain ⟨-, -, hfault⟩ := hr.operating
    exact .inl ⟨rfl, rfl, fun _ => hfault, by simp [hfault]⟩
  · exact .inr (fetchSentinel_running hc hr hp hb)
  · exact .inr (fetched_running hc hr hp hw hb)
  · exact emit_enter hr (by rw [hp]; rfl) (by simp [hp]) rfl (afterCommand_enters s)
  · exact emit_enter hr (by rw [hp]; rfl) (by simp [hp]) (hr.dataPhase hp).2 (afterPayload_enters s)
  · exact emit_enter hr (by rw [hp]; rfl) (by simp [hp]) (hr.dlyPhase hp).2 ⟨.adv, .inr (.inr rfl), fun _ => rfl⟩
  · exact .inr (adv_running hr hp h)
  · exact pix_control hr hp h

theorem blockStep_inv {s t : State} (hi : s.Inv) (h : blockStep s = .next t) : t.Inv := by
  obtain ⟨htrace, -, hc, -, he⟩ := blockStep_effect h
  have hb := hi.base_after hc he htrace
  rcases ((inv_iff s).1 hi).2 with hidle | hr
  · have hst : t = s := by
      simp only [blockStep, hidle.1, Host.Outcome.next.injEq] at h
      exact h.symm
    rwa [hst]
  · exact (inv_iff t).2 ⟨hb, blockStep_control hi.cfgLegal hr h⟩

/-! ### A host move -/

/-- An operation is accepted (R32 (d)). -/
theorem accepted_inv {s : State} {code : BitVec 4} (h : s.Inv) (hc : 1 ≤ code.toNat ∧ code.toNat ≤ 9) :
    (s.accepted code).Inv := by
  obtain ⟨ops, ho⟩ := microOps_of_code (s := s.accepted code) hc
  exact inv_of_running (h.base_after rfl rfl (.inl rfl))
    (running_dispatch rfl ⟨rfl, rfl, rfl⟩ ho (Nat.zero_le _) (fun hp => absurd hp (microOps_head_ne_pix ho)))

/-- A request is turned away by a fault (R32 (b), (c)). -/
theorem turnedAway_inv {s : State} (h : s.Inv) (code : BitVec 4) {f : BitVec 3} (hf : f.toNat ≤ 3) :
    (s.turnedAway code f).Inv :=
  inv_of_idle (h.base_after rfl rfl (.inl rfl)) ⟨rfl, rfl, nofun, hf⟩

/-- The arguments change only while the block is idle (R31). -/
theorem writeArg_inv {s : State} (h : s.Inv) (i : Fin 5) (v : U16) : (writeArg i v s).Inv := by
  unfold writeArg
  split
  · exact h
  · rename_i hb
    exact inv_of_idle (h.base_after rfl rfl (.inl rfl)) (h.idle_of_not_busy (by simpa using hb))

/-- A store of the host keeps the canonical form of `EXT` and its bound (R55). -/
theorem hostStore_inv {s t : State} {a : Nat} {b : Byte} (h : s.Inv) (hs : hostStore a b s = .next t) : t.Inv := by
  obtain ⟨ha, ht⟩ := hostStore_next hs
  rw [ht]
  exact h.outside (Memory.write_wf h.extWf) (Memory.write_below h.extBelow ha) s.host s.hostReads t.extStale t.extRaces

/-- A hardware reset leaves the block idle with its flags clear (R44, R213). -/
theorem hardReset_inv {s : State} (h : s.Inv) (time : ResetTime) (r : Residue) : (hardReset time r s).Inv := by
  obtain ⟨-, hc, he, hp, hbusy, -, hfault, htrace⟩ := hardReset_effect time r s
  exact inv_of_idle (h.base_after hc he htrace) ⟨hp, hbusy, fun _ => hfault, by simp [hfault]⟩

theorem hostStep_inv {m : HostMove} {s t : State} (h : s.Inv) (hm : m ≠ .pass) (hs : hostStep m s = .next t) :
    t.Inv := by
  rcases hostStep_cases hm hs with ⟨v, code, -, -, rfl | ⟨-, ⟨rfl, hc⟩ | ⟨rfl, -⟩ | ⟨-, rfl⟩⟩⟩ | ⟨i, v, -, rfl⟩ |
    ⟨v, -, rfl⟩ | ⟨r, -, rfl⟩ | ⟨a, b, -, hs⟩ | ⟨-, rfl⟩ | ⟨time, r, -, rfl⟩
  · exact h
  · exact accepted_inv h hc
  · exact turnedAway_inv h code (by decide)
  · exact turnedAway_inv h code (by decide)
  · exact writeArg_inv h i v
  · exact h
  · exact h.outside h.extWf h.extBelow s.host _ s.extStale s.extRaces
  · exact hostStore_inv h hs
  · exact h
  · exact hardReset_inv h time r

/-- Settles O50: the block steps within its control, the host's moves leave it idle or running, and the trace grows by the
transaction that the phase presents, which is admitted. -/
theorem everyStepKeepsTheInvariant : Obligations.EveryStepKeepsTheInvariant := by
  intro s t hi h
  rcases step_cases h with ⟨rest, -, hb⟩ | ⟨m, rest, -, hm, -, hs⟩
  · exact blockStep_inv (inv_withHost hi rest) hb
  · exact hostStep_inv (inv_withHost hi rest) hm hs

end Sys2Proof.Machine

/-! SUPPORT. What a write of an operation code does, by its code (R31, R32), and what an instruction's own step leaves
unchanged. -/

namespace Sys2Proof.Machine

/-- The cases (b) to (d) of R32 for a code: the geometry check of SETWIN and of FILL, IllegalOp for a reserved code,
acceptance for every other. -/
def State.examine (s : State) (code : BitVec 4) : State → State :=
  if code = 7 then acceptIf (windowInside s.cfg (s.arg 0) (s.arg 1) (s.arg 2) (s.arg 3))
  else if code = 8 then acceptIf (regionInside s.cfg (s.arg 1) (s.arg 2) (s.arg 3) (s.arg 4))
  else if code.toNat = 0 ∨ 10 ≤ code.toNat then reject faultIllegalOp
  else accept

/-- An instruction of format H is a request of its code, with that code's cases. -/
theorem exec_eq_request {i : Instr} {code : BitVec 4} (h : i.opCode = some code) (s : State) :
    exec i s = .next (request code (s.examine code) s) := by
  cases i <;> cases h <;> rfl

/-- The region that a code names does not lie on the panel (R152, R160, R182). -/
def State.outsidePanel (s : State) (code : BitVec 4) : Prop :=
  (code = 7 ∧ windowInside s.cfg (s.arg 0) (s.arg 1) (s.arg 2) (s.arg 3) = false) ∨
    (code = 8 ∧ regionInside s.cfg (s.arg 1) (s.arg 2) (s.arg 3) (s.arg 4) = false)

theorem examine_reserved {s : State} {code : BitVec 4} (h : code.toNat = 0 ∨ 10 ≤ code.toNat) :
    s.examine code { s with op := code } = s.turnedAway code faultIllegalOp := by
  have h7 : code ≠ 7 := by rintro rfl; simp at h
  have h8 : code ≠ 8 := by rintro rfl; simp at h
  rw [State.examine, if_neg h7, if_neg h8, if_pos h, reject_request]

theorem examine_outside {s : State} {code : BitVec 4} (hg : s.cfg.geomCheck = true) (h : s.outsidePanel code) :
    s.examine code { s with op := code } = s.turnedAway code faultInvalidRegion := by
  rcases h with ⟨rfl, h⟩ | ⟨rfl, h⟩
  · rw [State.examine, if_pos rfl, acceptIf_op, if_pos ⟨hg, h⟩]
  · rw [State.examine, if_neg (by decide), if_pos rfl, acceptIf_op, if_pos ⟨hg, h⟩]

theorem examine_accepted {s : State} {code : BitVec 4} (hlo : 1 ≤ code.toNat) (hhi : code.toNat ≤ 9)
    (h : ¬ (s.cfg.geomCheck = true ∧ s.outsidePanel code)) :
    s.examine code { s with op := code } = s.accepted code := by
  unfold State.examine
  split
  · rename_i h7
    rw [acceptIf_op, if_neg (fun ⟨hg, ho⟩ => h ⟨hg, .inl ⟨h7, ho⟩⟩)]
  · split
    · rename_i h8
      rw [acceptIf_op, if_neg (fun ⟨hg, ho⟩ => h ⟨hg, .inr ⟨h8, ho⟩⟩)]
    · rw [if_neg (by omega), accept_request]

theorem request_latched {s : State} (hf : s.fault = faultTransportError) {code : BitVec 4} (hc : code ≠ 1)
    (act : State → State) : request code act s = s := by
  unfold request
  split
  · rfl
  · rw [if_pos ⟨hf, hc⟩]

/-- A request that no latched TransportError turns away is examined by an idle block. -/
theorem request_examined {s : State} (hb : s.busy = false) {code : BitVec 4}
    (h : ¬ (s.fault = faultTransportError ∧ code ≠ 1)) (act : State → State) :
    request code act s = act { s with op := code } := by
  rw [request, if_neg (by simp [hb]), if_neg h]

theorem outsidePanel_iff (s : State) (code : BitVec 4) : s.outsidePanel code ↔
    (code.toNat = 7 ∧ ¬ (s.args[0].toNat ≤ s.args[2].toNat ∧ s.args[2].toNat < s.cfg.panelW ∧
        s.args[1].toNat ≤ s.args[3].toNat ∧ s.args[3].toNat < s.cfg.panelH)) ∨
      (code.toNat = 8 ∧ ¬ (1 ≤ s.args[3].toNat ∧ 1 ≤ s.args[4].toNat ∧
        s.args[1].toNat + s.args[3].toNat - 1 < s.cfg.panelW ∧
        s.args[2].toNat + s.args[4].toNat - 1 < s.cfg.panelH)) := by
  have h7 : code = 7 ↔ code.toNat = 7 := BitVec.toNat_inj.symm
  have h8 : code = 8 ↔ code.toNat = 8 := BitVec.toNat_inj.symm
  rw [State.outsidePanel, h7, h8, ← Bool.not_eq_true, ← Bool.not_eq_true]
  simp only [windowInside, regionInside, Bool.and_eq_true, decide_eq_true_eq, and_assoc]
  rfl

/-- Settles O11: a write to `OPREG` is a request of the value's code, and the cases of the request are taken one by one. -/
theorem writeToOpregDoesTheFirstCaseThatApplies : Obligations.WriteToOpregDoesTheFirstCaseThatApplies := by
  intro s v hb
  dsimp only
  rw [← outsidePanel_iff, exec_eq_request (decodeOp_opCode v) s]
  generalize v.extractLsb' 0 4 = code
  have hone : code.toNat ≠ 1 ↔ code ≠ 1 := not_congr (BitVec.toNat_inj (y := 1))
  rw [hone]
  refine ⟨fun ⟨hf, hc⟩ => by rw [request_latched hf hc], fun hexam => ?_⟩
  rw [request_examined hb hexam]
  exact ⟨fun h => by rw [examine_reserved h]; rfl, fun ⟨hlo, hhi⟩ =>
    ⟨fun ⟨hg, ho⟩ => by rw [examine_outside hg ho]; rfl, fun h => by rw [examine_accepted hlo hhi h]⟩⟩

/-- Settles O12: none of these codes is checked. -/
theorem uncheckedOperationsAreAccepted : Obligations.UncheckedOperationsAreAccepted := by
  intro s hb
  refine ⟨congrArg _ (request_init hb accept), fun hf => ?_⟩
  have hr : s.ready := ⟨hb, hf⟩
  exact ⟨exec_accept hr rfl, exec_accept hr rfl, exec_accept hr rfl, exec_accept hr rfl, exec_accept hr rfl,
    exec_accept hr rfl⟩

theorem opCode_of_format {i : Instr} (h : i.format = .h) : ∃ code, i.opCode = some code := by
  cases i <;> cases h <;> exact ⟨_, rfl⟩

theorem opCode_eq_one_iff {i : Instr} : i.opCode = some 1 ↔ i = .init := by
  cases i <;> simp [Instr.opCode]

/-- An examined request sets `OP` and leaves no TransportError (R32 (b), (c), (d)). -/
theorem examine_op_fault (s : State) (code : BitVec 4) :
    (s.examine code { s with op := code }).op = code ∧
      (s.examine code { s with op := code }).fault ≠ faultTransportError := by
  by_cases hr : code.toNat = 0 ∨ 10 ≤ code.toNat
  · rw [examine_reserved hr]
    exact ⟨rfl, (by decide : faultIllegalOp ≠ faultTransportError)⟩
  · by_cases ho : s.cfg.geomCheck = true ∧ s.outsidePanel code
    · rw [examine_outside ho.1 ho.2]
      exact ⟨rfl, (by decide : faultInvalidRegion ≠ faultTransportError)⟩
    · rw [examine_accepted (by omega) (by omega) ho]
      exact ⟨rfl, (by decide : 0 ≠ faultTransportError)⟩

/-- Settles O15: every code but INIT's is turned away by the latch; without it the request is examined. -/
theorem transportErrorTurnsAwayAllButInit : Obligations.TransportErrorTurnsAwayAllButInit := by
  intro s i hb hi
  obtain ⟨code, hc⟩ := opCode_of_format hi
  refine ⟨fun hf hne => ?_, fun _ => ⟨congrArg _ (request_init hb accept), rfl⟩, fun hf => ?_⟩
  · have hcode : code ≠ 1 := fun h => hne (opCode_eq_one_iff.1 (h ▸ hc))
    rw [exec_eq_request hc, request_latched hf hcode]
  · refine ⟨_, code, exec_eq_request hc s, hc, ?_⟩
    rw [request_of_ready ⟨hb, hf⟩]
    exact examine_op_fault s code

theorem exec_fetches {i : Instr} (h : i.format = .d) (s : State) :
    exec i s = .next (fetchSentinel s) ∨ ∃ d : Desc, exec i s = .next (fetchCommand d.opcode d.delay d.payload s) := by
  rcases instr_cases s.cfg i with ⟨code, hc⟩ | rfl | ⟨d, hd⟩
  · cases i <;> cases h <;> cases hc
  · exact .inl rfl
  · exact .inr ⟨d, exec_of_toDesc hd⟩

/-- Settles O16: a request is ignored, accepted or turned away; a fetch loads a header or ends at the sentinel. -/
theorem instructionStepsKeepTheirFrame : Obligations.InstructionStepsKeepTheirFrame := by
  intro i s t he
  constructor
  · intro hi
    obtain ⟨code, hc⟩ := opCode_of_format hi
    rcases request_state hc he with rfl | ⟨-, ⟨rfl, -⟩ | ⟨rfl, -⟩ | ⟨-, rfl⟩⟩ <;> rfl
  · intro hi
    rcases exec_fetches hi s with h | ⟨d, h⟩ <;> cases h.symm.trans he
    · rfl
    · unfold fetchCommand
      split <;> rfl

end Sys2Proof.Machine

/-! SUPPORT. A step by the host's next move (R31, R55, R96, R188, R210), and what only the host changes. -/

namespace Sys2Proof.Machine

/-! ### The host's next move -/

/-- Every move but the wait for the block is made in one step. -/
theorem step_of_move {s : State} {m : HostMove} {rest : List HostMove} (h : s.host = m :: rest) (hm : m ≠ .awaitIdle) :
    step s = hostStep m { s with host := rest } := by
  cases m
  case awaitIdle => exact absurd rfl hm
  all_goals simp only [step, h]

theorem step_await_busy {s : State} {rest : List HostMove} (h : s.host = .awaitIdle :: rest) (hb : s.busy = true) :
    step s = blockStep s := by
  simp [step, h, hb]

theorem step_await_idle {s : State} {rest : List HostMove} (h : s.host = .awaitIdle :: rest) (hb : s.busy = false) :
    step s = .next { s with host := rest } := by
  simp [step, h, hb]

theorem writeArg_of_busy {s : State} (h : s.busy = true) (i : Fin 5) (v : U16) : writeArg i v s = s :=
  if_pos h

theorem writeArg_of_idle {s : State} (h : s.busy = false) (i : Fin 5) (v : U16) :
    writeArg i v s = { s with args := s.args.set i v } :=
  if_neg (by simp [h])

/-- Settles O17, by the host's next move. -/
theorem stepRunsTheWrittenOperation : Obligations.StepRunsTheWrittenOperation :=
  fun _ _ _ => ⟨fun h => step_of_move h nofun, step_of_quiet, fun h => step_of_move h nofun,
    fun h hb => ⟨step_await_busy h hb, fun _ ht => (blockStep_host ht).1.trans h⟩, step_await_idle⟩

/-- A write to `OPREG` while the block is busy changes nothing (R31). -/
theorem exec_decodeOp_of_busy {s : State} (h : s.busy = true) (v : U16) : exec (decodeOp v) s = .next s := by
  rw [exec_eq_request (decodeOp_opCode v), request_of_busy h]

/-- Settles O9: reads change what the host knows, and writes are ignored by a busy block. -/
theorem hostAccessReadsAnyTimeAndWritesOnlyWhenIdle : Obligations.HostAccessReadsAnyTimeAndWritesOnlyWhenIdle := by
  intro s rest v
  refine ⟨fun r h => step_of_move h nofun, fun hb h => ?_, fun i hb h => ?_, fun i hb h => ?_,
    fun h => step_of_move h nofun⟩
  · rw [step_of_move h nofun]
    exact exec_decodeOp_of_busy (s := { s with host := rest }) hb v
  · rw [step_of_move h nofun]
    exact congrArg _ (writeArg_of_busy (s := { s with host := rest }) hb i v)
  · refine ⟨s.args.set i v, ?_, by simp, fun j hj => ?_⟩
    · rw [step_of_move h nofun]
      exact congrArg _ (writeArg_of_idle (s := { s with host := rest }) hb i v)
    · exact Vector.getElem_set_ne _ _ (fun he => hj (Fin.ext he.symm))

/-! ### The registers that the host reads -/

/-- Settles O10, bit by bit. -/
theorem statusWordHoldsTheFlags : Obligations.StatusWordHoldsTheFlags := by
  intro s
  refine ⟨?_, ?_, ?_, ?_, ?_, fun i => rfl⟩
  · simp [State.readReg, State.status]
  · simp [State.readReg, State.status]
  · ext i hi
    simp [State.readReg, State.status, hi, show 2 + i < 16 by omega, show ¬ 2 + i ≤ 1 by omega]
  · ext i hi
    have hz : s.fault.getLsbD (5 + i - 2) = false := BitVec.getLsbD_of_ge _ _ (by omega)
    simp [State.readReg, State.status, hz]
  · simp [State.readReg]
    omega

/-! ### Reset and the idle block -/

theorem blockStep_of_idle {s : State} (h : s.ph = .idle) : blockStep s = .next s := by
  simp only [blockStep, h]

/-- Settles O8: no phase is under way, and the registers after reset are zero. -/
theorem idleBlockDoesNothing : Obligations.IdleBlockDoesNothing := by
  refine ⟨fun s hp hh => (step_of_quiet hh).trans (blockStep_of_idle hp), fun c r => ?_⟩
  cases r with
  | opreg => rfl
  | arg i => exact Vector.getElem_replicate i.isLt
  | status => simp [State.readReg, State.status, State.resetWith]

/-- A hardware reset sets the registers, and the fate of the outstanding transaction tells the trace (R44, R213). -/
theorem hardReset_eq (time : ResetTime) (r : Residue) (s : State) :
    ∃ trace, hardReset time r s = resetRegisters r { s with trace := trace } ∧
      (time = .betweenSteps ∨ time = .whileOutstanding none ∨ s.outstanding = none → trace = s.trace) ∧
      ∀ a t, time = .whileOutstanding (some a) → s.outstanding = some t →
        trace = s.trace ++ [⟨t, if s.cfg.terr then a else .ok⟩] := by
  unfold hardReset
  split
  · exact ⟨s.trace, rfl, fun _ => rfl, nofun⟩
  · split
    · rename_i _ _ t a ho
      refine ⟨_, rfl, ?_, ?_⟩
      · rintro (h | h | h)
        · cases h
        · cases h
        · rw [ho] at h
          cases h
      · intro a' t' ha ht
        cases ha
        rw [ho] at ht
        cases ht
        rfl
    · rename_i hno
      exact ⟨s.trace, rfl, fun _ => rfl, fun a t ha ht => absurd (ResetTime.whileOutstanding.inj ha) (hno t a ht)⟩

/-- Settles O7: the move is one step, and the trace is told by the fate of the outstanding transaction. -/
theorem hardwareResetLeavesTheBlockIdle : Obligations.HardwareResetLeavesTheBlockIdle := by
  intro s time r rest hh
  obtain ⟨trace, he, hkeep, hdone⟩ := hardReset_eq time r { s with host := rest }
  exact ⟨trace, (step_of_move hh nofun).trans (congrArg _ he), hkeep, hdone⟩

/-! ### What only the host changes -/

/-- A host move other than a store leaves `EXT` alone, and none changes the configuration. -/
theorem hostStep_ext {m : HostMove} {s t : State} (hm : m ≠ .pass) (h : hostStep m s = .next t) :
    t.cfg = s.cfg ∧ (t.ext = s.ext ∨ ∃ a b, m = .storeExt a b ∧ t.ext = s.ext.write a b) := by
  rcases hostStep_cases hm h with ⟨v, code, -, -, rfl | ⟨-, ⟨rfl, -⟩ | ⟨rfl, -⟩ | ⟨-, rfl⟩⟩⟩ | ⟨i, v, -, rfl⟩ |
    ⟨v, -, rfl⟩ | ⟨r, -, rfl⟩ | ⟨a, b, rfl, hs⟩ | ⟨-, rfl⟩ | ⟨time, r, -, rfl⟩
  case inr.inl =>
    unfold writeArg
    split <;> exact ⟨rfl, .inl rfl⟩
  case inr.inr.inr.inr.inl =>
    rw [(hostStore_next hs).2]
    exact ⟨rfl, .inr ⟨a, b, rfl, rfl⟩⟩
  case inr.inr.inr.inr.inr.inr =>
    obtain ⟨-, hc, he, -⟩ := hardReset_effect time r s
    exact ⟨hc, .inl he⟩
  all_goals exact ⟨rfl, .inl rfl⟩

/-- No host move but a hardware reset changes an argument of a busy block (R31). -/
theorem hostStep_args {m : HostMove} {s t : State} (hm : m ≠ .pass) (hb : s.busy = true)
    (hr : ∀ time r, m ≠ .hardReset time r) (h : hostStep m s = .next t) : t.args = s.args := by
  rcases hostStep_cases hm h with ⟨v, code, -, -, rfl | ⟨hidle, -⟩⟩ | ⟨i, v, -, rfl⟩ | ⟨v, -, rfl⟩ | ⟨r, -, rfl⟩ |
    ⟨a, b, rfl, hs⟩ | ⟨-, rfl⟩ | ⟨time, r, rfl, -⟩
  case inl.inr =>
    rw [hb] at hidle
    cases hidle
  case inr.inl => rw [writeArg_of_busy hb]
  case inr.inr.inr.inr.inl => rw [(hostStore_next hs).2]
  case inr.inr.inr.inr.inr.inr => exact absurd rfl (hr time r)
  all_goals rfl

/-- A step changes `EXT` by the host's store only. -/
theorem step_ext {s t : State} (h : step s = .next t) :
    t.cfg = s.cfg ∧ ((∀ a b rest, s.host ≠ .storeExt a b :: rest) ∧ t.ext = s.ext ∨
      ∃ a b rest, s.host = .storeExt a b :: rest ∧ t.ext = s.ext.write a b) := by
  rcases step_cases h with ⟨rest, hh, hb⟩ | ⟨m, rest, hh, hm, -, hs⟩
  · obtain ⟨-, -, hc, -, he⟩ := blockStep_effect hb
    refine ⟨hc, .inl ⟨fun a b rest' hst => ?_, he⟩⟩
    rw [hst] at hh
    rcases hh with ⟨hh, -⟩ | ⟨more, hh, -⟩ | hh <;> cases hh
  · obtain ⟨hc, he | ⟨a, b, rfl, he⟩⟩ := hostStep_ext hm hs
    · refine ⟨hc, ?_⟩
      by_cases hst : ∃ a b, m = .storeExt a b
      · obtain ⟨a, b, rfl⟩ := hst
        rw [(hostStore_next hs).2]
        exact .inr ⟨a, b, rest, hh, rfl⟩
      · refine .inl ⟨fun a b rest' h => hst ⟨a, b, ?_⟩, he⟩
        rw [hh] at h
        exact (List.cons.inj h).1
    · exact ⟨hc, .inr ⟨a, b, rest, hh, he⟩⟩

/-- Settles O33: the block's step changes none of them, and of the host's moves only a store, a write to an argument of an
idle block and a hardware reset do. -/
theorem onlyTheHostWritesMemoryAndArguments : Obligations.OnlyTheHostWritesMemoryAndArguments := by
  intro s t hwf h
  obtain ⟨hc, he⟩ := step_ext h
  refine ⟨hc, fun a hno => ?_, fun a b rest hh => ?_, fun hq => ?_⟩
  · rcases he with ⟨-, he⟩ | ⟨a', b, rest, hh, he⟩ <;> rw [he]
    exact Memory.read_write_other _ (fun ha => hno b rest (ha ▸ hh))
  · rcases he with ⟨hno, -⟩ | ⟨a', b', rest', hh', he⟩
    · exact absurd hh (hno a b rest)
    · cases hh.symm.trans hh'
      rw [he, Memory.read_write_same hwf]
  · rcases step_cases h with ⟨rest, -, hb⟩ | ⟨m, rest, hh, hm, -, hs⟩
    · obtain ⟨-, -, -, ha, -⟩ := blockStep_effect hb
      exact ha
    · rcases hq with hq | ⟨hb, hr⟩
      · cases hq.symm.trans hh
      · exact hostStep_args (s := { s with host := rest }) hm hb (fun time r hres => hr time r rest (hres ▸ hh)) hs

end Sys2Proof.Machine

/-! SUPPORT. The phases one by one: FETCH of what a list of bytes holds, DISPATCH over the lists of R33, CMD, DATA, DLY, ADV
and PIX (R34 to R40). -/

namespace Sys2Proof.Machine

/-! ### Phase FETCH (R35) -/

theorem getElem?_of_listReader {bs : List Byte} {k : Nat} {b : Byte} (h : listReader bs k = .ok b) :
    bs[k]? = some b := by
  unfold listReader at h
  split at h <;> cases h
  assumption

/-- A reader that holds a list of bytes decodes as the list does. -/
theorem decodeWith_of_list {ε : Type} {c : Config} {rd : Nat → Except ε Byte} {bs : List Byte} {i : Instr}
    (h : decodeWith c (listReader bs) = .ok i) (hrd : ∀ (k : Nat) b, bs[k]? = some b → rd k = .ok b) :
    decodeWith c rd = .ok i := by
  rcases decodeWith_inv h with ⟨rfl, h0⟩ | ⟨d, hd, rfl, hb⟩
  · exact decodeWith_sentinel (hrd 0 _ (getElem?_of_listReader h0))
  · exact decodeWith_enc hd (fun k b hk => hrd k b (getElem?_of_listReader (hb k b hk)))

theorem blockStep_fetch {s : State} {i : Instr} (hp : s.ph = .fetch) (h : s.descriptorAt = .ok i) :
    blockStep s = exec i s := by
  simp only [blockStep, hp, h]

theorem decodeWith_of_decodeBytes {c : Config} {bs rest : List Byte} {i : Instr}
    (h : decodeBytes c bs = .ok (i, rest)) : decodeWith c (listReader bs) = .ok i := by
  unfold decodeBytes at h
  split at h <;> cases h
  assumption

/-- Settles O18: the space's reader holds the bytes, and decodes as they do. -/
theorem descriptorBytesInASpaceAreFetched : Obligations.DescriptorBytesInASpaceAreFetched := by
  intro s bs rest i hh hp hd hb
  exact (step_of_quiet hh).trans (blockStep_fetch hp (decodeWith_of_list (decodeWith_of_decodeBytes hd) hb))

/-- Settles O37. -/
theorem sentinelEndsTheRun : Obligations.SentinelEndsTheRun :=
  fun _ => rfl

theorem desc_wf_iff {c : Config} {d : Desc} : d.wf c = true ↔ d.opcode ≠ c.opEnd ∧ d.payload.length ≤ 255 := by
  simp [Desc.wf]

/-- The length byte of a descriptor holds its payload's length (R84). -/
theorem lenByte_toNat {c : Config} {d : Desc} (h : d.wf c = true) :
    (BitVec.ofNat 8 d.payload.length).toNat = d.payload.length := by
  have hl := (desc_wf_iff.1 h).2
  simp only [BitVec.toNat_ofNat]
  omega

/-- A command instruction fetches the header of its record (R35, R115). -/
theorem exec_fetched {i : Instr} {s : State} {d : Desc} (h : i.toDesc s.cfg = some d) (hd : d.wf s.cfg = true) :
    exec i s = .next (s.fetched d) := by
  rw [exec_of_toDesc h, fetchCommand, if_neg (desc_wf_iff.1 hd).1]
  rfl

/-- Settles O38. -/
theorem commandFetchLoadsTheHeader : Obligations.CommandFetchLoadsTheHeader :=
  fun _ _ _ h hd => ⟨_, lenByte_toNat hd, exec_fetched h hd⟩

/-! ### Phase DISPATCH (R33, R34) -/

theorem corner_toNat (a n : U16) : (corner a n).toNat = (a.toNat + n.toNat + (2 ^ 16 - 1)) % 2 ^ 16 := by
  simp only [corner, BitVec.toNat_sub, BitVec.toNat_add, show (1 : U16).toNat = 1 from rfl]
  omega

/-- Settles O21, by the kind of the micro-operation at `STG`. -/
theorem dispatchRunsTheMicroOperationAtStg : Obligations.DispatchRunsTheMicroOperationAtStg := by
  intro s ops hh hp ho
  refine ⟨step_complete hh hp ho, fun u hu => ?_⟩
  have hstep := step_dispatch hh hp ho hu
  refine ⟨?_, ?_, ?_, ?_, ?_, ?_⟩
  · rintro rfl ha
    exact hstep.trans (congrArg _ (emit_ok ha .tInit (fun t => { t with stg := t.stg + 1 })))
  · rintro xs ys xe ye rfl
    exact hstep
  · rintro c x y w h rfl
    exact ⟨corner x w, corner y h, pixelCount w h, corner_toNat x w, corner_toNat y h, pixelCount_toNat w h, hstep⟩
  · rintro space a rfl
    exact hstep
  · rintro space a rfl
    exact hstep
  · rintro rfl
    exact hstep

theorem microOps_of_op {s : State} {n : BitVec 4} (h : s.op = n) :
    s.microOps = ({ s with op := n } : State).microOps := by
  subst h
  rfl

theorem microOps_init {s : State} (h : s.op = 1) : s.microOps = some (initOps s.cfg) :=
  microOps_of_op h

/-- Settles O22, code by code. -/
theorem microOperationListsAreThoseOfTheTable : Obligations.MicroOperationListsAreThoseOfTheTable := by
  intro s
  refine ⟨fun h hc => ?_, fun h hc => ?_, microOps_of_op, microOps_of_op, microOps_of_op, microOps_of_op,
    microOps_of_op, microOps_of_op, microOps_of_op, microOps_of_op, fun h => ?_⟩
  · rw [microOps_init h, initOps, if_pos hc]
    rfl
  · rw [microOps_init h, initOps, if_neg (by simp [hc])]
    rfl
  · have hn : s.op.toNat = 0 ∨ 10 ≤ s.op.toNat := h.imp_left (congrArg BitVec.toNat)
    unfold State.microOps
    split
    case h_10 => rfl
    all_goals omega

/-! ### Phases CMD, DATA, DLY, ADV (R36 to R39) -/

/-- Settles O23, by the phase that follows. -/
theorem commandPhaseSendsTheOpcode : Obligations.CommandPhaseSendsTheOpcode :=
  fun _ hh hp ha => ⟨step_cmd_data hh hp ha, step_cmd_dly hh hp ha, step_cmd_adv hh hp ha⟩

theorem payload_of_bytes {s : State} {bs : List Byte} (hl : bs.length = s.len.toNat)
    (hb : ∀ (k : Nat) b, bs[k]? = some b → s.byteAt s.src s.sp (6 + k) = .ok b) : s.payload = .ok bs := by
  rw [State.payload, ← hl]
  exact readBytes_ok hb

/-- Settles O24: the payload is the bytes that the space gives. -/
theorem dataPhaseSendsThePayloadAsOneTransaction : Obligations.DataPhaseSendsThePayloadAsOneTransaction := by
  intro s bs hh hp ha hl hb
  have hpay := payload_of_bytes hl hb
  exact ⟨step_data_dly hh hp ha hpay, step_data_adv hh hp ha hpay⟩

/-- Settles O25. -/
theorem delayPhaseSendsTheDelay : Obligations.DelayPhaseSendsTheDelay :=
  fun _ hh hp ha => step_dly_adv hh hp ha

/-- Settles O26, by `MODE`. -/
theorem advancePhaseMovesPastTheDescriptor : Obligations.AdvancePhaseMovesPastTheDescriptor :=
  fun s hh hp => ⟨step_adv_one hh hp, fun hm => ⟨_, nextSp_toNat s.sp s.len, step_adv_run hh hp hm⟩⟩

/-! ### Phase PIX (R40) -/

/-- `PIXCNT` counts a burst off exactly: a burst is never more than what is left. -/
theorem pixcnt_sub_burst (c : Config) (n : U32) :
    (n - BitVec.ofNat 32 (burst c n)).toNat = n.toNat - min n.toNat c.fillBurst := by
  have hlt := n.isLt
  have hle : burst c n ≤ n.toNat := Nat.min_le_left _ _
  rw [BitVec.toNat_sub, BitVec.toNat_ofNat]
  change _ = n.toNat - burst c n
  omega

/-- Settles O27. -/
theorem pixelPhaseSendsOneBurst : Obligations.PixelPhaseSendsOneBurst := by
  intro s hh hp
  refine ⟨fun hz => (step_pix_end hh hp hz).trans (by rw [← hz]), fun hn ha => ?_⟩
  obtain ⟨hlen, hbytes⟩ := pixelBytes_spec s.color (burst s.cfg s.pixcnt)
  exact ⟨_, _, pixcnt_sub_burst s.cfg s.pixcnt, hlen, hbytes, step_pix hh hp hn ha⟩

end Sys2Proof.Machine

/-! SUPPORT. Operations that the transport answers `ok` throughout, from the descriptor that is fetched to the completed
operation (R115, R140 to R142, R161). -/

namespace Sys2Proof.Machine

/-! ### A descriptor (R115) -/

/-- After the fetch of a descriptor the run goes on as from phase FETCH at it. -/
theorem runSteps_fetched {s : State} {d : Desc} (hh : s.host = []) (hd : d.wf s.cfg = true)
    (hb : ∀ (k : Nat) b, d.enc[k]? = some b → s.byteAt s.src s.sp k = .ok b) (n : Nat) :
    runSteps (n + 1) { s with ph := .fetch } = runSteps n (s.fetched d) :=
  runSteps_succ ((step_of_quiet (s := { s with ph := .fetch }) hh).trans
    (blockStep_fetch_enc (s := { s with ph := .fetch }) rfl hd hb)) n

/-- Settles O39: a descriptor's own step does not depend on the phase, so the run is the one from its fetch. -/
theorem commandDescriptorsAreCarriedOut : Obligations.CommandDescriptorsAreCarriedOut := by
  intro s i d hi hd hh hb hs ha
  refine ⟨s.fetched d, exec_fetched hi hd, fun hm => ?_, fun hm => ?_⟩ <;>
    rw [← runSteps_fetched hh hd hb, show 1 + (execDesc s.cfg d).length + 1 = 2 + (execDesc s.cfg d).length by omega]
  · exact run_desc_run (s := { s with ph := .fetch }) hh rfl hm hd hb hs ha
  · exact run_desc_one (s := { s with ph := .fetch }) hh rfl hm hd hb hs ha

/-! ### The panel control operations (R140, R141, R142) -/

/-- An operation whose only micro-operation is the single execution of a descriptor, from acceptance to completion. -/
theorem run_single {s : State} {code : BitVec 4} {space : Space} {a : U16} {d : Desc} (hh : s.host = [])
    (ho : (s.accepted code).microOps = some [.one space a]) (hd : d.wf s.cfg = true)
    (hb : (s.accepted code).holds space a d.enc) (ha : s.answersOk (execDesc s.cfg d).length) :
    runSteps (oneStepCount s.cfg d + 1) (s.accepted code) = .next
      ({ s.accepted code with
        opc := d.opcode, len := BitVec.ofNat 8 d.payload.length, dlyv := d.delay, src := space, sp := a, mode := .one
        stg := 1, ph := .idle, busy := false, done := true }.afterTxns (execDesc s.cfg d)) :=
  runSteps_complete (run_one_op (s := s.accepted code) hh rfl ho rfl hd hb rfl ha) hh rfl ho rfl

/-- A descriptor without payload sends its command, and its delay if that is not 0 (R110). -/
theorem execDesc_noPayload {c : Config} {op : Byte} (h : op ≠ c.opEnd) (delay : U32) :
    execDesc c ⟨op, delay, []⟩ = .tCmd op :: if delay = 0 then [] else [.tDelay delay] := by
  simp [execDesc, h]

/-- One of the operations whose descriptor stands in `CTL`. -/
theorem panelControl_completes {s : State} {i : Instr} {code : BitVec 4} {op : Byte} {delay : U32} {sp : U16}
    (hi : exec i s = .next (request code accept s)) (ho : (s.accepted code).microOps = some [.one .ctl sp])
    (hn : op ∈ s.cfg.namedOps) (hb : (s.accepted code).holds .ctl sp (Desc.enc ⟨op, delay, []⟩))
    (hr : s.ready) (hh : s.host = []) (hc : s.cfg.sentinelApart = true) :
    ∃ t, exec i s = .next t ∧
      (delay = 0 → s.answersOk 1 → runSteps 5 t = .next
        ({ t with
          opc := op, len := 0, dlyv := delay, src := .ctl, sp := sp, mode := .one, stg := 1
          ph := .idle, busy := false, done := true }.afterTxns [.tCmd op])) ∧
      (delay ≠ 0 → s.answersOk 2 → runSteps 6 t = .next
        ({ t with
          opc := op, len := 0, dlyv := delay, src := .ctl, sp := sp, mode := .one, stg := 1
          ph := .idle, busy := false, done := true }.afterTxns [.tCmd op, .tDelay delay])) := by
  have hrun := run_single hh ho (wf_of_named (p := []) hc hn (Nat.zero_le 255)) hb
  rw [oneStepCount, execDesc_noPayload (opcode_ne_sentinel hc hn)] at hrun
  refine ⟨s.accepted code, exec_accept hr hi, fun hd => ?_, fun hd => ?_⟩
  · rw [if_pos hd] at hrun
    exact hrun
  · rw [if_neg hd] at hrun
    exact hrun

/-- Settles O40: each is the single execution of one of the descriptors of `CTL`. -/
theorem panelControlOperationsComplete : Obligations.PanelControlOperationsComplete := by
  intro s i code op delay sp h hr hh hc
  obtain ⟨-, h6, h12, h18⟩ := holds_ctl (s.accepted code)
  rcases h with h | h | h <;> cases h
  · exact panelControl_completes rfl rfl (by simp [Config.namedOps]) h6 hr hh hc
  · exact panelControl_completes rfl rfl (by simp [Config.namedOps]) h12 hr hh hc
  · exact panelControl_completes rfl rfl (by simp [Config.namedOps]) h18 hr hh hc

/-! ### FILL (R161) -/

theorem exec_fill {s : State} (hr : s.ready)
    (hg : s.cfg.geomCheck = true → regionInside s.cfg s.args[1] s.args[2] s.args[3] s.args[4] = true) :
    exec .fill s = .next (s.accepted 8) := by
  rw [exec_eq_request (i := .fill) rfl, request_of_ready hr, examine_accepted (by decide) (by decide)]
  rintro ⟨hgeom, ⟨h, -⟩ | ⟨-, h⟩⟩
  · exact absurd h (by decide)
  · exact absurd (hg hgeom) (Bool.eq_false_iff.1 h)

/-- The micro-operations of a fill that are the whole of an operation, from acceptance to completion. -/
theorem run_fill {s : State} {code : BitVec 4} {color x y w h : U16} (hh : s.host = [])
    (ho : (s.accepted code).microOps = some (fillOps color x y w h)) (hc : s.cfg.sentinelApart = true)
    (hb : 1 ≤ s.cfg.fillBurst) (ha : s.answersOk (fillArea s.cfg color x y w h).length) :
    runSteps (fillStepCount s.cfg (w.toNat * h.toNat) + 1) (s.accepted code) = .next
      ({ s.accepted code with
        xs := x, ys := y, xe := corner x w, ye := corner y h, color := color, pixcnt := 0
        opc := s.cfg.opRamwr, len := 0, dlyv := 0, src := .ctl, sp := 0, mode := .one, stg := 4
        ph := .idle, busy := false, done := true }.afterTxns (fillArea s.cfg color x y w h)) :=
  runSteps_complete (run_fillOps (s := s.accepted code) hh rfl ho rfl hc hb rfl rfl rfl rfl ha) hh rfl ho rfl

/-- Settles O42. -/
theorem fillStreamsItsPixels : Obligations.FillStreamsItsPixels :=
  fun s hr hh hc hb hg ha => ⟨s.accepted 8, exec_fill hr hg, run_fill hh rfl hc hb ha⟩

end Sys2Proof.Machine

/-! SUPPORT. The step of a phase that presents a transaction, and a run over `EXT` that meets no sentinel (R56, R57). -/

namespace Sys2Proof.Machine

/-! ### Emissions -/

/-- What follows the emission of a phase's transaction (R34, R36, R37, R38, R40). -/
def Phase.afterEmission : Phase → State → State
  | .dispatch, u => { u with stg := u.stg + 1 }
  | .cmd, u => afterCommand u
  | .data, u => afterPayload u
  | .dly, u => { u with ph := .adv }
  | .pix, u => { u with pixcnt := u.pixcnt - BitVec.ofNat 32 (burst u.cfg u.pixcnt) }
  | .idle, u | .fetch, u | .adv, u => u

/-- After the opcode only the phase changes (R36). -/
theorem afterCommand_eq (s : State) :
    afterCommand s = { s with ph := if s.len = 0 then (if s.dlyv = 0 then .adv else .dly) else .data } := by
  unfold afterCommand
  split <;> rfl

/-- A phase that presents a transaction emits it, and then does what the phase says. -/
theorem blockStep_emits {s : State} {e : Txn} (h : s.outstanding = some e) :
    blockStep s = .next (emit e s.ph.afterEmission s) := by
  unfold State.outstanding at h
  split at h
  case h_1 hp =>
    split at h
    · rename_i ops ho
      split at h <;> cases h
      rename_i hu
      simp only [blockStep, hp, phaseDispatch, ho, hu]
      rfl
    · cases h
  case h_2 hp =>
    cases h
    simp only [blockStep, hp]
    rfl
  case h_3 hp =>
    split at h <;> cases h
    rename_i hb
    simp only [blockStep, hp, phaseData, hb]
    rfl
  case h_4 hp =>
    cases h
    simp only [blockStep, hp]
    rfl
  case h_5 hp =>
    split at h <;> cases h
    rename_i hn
    simp only [blockStep, hp, phasePix, if_neg hn]
    rfl
  all_goals cases h

/-- The phases in which a descriptor is fetched, sent and left. -/
theorem inDescriptor_cases {p : Phase} (h : p.inDescriptor = true) :
    p = .fetch ∨ (p = .cmd ∨ p = .data ∨ p = .dly) ∨ p = .adv := by
  cases p <;> simp [Phase.inDescriptor] at h ⊢

/-! ### Runs -/

/-- A block that is idle, with no host move to come, stays as it is (R211). -/
theorem runSteps_idle {s : State} (hh : s.host = []) (hp : s.ph = .idle) (n : Nat) : runSteps n s = .next s := by
  induction n with
  | zero => rfl
  | succ n ih => rw [runSteps_succ ((step_of_quiet hh).trans (blockStep_of_idle hp)), ih]

/-- One more step. -/
theorem runSteps_then {s t u : State} {n : Nat} (h : runSteps n s = .next t) (hs : step t = .next u) :
    runSteps (n + 1) s = .next u :=
  runSteps_trans h (runSteps_one hs)

/-! ### Readers that always answer -/

theorem readBytes_total {ε : Type} (f : Nat → Byte) (o n : Nat) :
    ∃ bs, readBytes (ε := ε) (fun k => .ok (f k)) o n = .ok bs := by
  induction n generalizing o with
  | zero => exact ⟨[], rfl⟩
  | succ n ih =>
    obtain ⟨bs, h⟩ := ih (o + 1)
    exact ⟨f o :: bs, by simp only [readBytes, h]⟩

/-- Bytes that can all be read decode (R94). -/
theorem decodeWith_total {ε : Type} (c : Config) (f : Nat → Byte) :
    ∃ i, decodeWith (ε := ε) c (fun k => .ok (f k)) = .ok i := by
  obtain ⟨p, hp⟩ := readBytes_total (ε := ε) f 6 (f 1).toNat
  by_cases h : f 0 = c.opEnd
  · exact ⟨_, decodeWith_sentinel (congrArg _ h)⟩
  · exact ⟨classify c (f 0) (be32 (f 2) (f 3) (f 4) (f 5)) p, by simp only [decodeWith, h, if_false, readHeader, hp]⟩

/-! ### A run without a sentinel -/

/-- The length byte of the `k`-th descriptor of a run over `EXT` (R84). -/
def State.runLength (s : State) (k : Nat) : Byte :=
  s.ext.read (((s.runPosition k).toNat + 1) % 2 ^ s.cfg.seqAw)

/-- The run over `EXT` that was accepted in `s` is under way in `u`: to be dispatched, or at the `k`-th position, with the
length of the descriptor there once it is fetched. -/
structure State.InRun (s u : State) : Prop where
  quiet : u.host = []
  cfg : u.cfg = s.cfg
  args : u.args = s.args
  ext : u.ext = s.ext
  noRace : u.extStale = []
  op : u.op = 6
  stg : u.stg = 0
  busy : u.busy = true
  notDone : u.done = false
  place : u.ph = .dispatch ∨ u.ph.inDescriptor = true ∧ u.src = .ext ∧ u.mode = .run ∧
    ∃ k, u.sp = s.runPosition k ∧ (u.ph ≠ .fetch → u.len = s.runLength k)

/-- A transaction of the run that was accepted in `s` has failed, and the block is idle for good (R184, R186). -/
def State.RunFailed (s u : State) : Prop :=
  s.cfg.terr = true ∧ u.host = [] ∧ u.ph = .idle ∧ u.busy = false ∧ u.done = false ∧ u.fault = 2

theorem State.InRun.byteAt {s u : State} (h : s.InRun u) (k : Nat) (hsp : u.sp = s.runPosition k) (off : Nat) :
    u.byteAt .ext u.sp off = .ok (s.ext.read (((s.runPosition k).toNat + off) % 2 ^ s.cfg.seqAw)) := by
  rw [byteAt_ext h.noRace, hsp, h.ext, h.cfg]

/-- The run is dispatched (R34). -/
theorem inRun_dispatch {s u : State} (h : s.InRun u) (hp : u.ph = .dispatch) :
    ∃ v, step u = .next v ∧ s.InRun v ∧ v.ph = .fetch ∧ v.trace = u.trace := by
  have ho : u.microOps = some [.run .ext u.args[0]] := microOps_of_op h.op
  have hu : [MicroOp.run .ext u.args[0]][u.stg.toNat]? = some (.run .ext u.args[0]) := by rw [h.stg]; rfl
  refine ⟨_, step_dispatch h.quiet hp ho hu, { h with place := ?_ }, rfl, rfl⟩
  exact .inr ⟨rfl, rfl, rfl, 0, congrArg (·[0]) h.args, fun hf => absurd rfl hf⟩

/-- A descriptor is fetched: there is no sentinel (R35). -/
theorem inRun_fetch {s u : State} (hne : ∀ k, s.ext.read ((s.runPosition k).toNat % 2 ^ s.cfg.seqAw) ≠ s.cfg.opEnd)
    (h : s.InRun u) (hp : u.ph = .fetch) : ∃ v, step u = .next v ∧ s.InRun v ∧ v.ph = .cmd ∧ v.trace = u.trace := by
  obtain ⟨-, hsrc, hm, k, hsp, -⟩ := h.place.resolve_left (by simp [hp])
  have hbyte := h.byteAt k hsp
  have hi : ∃ i, decodeWith u.cfg (u.byteAt .ext u.sp) = .ok i := decodeWith_total u.cfg _
  obtain ⟨i, hi⟩ := hi
  rcases decodeWith_inv hi with ⟨-, h0⟩ | ⟨d, hd, -, hb⟩
  · rw [hbyte 0, h.cfg] at h0
    exact absurd (Except.ok.inj h0) (hne k)
  · refine ⟨u.fetched d, ?_, { h with place := .inr ⟨rfl, hsrc, hm, k, hsp, fun _ => ?_⟩ }, rfl, rfl⟩
    · rw [step_of_quiet h.quiet]
      exact blockStep_fetch_enc hp hd (hsrc ▸ hb)
    · exact Except.ok.inj ((hb 1 _ rfl).symm.trans (hbyte 1))

/-- The run goes on to the next position (R39). -/
theorem inRun_advance {s u : State} (h : s.InRun u) (hp : u.ph = .adv) :
    ∃ v, step u = .next v ∧ s.InRun v ∧ v.ph = .fetch ∧ v.trace = u.trace := by
  obtain ⟨-, hsrc, hm, k, hsp, hlen⟩ := h.place.resolve_left (by simp [hp])
  refine ⟨_, step_adv_run h.quiet hp hm, { h with place := .inr ⟨rfl, hsrc, hm, k + 1, ?_, fun hf => absurd rfl hf⟩ },
    rfl, rfl⟩
  show nextSp u.sp u.len = s.runPosition (k + 1)
  rw [hsp, hlen (by simp [hp])]
  rfl

/-- The transactions of a descriptor: its phases CMD, DATA and DLY each present one. -/
theorem inRun_outstanding {s u : State} (h : s.InRun u) (hp : u.ph = .cmd ∨ u.ph = .data ∨ u.ph = .dly) :
    ∃ e, u.outstanding = some e := by
  rcases hp with hp | hp | hp
  · exact ⟨.tCmd u.opc, by simp only [State.outstanding, hp]⟩
  · obtain ⟨-, hsrc, -⟩ := h.place.resolve_left (by simp [hp])
    have hb : ∃ bs, u.payload = .ok bs := by
      rw [State.payload, hsrc]
      exact readBytes_total _ 6 _
    obtain ⟨bs, hb⟩ := hb
    exact ⟨.tData bs, by simp only [State.outstanding, hp, hb]⟩
  · exact ⟨.tDelay u.dlyv, by simp only [State.outstanding, hp]⟩

/-- After a transaction of a descriptor that succeeded, one of its later phases comes. -/
theorem afterEmission_enters (s : State) (hp : s.ph = .cmd ∨ s.ph = .data ∨ s.ph = .dly) :
    ∃ p, s.mayEnter p ∧ ∀ ts, s.ph.afterEmission (s.afterTxns ts) = ({ s with ph := p } : State).afterTxns ts := by
  rcases hp with hp | hp | hp <;> rw [hp]
  · exact afterCommand_enters s
  · exact afterPayload_enters s
  · exact ⟨.adv, .inr (.inr rfl), fun _ => rfl⟩

theorem mayEnter_inDescriptor {s : State} {p : Phase} (h : s.mayEnter p) : p.inDescriptor = true ∧ p ≠ .fetch := by
  rcases h with ⟨rfl, -⟩ | ⟨rfl, -⟩ | rfl <;> exact ⟨rfl, nofun⟩

/-- A transaction of the run succeeds, and the run goes on, or fails, and ends the operation. -/
theorem inRun_send {s u : State} (h : s.InRun u) (hp : u.ph = .cmd ∨ u.ph = .data ∨ u.ph = .dly) :
    ∃ v, step u = .next v ∧ (s.InRun v ∨ s.RunFailed v) ∧ u.trace.length < v.trace.length := by
  obtain ⟨e, he⟩ := inRun_outstanding h hp
  refine ⟨_, (step_of_quiet h.quiet).trans (blockStep_emits he), ?_⟩
  rcases emit_cases e u.ph.afterEmission u with ⟨-, hok⟩ | ⟨-, ht, hfail⟩
  · obtain ⟨p, hin, hafter⟩ := afterEmission_enters u hp
    obtain ⟨hd, hf⟩ := mayEnter_inDescriptor hin
    rw [hok, hafter]
    have hne : u.ph ≠ .dispatch ∧ u.ph ≠ .fetch := by rcases hp with hp | hp | hp <;> simp [hp]
    obtain ⟨-, hsrc, hm, k, hsp, hlen⟩ := h.place.resolve_left hne.1
    exact ⟨.inl { h with place := .inr ⟨hd, hsrc, hm, k, hsp, fun _ => hlen hne.2⟩ }, by simp⟩
  · rw [hfail]
    exact ⟨.inr ⟨h.cfg ▸ ht, h.quiet, rfl, rfl, rfl, rfl⟩, by simp⟩

/-- The phases of a run. -/
theorem inRun_phases {s u : State} (h : s.InRun u) :
    u.ph = .dispatch ∨ u.ph = .fetch ∨ (u.ph = .cmd ∨ u.ph = .data ∨ u.ph = .dly) ∨ u.ph = .adv := by
  obtain hd | ⟨hd, -⟩ := h.place
  · exact .inl hd
  · exact .inr (inDescriptor_cases hd)

/-- Some run from here on emits. -/
def State.willEmit (u : State) : Prop :=
  ∃ m v, runSteps m u = .next v ∧ u.trace.length < v.trace.length

theorem willEmit_of_step {u v : State} (hv : step u = .next v) (ht : v.trace = u.trace) (h : v.willEmit) :
    u.willEmit := by
  obtain ⟨m, w, hw, hlt⟩ := h
  exact ⟨m + 1, w, (runSteps_succ hv m).trans hw, ht ▸ hlt⟩

theorem inRun_willEmit_send {s u : State} (h : s.InRun u) (hp : u.ph = .cmd ∨ u.ph = .data ∨ u.ph = .dly) :
    u.willEmit := by
  obtain ⟨v, hv, -, hlt⟩ := inRun_send h hp
  exact ⟨1, v, runSteps_one hv, hlt⟩

section
variable {s : State} (hne : ∀ k, s.ext.read ((s.runPosition k).toNat % 2 ^ s.cfg.seqAw) ≠ s.cfg.opEnd)
include hne

/-- A run that meets no sentinel goes on, or a transaction fails. -/
theorem inRun_step {u : State} (h : s.InRun u ∨ s.RunFailed u) :
    ∃ v, step u = .next v ∧ (s.InRun v ∨ s.RunFailed v) := by
  rcases h with h | h
  · rcases inRun_phases h with hp | hp | hp | hp
    · obtain ⟨v, hv, hr, -⟩ := inRun_dispatch h hp
      exact ⟨v, hv, .inl hr⟩
    · obtain ⟨v, hv, hr, -⟩ := inRun_fetch hne h hp
      exact ⟨v, hv, .inl hr⟩
    · obtain ⟨v, hv, hr, -⟩ := inRun_send h hp
      exact ⟨v, hv, hr⟩
    · obtain ⟨v, hv, hr, -⟩ := inRun_advance h hp
      exact ⟨v, hv, .inl hr⟩
  · obtain ⟨-, hh, hp, -⟩ := id h
    exact ⟨u, (step_of_quiet hh).trans (blockStep_of_idle hp), .inr h⟩

theorem inRun_runSteps {t : State} (h : s.InRun t) (n : Nat) :
    ∃ u, runSteps n t = .next u ∧ (s.InRun u ∨ s.RunFailed u) := by
  induction n with
  | zero => exact ⟨t, rfl, .inl h⟩
  | succ n ih =>
    obtain ⟨u, hu, hr⟩ := ih
    obtain ⟨v, hv, hr⟩ := inRun_step hne hr
    exact ⟨v, runSteps_then hu hv, hr⟩

theorem inRun_willEmit_fetch {u : State} (h : s.InRun u) (hp : u.ph = .fetch) : u.willEmit := by
  obtain ⟨v, hv, hr, hcmd, ht⟩ := inRun_fetch hne h hp
  exact willEmit_of_step hv ht (inRun_willEmit_send hr (.inl hcmd))

/-- A run that meets no sentinel emits again, at the latest after the next fetch. -/
theorem inRun_willEmit {u : State} (h : s.InRun u) : u.willEmit := by
  rcases inRun_phases h with hp | hp | hp | hp
  · obtain ⟨v, hv, hr, hf, ht⟩ := inRun_dispatch h hp
    exact willEmit_of_step hv ht (inRun_willEmit_fetch hne hr hf)
  · exact inRun_willEmit_fetch hne h hp
  · exact inRun_willEmit_send h hp
  · obtain ⟨v, hv, hr, hf, ht⟩ := inRun_advance h hp
    exact willEmit_of_step hv ht (inRun_willEmit_fetch hne hr hf)

end

/-- Settles O53: the run is kept under way by every step but a failed transaction's, and emits every few steps. -/
theorem runWithoutSentinelNeverEnds : Obligations.RunWithoutSentinelNeverEnds := by
  intro s hr hh hne
  have h0 : s.InRun (s.accepted 6) := ⟨hh, rfl, rfl, rfl, rfl, rfl, rfl, rfl, rfl, .inl rfl⟩
  refine ⟨s.accepted 6, exec_accept hr rfl, fun n => ?_⟩
  obtain ⟨u, hu, h⟩ := inRun_runSteps hne h0 n
  refine ⟨u, hu, ?_⟩
  rcases h with h | ⟨ht, -, -, hb, hd, hf⟩
  · refine ⟨h.notDone, fun hb => ?_, fun _ => ?_⟩
    · rw [h.busy] at hb
      cases hb
    · obtain ⟨m, v, hv, hlt⟩ := inRun_willEmit hne h
      exact ⟨m, v, runSteps_trans hu hv, hlt⟩
  · refine ⟨hd, fun _ => ⟨ht, hf⟩, fun hb' => ?_⟩
    rw [hb] at hb'
    cases hb'

end Sys2Proof.Machine

/-! SUPPORT. Operations from acceptance to completion when the transport answers `ok` throughout, in the one form in which
all nine are compared with their functions (R43): some number of steps, the flags of completion, the transactions. -/

namespace Sys2Proof.Machine

/-- The block is idle after an operation that completed (R45). -/
def State.Completed (w : State) : Prop :=
  w.ph = .idle ∧ w.busy = false ∧ w.done = true ∧ w.fault = 0

/-- Some run completes the operation with these transactions, all answered `ok`. -/
def State.completes (s : State) (ts : List Txn) : Prop :=
  ∃ n w, runSteps n s = .next w ∧ w.Completed ∧ w.trace = s.trace ++ ts.map (⟨·, .ok⟩)

/-- A first part of an operation, then the rest of it. -/
theorem completes_append {s u : State} {ts us : List Txn} {n : Nat} (h : runSteps n s = .next (u.afterTxns ts))
    (ht : u.trace = s.trace) (hu : (u.afterTxns ts).completes us) : s.completes (ts ++ us) := by
  obtain ⟨m, w, hw, hdone, htrace⟩ := hu
  refine ⟨n + m, w, runSteps_trans h hw, hdone, ?_⟩
  rw [htrace, afterTxns_trace, ht, List.map_append, List.append_assoc]

/-- The last part of an operation, then its completion. -/
theorem completes_last {s u : State} {ts : List Txn} {ops : List MicroOp} {n : Nat}
    (h : runSteps n s = .next (u.afterTxns ts)) (ht : u.trace = s.trace) (hh : u.host = []) (hp : u.ph = .dispatch)
    (hf : u.fault = 0) (ho : u.microOps = some ops) (hs : u.stg.toNat = ops.length) : s.completes ts :=
  ⟨n + 1, _, runSteps_complete h hh hp ho hs, ⟨rfl, rfl, rfl, hf⟩, by rw [afterTxns_trace, ← ht]⟩

/-! ### What `EXT` holds (R55, R56) -/

/-- What stands in `EXT` stands there for the block, whose addresses are taken modulo its size. -/
theorem holds_of_extHolds {s : State} {a : U16} {bs : List Byte} (haw : s.cfg.seqAw ≤ 16) (hs : s.extStale = [])
    (h : s.extHolds a bs) : s.holds .ext a bs := by
  intro k b p off hk hp
  have hmod : (p.toNat + off) % 2 ^ s.cfg.seqAw = (a.toNat + k) % 2 ^ s.cfg.seqAw :=
    Nat.ModEq.of_dvd (pow_dvd_pow 2 haw) hp
  rw [byteAt_ext hs, hmod, h k b hk]

/-! ### The operations -/

section
variable {s : State} (hh : s.host = [])
include hh

theorem completes_single {code : BitVec 4} {space : Space} {a : U16} {d : Desc}
    (ho : (s.accepted code).microOps = some [.one space a]) (hd : d.wf s.cfg = true)
    (hb : (s.accepted code).holds space a d.enc) (ha : s.answersOk (execDesc s.cfg d).length) :
    (s.accepted code).completes (execDesc s.cfg d) :=
  ⟨_, _, run_single hh ho hd hb ha, ⟨rfl, rfl, rfl, rfl⟩, rfl⟩

/-- RUNCMD at a sentinel: its dispatch and the fetch of the sentinel (R113). -/
theorem completes_runcmd_sentinel (he : s.extHolds s.args[0] [s.cfg.opEnd]) : (s.accepted 5).completes [] := by
  have hdis := step_dispatch (s := s.accepted 5) (u := .one .ext s.args[0]) hh rfl rfl rfl
  have hbyte : (runMicroOp (.one .ext s.args[0]) (s.accepted 5)).byteAt .ext s.args[0] 0 = .ok s.cfg.opEnd := by
    rw [byteAt_ext rfl]
    exact congrArg _ (he 0 _ rfl)
  have hfetch := (step_of_quiet (s := runMicroOp (.one .ext s.args[0]) (s.accepted 5)) hh).trans
    (blockStep_fetch_sentinel rfl hbyte)
  refine completes_last (n := 2) (u := fetchSentinel (runMicroOp (.one .ext s.args[0]) (s.accepted 5))) ?_ rfl hh rfl
    rfl rfl rfl
  rw [afterTxns_nil]
  exact runSteps_trans (m := 1) (runSteps_one hdis) (runSteps_one hfetch)

/-- RUNSEQ over a well-formed sequence (R114). -/
theorem completes_runseq {ds : List Desc} (hd : ∀ d ∈ ds, d.wf s.cfg = true)
    (hb : (s.accepted 6).holds .ext s.args[0] (encSeq s.cfg ds)) (ha : s.answersOk (seqTxns s.cfg ds).length) :
    (s.accepted 6).completes (seqTxns s.cfg ds) := by
  obtain ⟨len, dlyv, hrun⟩ := run_run_op (s := s.accepted 6) hh rfl rfl rfl hd hb rfl ha
  exact completes_last hrun rfl hh rfl rfl rfl rfl

/-- SETWIN (R151). -/
theorem completes_setwin (hc : s.cfg.legal = true)
    (ha : s.answersOk (setWindow s.cfg s.args[0] s.args[1] s.args[2] s.args[3]).length) :
    (s.accepted 7).completes (setWindow s.cfg s.args[0] s.args[1] s.args[2] s.args[3]) := by
  have hsep := (legal_inv hc).1
  rw [setWindow_eq hsep] at ha
  have hload := step_dispatch (s := s.accepted 7) (u := .loadwin s.args[0] s.args[1] s.args[2] s.args[3]) hh rfl rfl rfl
  have hset := run_windowSet (s := runMicroOp (.loadwin s.args[0] s.args[1] s.args[2] s.args[3]) (s.accepted 7))
    hh rfl rfl rfl rfl rfl hsep ha
  exact completes_last (n := 15) ((runSteps_succ hload 14).trans hset) rfl hh rfl rfl rfl rfl

/-- FILL and CLEAR (R161, R165). -/
theorem completes_fill {code : BitVec 4} {color x y w h : U16} (hc : s.cfg.legal = true)
    (ho : (s.accepted code).microOps = some (fillOps color x y w h))
    (ha : s.answersOk (fillArea s.cfg color x y w h).length) :
    (s.accepted code).completes (fillArea s.cfg color x y w h) := by
  obtain ⟨hsep, -, -, hburst, -⟩ := legal_inv hc
  exact ⟨_, _, run_fill hh ho hsep hburst ha, ⟨rfl, rfl, rfl, rfl⟩, rfl⟩

end

/-! ### INIT (R130, R131) -/

/-- The micro-operations of INIT after its TINIT, if it has one. -/
theorem initOps_at (c : Config) {k : BitVec 3} (hk : k = if c.initCallsTinit then 1 else 0) :
    (initOps c)[k.toNat]? = some (.run .rom1 0) ∧
    (initOps c)[(k + 1).toNat]? = some (.loadfill c.initClearColor 0 0 (panelSize c.panelW) (panelSize c.panelH)) ∧
    (initOps c)[(k + 1 + 1).toNat]? = some (.run .win 0) ∧ (initOps c)[(k + 1 + 1 + 1).toNat]? = some (.one .ctl 0) ∧
    (initOps c)[(k + 1 + 1 + 1 + 1).toNat]? = some .pix ∧
    (initOps c)[(k + 1 + 1 + 1 + 1 + 1).toNat]? = some (.run .rom2 0) ∧
    (k + 1 + 1 + 1 + 1 + 1 + 1).toNat = (initOps c).length := by
  subst hk
  unfold initOps
  split <;> exact ⟨rfl, rfl, rfl, rfl, rfl, rfl, rfl⟩

/-- INIT after its TINIT, if it has one: the first table, the clear of the panel, the second table. -/
theorem completes_initTables {s : State} {one two : List Desc} (hh : s.host = []) (hp : s.ph = .dispatch)
    (ho : s.microOps = some (initOps s.cfg)) (hf : s.fault = 0) (hst : s.extStale = [])
    (hk : s.stg = if s.cfg.initCallsTinit then 1 else 0) (hc : s.cfg.legal = true)
    (h1 : sequenceOf s.cfg s.cfg.rom1 = some one) (h2 : sequenceOf s.cfg s.cfg.rom2 = some two)
    (ha : s.answersOk (seqTxns s.cfg one ++ (clearPanel s.cfg s.cfg.initClearColor ++ seqTxns s.cfg two)).length) :
    s.completes (seqTxns s.cfg one ++ (clearPanel s.cfg s.cfg.initClearColor ++ seqTxns s.cfg two)) := by
  obtain ⟨hsep, hrom1, hrom2, hburst, -⟩ := legal_inv hc
  obtain ⟨hw1, he1⟩ := (sequenceOf_eq_some_iff ..).1 h1
  obtain ⟨hw2, he2⟩ := (sequenceOf_eq_some_iff ..).1 h2
  obtain ⟨u0, u1, u2, u3, u4, u5, hend⟩ := initOps_at s.cfg hk
  rw [List.length_append, List.length_append] at ha
  obtain ⟨len1, dlyv1, r1⟩ := run_run_op hh hp ho u0 hw1 (he1 ▸ holds_rom1 (romLegal_inv hrom1).1) hst
    (answersOk_mono ha (by omega))
  refine completes_append r1 rfl ?_
  set t1 : State := State.afterTxns (seqTxns s.cfg one) _
  have r2 := run_fillOps (s := t1) hh rfl ho hst hsep hburst u1 u2 u3 u4
    (answersOk_rest (s := s) (answersOk_mono ha (Nat.add_le_add_left (Nat.le_add_right _ _) _)) rfl rfl)
  refine completes_append r2 rfl ?_
  set t2 : State := State.afterTxns (clearPanel s.cfg s.cfg.initClearColor) _
  obtain ⟨len2, dlyv2, r3⟩ := run_run_op (s := t2) hh rfl ho u5 hw2
    (he2 ▸ holds_rom2 (s := t2) (romLegal_inv hrom2).1) hst (answersOk_rest (s := t1) (answersOk_rest (s := s) ha rfl rfl) rfl rfl)
  exact completes_last r3 rfl hh rfl hf ho hend

theorem completes_init {s : State} {one two : List Desc} (hh : s.host = []) (hc : s.cfg.legal = true)
    (h1 : sequenceOf s.cfg s.cfg.rom1 = some one) (h2 : sequenceOf s.cfg s.cfg.rom2 = some two)
    (ha : s.answersOk (initTxns s.cfg one two).length) : (s.accepted 1).completes (initTxns s.cfg one two) := by
  unfold initTxns at ha ⊢
  rw [List.append_assoc, List.append_assoc] at ha ⊢
  by_cases hk : s.cfg.initCallsTinit = true
  · rw [if_pos hk] at ha ⊢
    rw [List.length_append] at ha
    have hu : (initOps s.cfg)[(s.accepted 1).stg.toNat]? = some .tinit := by
      rw [initOps, if_pos hk]
      rfl
    have hstep := (step_dispatch (s := s.accepted 1) hh rfl rfl hu).trans
      (congrArg _ (emit_ok (s := s.accepted 1) (answersOk_mono ha (Nat.le_add_right 1 _)) .tInit
        (fun t => { t with stg := t.stg + 1 })))
    refine completes_append (u := { s.accepted 1 with stg := 1 }) (runSteps_one hstep) rfl ?_
    exact completes_initTables (s := State.afterTxns [.tInit] { s.accepted 1 with stg := 1 }) hh rfl rfl rfl rfl
      (if_pos hk).symm hc h1 h2 (answersOk_rest (s := s) ha rfl rfl)
  · rw [if_neg hk] at ha ⊢
    exact completes_initTables (s := s.accepted 1) hh rfl rfl rfl rfl (if_neg hk).symm hc h1 h2 ha

end Sys2Proof.Machine

/-! SUPPORT. An operation under any answers of the transport (R186): it goes as with other answers until one of its
transactions fails, so that what it emits is a beginning of what an undisturbed run emits. -/

namespace Sys2Proof.Machine

/-! ### Other answers to come -/

/-- The machine with other answers of the transport to come. -/
def State.withAnswers (s : State) (answers : List Answer) : State := { s with answers := answers }

@[simp] theorem withAnswers_trace (s : State) (as : List Answer) : (s.withAnswers as).trace = s.trace := rfl

theorem afterEmission_withAnswers (p : Phase) (s : State) (as : List Answer) :
    p.afterEmission (s.withAnswers as) = (p.afterEmission s).withAnswers as := by
  cases p
  case cmd =>
    show afterCommand (s.withAnswers as) = (afterCommand s).withAnswers as
    rw [afterCommand_eq, afterCommand_eq]
    rfl
  all_goals rfl

/-- A step that presents no transaction does not ask for an answer. -/
theorem step_withAnswers {s t : State} (hh : s.host = []) (ho : s.outstanding = none) (h : step s = .next t)
    (as : List Answer) : step (s.withAnswers as) = .next (t.withAnswers as) := by
  have hq : (s.withAnswers as).host = [] := hh
  rw [step_of_quiet hh] at h
  rcases blockStep_cases h with ⟨hp, rfl⟩ | ⟨hp, ops, hops, ⟨u, hu, rfl⟩ | ⟨hl, rfl⟩⟩ |
    ⟨hp, ⟨hb, rfl⟩ | ⟨d, hd, hb, rfl⟩⟩ | ⟨hp, -⟩ | ⟨hp, bs, hb, -⟩ | ⟨hp, -⟩ | ⟨hp, ⟨hm, rfl⟩ | ⟨hm, rfl⟩⟩ | ⟨hp, ⟨hz, rfl⟩ | ⟨hn, -⟩⟩
  · exact (step_of_quiet hq).trans (blockStep_of_idle hp)
  · refine (step_dispatch hq hp hops hu).trans ?_
    cases u with
    | tinit => simp [State.outstanding, hp, hops, hu] at ho
    | _ => rfl
  · exact step_complete hq hp hops hl
  · exact (step_of_quiet hq).trans (blockStep_fetch_sentinel hp hb)
  · exact (step_of_quiet hq).trans (blockStep_fetch_enc hp hd hb)
  · simp [State.outstanding, hp] at ho
  · simp [State.outstanding, hp, hb] at ho
  · simp [State.outstanding, hp] at ho
  · exact step_adv_one hq hp hm
  · exact step_adv_run hq hp hm
  · refine (step_pix_end hq hp hz).trans ?_
    rw [← hz]
    rfl
  · simp only [State.outstanding, hp, if_neg hn, reduceCtorEq] at ho

theorem runSteps_succ_inv {s t : State} {n : Nat} (h : runSteps (n + 1) s = .next t) :
    ∃ u, step s = .next u ∧ runSteps n u = .next t := by
  rw [runSteps] at h
  split at h
  · exact ⟨_, by assumption, h⟩
  · cases h
  · cases h

/-- The trace only grows. -/
theorem runSteps_trace {s t : State} {n : Nat} (h : runSteps n s = .next t) : ∃ more, t.trace = s.trace ++ more := by
  induction n generalizing s with
  | zero =>
    cases h
    exact ⟨[], (List.append_nil _).symm⟩
  | succ n ih =>
    obtain ⟨u, hu, h⟩ := runSteps_succ_inv h
    obtain ⟨more, hm⟩ := ih h
    rcases step_trace hu with he | ⟨e, a, -, he⟩ <;> rw [hm, he]
    · exact ⟨more, rfl⟩
    · exact ⟨⟨e, a⟩ :: more, by simp⟩

theorem afterEmission_trace (p : Phase) (s : State) : (p.afterEmission s).trace = s.trace := by
  cases p
  case cmd =>
    show (afterCommand s).trace = s.trace
    rw [afterCommand_eq]
  all_goals rfl

/-- In a run that completes with transactions all answered `ok`, the transaction that is presented is the next of them and
succeeds. -/
theorem completed_emits {s v w : State} {e : Txn} {ts : List Txn} {n : Nat} (hh : s.host = [])
    (ho : s.outstanding = some e) (hs : step s = .next v) (hw : runSteps n v = .next w)
    (ht : w.trace = s.trace ++ ts.map (⟨·, .ok⟩)) :
    v = s.ph.afterEmission (s.afterTxns [e]) ∧ ∃ us, ts = e :: us ∧ w.trace = v.trace ++ us.map (⟨·, .ok⟩) := by
  rw [step_of_quiet hh, blockStep_emits ho] at hs
  obtain ⟨more, hm⟩ := runSteps_trace hw
  have next : ∀ a, v.trace = s.trace ++ [⟨e, a⟩] →
      a = .ok ∧ ∃ us, ts = e :: us ∧ w.trace = v.trace ++ us.map (⟨·, .ok⟩) := by
    intro a ha
    rw [hm, ha, List.append_assoc, List.append_cancel_left_eq] at ht
    cases ts with
    | nil => cases ht
    | cons t us =>
      rw [List.map_cons, List.singleton_append, List.cons.injEq, Entry.mk.injEq] at ht
      obtain ⟨⟨rfl, rfl⟩, rfl⟩ := ht
      exact ⟨rfl, us, rfl, hm⟩
  rcases emit_cases e s.ph.afterEmission s with ⟨-, hok⟩ | ⟨hfail, -, hr⟩
  · obtain rfl : _ = v := Host.Outcome.next.inj (hok ▸ hs)
    refine ⟨rfl, (next .ok ?_).2⟩
    rw [afterEmission_trace]
    rfl
  · obtain rfl : _ = v := Host.Outcome.next.inj (hr ▸ hs)
    have htr : (raiseFault faultTransportError (record e s)).trace = s.trace ++ [⟨e, .fail⟩] := by
      rw [← hfail]
      rfl
    cases (next .fail htr).1

/-- A step under other answers than those of a run that completes: it goes as there, or the transaction that is presented,
the next of that run's, fails. -/
theorem step_of_completed {s s1 v w : State} {as : List Answer} {ts : List Txn} {n : Nat} (hh : s.host = [])
    (hs : step s = .next s1) (hv : step (s.withAnswers as) = .next v) (hw : runSteps n v = .next w)
    (ht : w.trace = s.trace ++ ts.map (⟨·, .ok⟩)) :
    (∃ as' us, v = s1.withAnswers as' ∧ w.trace = s1.trace ++ us.map (⟨·, .ok⟩) ∧
      (ts = us ∧ s1.trace = s.trace ∨ ∃ e, ts = e :: us ∧ s1.trace = s.trace ++ [⟨e, .ok⟩])) ∨
    ∃ e us, ts = e :: us ∧ s.nextAnswer = .fail ∧ s1 = raiseFault faultTransportError (record e s) := by
  cases ho : s.outstanding with
  | none =>
    rw [step_withAnswers hh ho hs] at hv
    have ht1 : s1.trace = s.trace := by
      rcases step_trace hs with h | ⟨e, a, he, -⟩
      · exact h
      · cases ho.symm.trans he
    exact .inl ⟨as, ts, (Host.Outcome.next.inj hv).symm, ht1 ▸ ht, .inl ⟨rfl, ht1⟩⟩
  | some e =>
    obtain ⟨hv', us, hts, htw⟩ := completed_emits (s := s.withAnswers as) hh ho hv hw ht
    have hs1 := (blockStep_emits ho).symm.trans ((step_of_quiet hh).symm.trans hs)
    rcases emit_cases e s.ph.afterEmission s with ⟨-, hok⟩ | ⟨hfail, -, hr⟩
    · obtain rfl : _ = s1 := Host.Outcome.next.inj (hok ▸ hs1)
      have hv1 : v = State.withAnswers (s.ph.afterEmission (s.afterTxns [e]))
          (if s.cfg.terr then as.drop 1 else as) := by
        rw [hv', ← afterEmission_withAnswers]
        rfl
      refine .inl ⟨_, us, hv1, ?_, .inr ⟨e, hts, afterEmission_trace ..⟩⟩
      rw [hv1] at htw
      exact htw
    · exact .inr ⟨e, us, hts, hfail, (Host.Outcome.next.inj (hr ▸ hs1)).symm⟩

/-! ### What has been emitted -/

/-- What an operation has emitted since the trace was `start`, a beginning of `ts`, and the two ways in which it ends (R45,
R186). -/
def State.emittedOf (u : State) (start : List Entry) (ts : List Txn) : Prop :=
  ∃ sent rest : List Txn, ∃ answers : List Answer, ts = sent ++ rest ∧ answers.length = sent.length ∧
    u.trace = start ++ List.zipWith Entry.mk sent answers ∧
    (u.busy = true → ∀ a ∈ answers, a = .ok) ∧
    (u.busy = false →
      (rest = [] ∧ u.done = true ∧ u.fault = 0 ∧ ∀ a ∈ answers, a = .ok) ∨
      (u.done = false ∧ u.fault = 2 ∧ ∃ before, answers = before ++ [.fail] ∧ ∀ a ∈ before, a = .ok))

theorem emittedOf_busy {u : State} {ts : List Txn} (hb : u.busy = true) : u.emittedOf u.trace ts :=
  ⟨[], ts, [], rfl, rfl, (List.append_nil _).symm, fun _ => nofun, fun h => by rw [hb] at h; cases h⟩

theorem emittedOf_completed {u : State} (h : u.Completed) : u.emittedOf u.trace [] := by
  obtain ⟨-, hb, hd, hf⟩ := h
  exact ⟨[], [], [], rfl, rfl, (List.append_nil _).symm, fun _ => nofun, fun _ => .inl ⟨rfl, hd, hf, nofun⟩⟩

/-- The first transaction succeeded. -/
theorem emittedOf_cons {u : State} {start : List Entry} {e : Txn} {ts : List Txn}
    (h : u.emittedOf (start ++ [⟨e, .ok⟩]) ts) : u.emittedOf start (e :: ts) := by
  obtain ⟨sent, rest, answers, rfl, hl, ht, hbusy, hidle⟩ := h
  refine ⟨e :: sent, rest, .ok :: answers, rfl, congrArg (· + 1) hl, by simpa using ht,
    fun hb => List.forall_mem_cons.2 ⟨rfl, hbusy hb⟩, fun hb => ?_⟩
  rcases hidle hb with ⟨hr, hd, hf, hok⟩ | ⟨hd, hf, before, rfl, hok⟩
  · exact .inl ⟨hr, hd, hf, List.forall_mem_cons.2 ⟨rfl, hok⟩⟩
  · exact .inr ⟨hd, hf, .ok :: before, rfl, List.forall_mem_cons.2 ⟨rfl, hok⟩⟩

/-- The first transaction failed. -/
theorem emittedOf_failed {s : State} {e : Txn} (h : s.nextAnswer = .fail) (ts : List Txn) :
    (raiseFault faultTransportError (record e s)).emittedOf s.trace (e :: ts) := by
  refine ⟨[e], ts, [.fail], rfl, rfl, ?_, nofun, fun _ => .inr ⟨rfl, rfl, [], rfl, nofun⟩⟩
  rw [← h]
  rfl

/-- Under any answers an operation emits a beginning of what a run with other answers emits that completes it. -/
theorem emittedOf_of_completed {n m : Nat} {s u w : State} {as : List Answer} {ts : List Txn} (hh : s.host = [])
    (hc : s.cfg.legal = true) (hs : s.Idle ∨ s.Running) (hw : runSteps n (s.withAnswers as) = .next w)
    (hd : w.Completed) (ht : w.trace = s.trace ++ ts.map (⟨·, .ok⟩)) (hu : runSteps m s = .next u) :
    u.emittedOf s.trace ts := by
  induction m generalizing n s as ts with
  | zero =>
    obtain rfl : s = u := Host.Outcome.next.inj hu
    rcases hs with hs | hs
    · rw [runSteps_idle (s := s.withAnswers as) hh hs.1] at hw
      cases hw
      obtain rfl : ts = [] := by simpa using ht
      exact emittedOf_completed hd
    · exact emittedOf_busy hs.operating.1
  | succ m ih =>
    obtain ⟨s1, hs1, hu⟩ := runSteps_succ_inv hu
    have hb1 : blockStep s = .next s1 := (step_of_quiet hh).symm.trans hs1
    obtain ⟨-, -, hcfg, -, -⟩ := blockStep_effect hb1
    have hh1 : s1.host = [] := (blockStep_host hb1).1.trans hh
    have hc1 : s1.cfg.legal = true := hcfg ▸ hc
    have hst1 : s1.Idle ∨ s1.Running := by
      rcases hs with hs | hs
      · rw [blockStep_of_idle hs.1] at hb1
        exact .inl (Host.Outcome.next.inj hb1 ▸ hs)
      · exact blockStep_control hc hs hb1
    cases n with
    | zero =>
      cases hw
      obtain rfl : s = s1 := Host.Outcome.next.inj ((blockStep_of_idle (s := s) hd.1).symm.trans hb1)
      exact ih (n := 0) hh hc hs rfl ht hu
    | succ n =>
      obtain ⟨v, hv, hw⟩ := runSteps_succ_inv hw
      rcases step_of_completed hh hs1 hv hw ht with
        ⟨as', us, rfl, htw, ⟨rfl, ht1⟩ | ⟨e, rfl, ht1⟩⟩ | ⟨e, us, rfl, hf, rfl⟩
      · exact ht1 ▸ ih hh1 hc1 hst1 hw htw hu
      · exact emittedOf_cons (ht1 ▸ ih hh1 hc1 hst1 hw htw hu)
      · rw [runSteps_idle hh1 rfl] at hu
        cases hu
        exact emittedOf_failed hf us

/-! ### The nine operations -/

/-- An accepted operation whose undisturbed run completes with the transactions of its function. -/
theorem emittedOf_accepted {s t u : State} {i : Instr} {code : BitVec 4} {ts : List Txn} {n : Nat}
    (hh : s.host = []) (hc : s.cfg.legal = true) (hi : i.opCode = some code) (he : exec i s = .next t)
    (hb : s.busy = false) (ht : t.busy = true) (hu : runSteps n t = .next u)
    (h : ((s.withAnswers (List.replicate ts.length .ok)).accepted code).completes ts) : u.emittedOf s.trace ts := by
  rcases request_state hi he with rfl | ⟨-, ⟨rfl, hcode⟩ | ⟨rfl, -⟩ | ⟨-, rfl⟩⟩
  · rw [hb] at ht
    cases ht
  · obtain ⟨m, w, hw, hd, htw⟩ := h
    obtain ⟨ops, ho⟩ := microOps_of_code (s := s.accepted code) hcode
    have hrun : (s.accepted code).Running := running_dispatch rfl ⟨rfl, rfl, rfl⟩ ho (Nat.zero_le _)
      (fun hp => absurd hp (microOps_head_ne_pix ho))
    exact emittedOf_of_completed (s := s.accepted code) hh hc (.inr hrun) hw hd htw hu
  · cases ht
  · cases ht

theorem answersOk_replicate (s : State) (n : Nat) : (s.withAnswers (List.replicate n .ok)).answersOk n :=
  fun _ => List.take_replicate.trans (by rw [Nat.min_self])

theorem seqAw_le {c : Config} (h : c.legal = true) : c.seqAw ≤ 16 := by
  simp only [Config.legal, Bool.and_eq_true, decide_eq_true_eq] at h
  exact h.2

/-- The transactions that the function of an operation gives (R43), for RUNCMD and RUNSEQ by what stands in `EXT` at
`ARG[0]` (R113, R114). -/
def State.functionGives (s : State) (i : Instr) (ts : List Txn) : Prop :=
  i = .reset ∧ ts = execDesc s.cfg ⟨s.cfg.opSwreset, s.cfg.resetDelayMs, []⟩ ∨
  i = .dispon ∧ ts = execDesc s.cfg ⟨s.cfg.opDispon, s.cfg.disponDelayMs, []⟩ ∨
  i = .dispoff ∧ ts = execDesc s.cfg ⟨s.cfg.opDispoff, s.cfg.dispoffDelayMs, []⟩ ∨
  i = .setwin ∧ ts = setWindow s.cfg s.args[0] s.args[1] s.args[2] s.args[3] ∨
  i = .fill ∧ ts = fillArea s.cfg s.args[0] s.args[1] s.args[2] s.args[3] s.args[4] ∨
  i = .clear ∧ ts = clearPanel s.cfg s.args[0] ∨
  i = .init ∧ (∃ one two, sequenceOf s.cfg s.cfg.rom1 = some one ∧ sequenceOf s.cfg s.cfg.rom2 = some two ∧
    ts = initTxns s.cfg one two) ∨
  i = .runcmd ∧ (∃ d : Desc, d.wf s.cfg = true ∧ s.extHolds s.args[0] d.enc ∧ ts = execDesc s.cfg d) ∨
  i = .runcmd ∧ s.extHolds s.args[0] [s.cfg.opEnd] ∧ ts = [] ∨
  i = .runseq ∧ ∃ ds : List Desc, (∀ d ∈ ds, d.wf s.cfg = true) ∧ s.extHolds s.args[0] (encSeq s.cfg ds) ∧
    ts = seqTxns s.cfg ds

/-- Each of the nine operations completes with the transactions of its function when they are all answered `ok`. -/
theorem completes_of_functionGives {s : State} {i : Instr} {ts : List Txn} (hh : s.host = []) (hc : s.cfg.legal = true)
    (h : s.functionGives i ts) (ha : s.answersOk ts.length) :
    ∃ code, i.opCode = some code ∧ (s.accepted code).completes ts := by
  have hsep := (legal_inv hc).1
  have named : ∀ {op : Byte} (delay : U32), op ∈ s.cfg.namedOps → Desc.wf s.cfg ⟨op, delay, []⟩ = true :=
    fun _ ho => wf_of_named hsep ho (Nat.zero_le 255)
  obtain ⟨-, h6, h12, h18⟩ := holds_ctl s
  have ext : ∀ {code bs}, s.extHolds s.args[0] bs → (s.accepted code).holds .ext s.args[0] bs :=
    fun {code} _ hb => holds_of_extHolds (s := s.accepted code) (seqAw_le hc) rfl hb
  rcases h with ⟨rfl, rfl⟩ | ⟨rfl, rfl⟩ | ⟨rfl, rfl⟩ | ⟨rfl, rfl⟩ | ⟨rfl, rfl⟩ | ⟨rfl, rfl⟩ |
    ⟨rfl, one, two, h1, h2, rfl⟩ | ⟨rfl, d, hd, hb, rfl⟩ | ⟨rfl, hb, rfl⟩ | ⟨rfl, ds, hd, hb, rfl⟩
  · exact ⟨2, rfl, completes_single hh rfl (named _ (by simp [Config.namedOps])) h6 ha⟩
  · exact ⟨3, rfl, completes_single hh rfl (named _ (by simp [Config.namedOps])) h12 ha⟩
  · exact ⟨4, rfl, completes_single hh rfl (named _ (by simp [Config.namedOps])) h18 ha⟩
  · exact ⟨7, rfl, completes_setwin hh hc ha⟩
  · exact ⟨8, rfl, completes_fill hh hc rfl ha⟩
  · exact ⟨9, rfl, completes_fill hh hc rfl ha⟩
  · exact ⟨1, rfl, completes_init hh hc h1 h2 ha⟩
  · exact ⟨5, rfl, completes_single hh rfl hd (ext hb) ha⟩
  · exact ⟨5, rfl, completes_runcmd_sentinel hh hb⟩
  · exact ⟨6, rfl, completes_runseq hh hd (ext hb) ha⟩

/-- Settles O54: with as many `ok` answers as its function has transactions each operation completes with them, and under
any others it goes as there until one fails. -/
theorem anOperationEmitsABeginningOfItsFunction : Obligations.AnOperationEmitsABeginningOfItsFunction := by
  intro s t i ts n u hc hb hh hgives he ht hu
  obtain ⟨code, hi, hdone⟩ :=
    completes_of_functionGives (s := s.withAnswers (List.replicate ts.length .ok)) hh hc hgives (answersOk_replicate s ts.length)
  exact emittedOf_accepted hh hc hi he hb ht hu hdone

end Sys2Proof.Machine

/-! SUPPORT. Two runs of the machine side by side that differ in registers that are unspecified after reset (R44, R46): at
every moment the registers that the block may still read before it writes them agree. -/

namespace Sys2Proof.Machine

/-! ### Which registers are read before they are written -/

/-- The micro-operation reads the window registers: it executes descriptors of `WIN` (R54). -/
def MicroOp.readsWindow : MicroOp → Bool
  | .run space _ | .one space _ => decide (space = .win)
  | .tinit | .loadwin _ _ _ _ | .loadfill _ _ _ _ _ | .pix => false

/-- The micro-operation writes the window registers (R33). -/
def MicroOp.loadsWindow : MicroOp → Bool
  | .loadwin _ _ _ _ | .loadfill _ _ _ _ _ => true
  | .tinit | .run _ _ | .one _ _ | .pix => false

/-- The micro-operation reads `COLOR` and `PIXCNT` (R40). -/
def MicroOp.readsFill : MicroOp → Bool
  | .pix => true
  | .tinit | .run _ _ | .one _ _ | .loadwin _ _ _ _ | .loadfill _ _ _ _ _ => false

/-- The micro-operation writes `COLOR` and `PIXCNT` (R33). -/
def MicroOp.loadsFill : MicroOp → Bool
  | .loadfill _ _ _ _ _ => true
  | .tinit | .run _ _ | .one _ _ | .loadwin _ _ _ _ | .pix => false

/-- A list of micro-operations reads the window registers before it writes them. -/
def windowRead : List MicroOp → Bool
  | [] => false
  | u :: us => u.readsWindow || (!u.loadsWindow && windowRead us)

/-- A list of micro-operations reads `COLOR` or `PIXCNT` before it writes them. -/
def fillRead : List MicroOp → Bool
  | [] => false
  | u :: us => u.readsFill || (!u.loadsFill && fillRead us)

/-- No operation reads the window registers, `COLOR` or `PIXCNT` before it writes them (R33). -/
theorem microOps_reads {s : State} {ops : List MicroOp} (h : s.microOps = some ops) :
    windowRead ops = false ∧ fillRead ops = false := by
  unfold State.microOps at h
  split at h
  case h_1 =>
    cases h
    unfold initOps
    split <;> exact ⟨rfl, rfl⟩
  case h_10 => cases h
  all_goals
    cases h
    exact ⟨rfl, rfl⟩

/-! ### What agrees -/

/-- The window registers agree (R23). -/
def State.sameWindow (s : State) (r : Residue) : Prop := r.xs = s.xs ∧ r.ys = s.ys ∧ r.xe = s.xe ∧ r.ye = s.ye

/-- `COLOR` and `PIXCNT` agree (R24, R25). -/
def State.sameFill (s : State) (r : Residue) : Prop := r.color = s.color ∧ r.pixcnt = s.pixcnt

/-- The program counter and `MODE` agree (R29, R30). -/
def State.samePc (s : State) (r : Residue) : Prop := r.src = s.src ∧ r.sp = s.sp ∧ r.mode = s.mode

/-- The header of the descriptor in progress agrees (R26). -/
def State.sameHeader (s : State) (r : Residue) : Prop := r.opc = s.opc ∧ r.len = s.len ∧ r.dlyv = s.dlyv

/-- The registers that the micro-operations to come read before they write them agree. -/
def State.sameFor (s : State) (r : Residue) (us : List MicroOp) : Prop :=
  (windowRead us = true → s.sameWindow r) ∧ (fillRead us = true → s.sameFill r)

/-- A micro-operation is to be dispatched, and the registers that it and its successors read agree. -/
def State.blindAtDispatch (s : State) (r : Residue) (ops : List MicroOp) : Prop :=
  s.ph = .dispatch ∧ s.sameFor r (ops.drop s.stg.toNat)

/-- A micro-operation is carried out, and the registers that it and its successors read agree. -/
def State.blindInside (s : State) (r : Residue) (ops : List MicroOp) : Prop :=
  ∃ u us, ops.drop s.stg.toNat = u :: us ∧ s.sameFor r us ∧
    (s.ph = .pix ∧ s.sameFill r ∨
      s.ph.inDescriptor = true ∧ s.samePc r ∧ (s.src = .win → s.sameWindow r) ∧ (s.ph ≠ .fetch → s.sameHeader r))

/-- The block cannot tell the values of `r` in the unspecified registers from its own: it is idle, or those that it reads
before it writes them agree. -/
def State.blindTo (s : State) (r : Residue) : Prop :=
  s.ph = .idle ∨ ∃ ops, s.busy = true ∧ s.microOps = some ops ∧ r.stg = s.stg ∧
    (s.blindAtDispatch r ops ∨ s.blindInside r ops)

/-- Two outcomes that differ at most in registers to which the block is blind. -/
inductive Lockstep : Host.Outcome State Fault Refusal → Host.Outcome State Fault Refusal → Prop
  | next {s t : State} (r : Residue) (h : s.blindTo r) (ht : t = s.scramble r) : Lockstep (.next s) (.next t)
  | fault (f : Fault) : Lockstep (.fault f) (.fault f)

theorem lockstep_idle {s : State} (h : s.ph = .idle) (r : Residue) : Lockstep (.next s) (.next (s.scramble r)) :=
  .next r (.inl h) rfl

theorem lockstep_observe {o o' : Host.Outcome State Fault Refusal} (h : Lockstep o o') : observe o' = observe o := by
  cases h with
  | next r _ ht =>
    subst ht
    rfl
  | fault f => rfl

/-! ### The list of micro-operations goes on -/

theorem drop_stg {ops : List MicroOp} {n : Nat} {u : MicroOp} (h : ops[n]? = some u) :
    ops.drop n = u :: ops.drop (n + 1) := by
  obtain ⟨hn, rfl⟩ := List.getElem?_eq_some_iff.1 h
  exact List.drop_eq_getElem_cons hn

/-- The micro-operations after the one at `STG`. -/
theorem drop_stg_succ {s : State} {ops us : List MicroOp} {u : MicroOp} (ho : s.microOps = some ops)
    (h : ops.drop s.stg.toNat = u :: us) : ops.drop (s.stg + 1).toNat = us := by
  have hu : ops[s.stg.toNat]? = some u := by
    rw [← List.head?_drop, h]
    rfl
  rw [(stg_succ ho hu).1, ← List.tail_drop, h]
  rfl

/-- What agrees for a micro-operation that writes none of these registers and for its successors, agrees for them. -/
theorem sameFor_tail {s : State} {r : Residue} {u : MicroOp} {us : List MicroOp} (h : s.sameFor r (u :: us))
    (hw : u.loadsWindow = false) (hf : u.loadsFill = false) : s.sameFor r us := by
  obtain ⟨hwin, hfill⟩ := h
  exact ⟨fun hr => hwin (by simp [windowRead, hw, hr]), fun hr => hfill (by simp [fillRead, hf, hr])⟩

/-! ### Steps of a block that is under way -/

section
variable {s : State} {r : Residue} {ops : List MicroOp} (hb : s.busy = true) (ho : s.microOps = some ops)
  (hr : r.stg = s.stg)
include hb ho hr

/-- The next micro-operation is to be dispatched, after the one at `STG`. -/
theorem blindTo_next {t : State} {r' : Residue} {us : List MicroOp} {u : MicroOp}
    (hd : ops.drop s.stg.toNat = u :: us) (hbt : t.busy = s.busy) (hot : t.microOps = s.microOps)
    (hst : t.stg = s.stg + 1) (hrt : r'.stg = r.stg + 1) (hp : t.ph = .dispatch) (hs : t.sameFor r' us) :
    t.blindTo r' := by
  refine .inr ⟨ops, hbt.trans hb, hot.trans ho, by rw [hrt, hst, hr], .inl ⟨hp, ?_⟩⟩
  rw [hst, drop_stg_succ ho hd]
  exact hs

/-- RUN and ONE set the program counter (R33, R34). -/
theorem lockstep_toFetch {us : List MicroOp} {u : MicroOp} {space : Space} {a : U16} {mode : Mode}
    (hd : ops.drop s.stg.toNat = u :: us) (hw : space = .win → s.sameWindow r) (hs : s.sameFor r us) :
    Lockstep (.next { s with src := space, sp := a, mode := mode, ph := .fetch })
      (.next { s.scramble r with src := space, sp := a, mode := mode, ph := .fetch }) :=
  .next { r with src := space, sp := a, mode := mode } (.inr ⟨ops, hb, ho, hr, .inr ⟨u, us, hd, hs,
    .inr ⟨rfl, ⟨rfl, rfl, rfl⟩, hw, fun hf => absurd rfl hf⟩⟩⟩) rfl

/-- Phase DISPATCH but for TINIT (R34). -/
theorem lockstep_runMicroOp {u : MicroOp} (h : s.blindAtDispatch r ops) (hu : ops[s.stg.toNat]? = some u)
    (ht : u ≠ .tinit) : Lockstep (.next (runMicroOp u s)) (.next (runMicroOp u (s.scramble r))) := by
  obtain ⟨hp, hwin, hfill⟩ := h
  have hd := drop_stg hu
  rw [hd] at hwin hfill
  cases u with
  | tinit => exact absurd rfl ht
  | run space a =>
    exact lockstep_toFetch hb ho hr hd (fun hs => hwin (by simp [windowRead, MicroOp.readsWindow, hs]))
      (sameFor_tail ⟨hwin, hfill⟩ rfl rfl)
  | one space a =>
    exact lockstep_toFetch hb ho hr hd (fun hs => hwin (by simp [windowRead, MicroOp.readsWindow, hs]))
      (sameFor_tail ⟨hwin, hfill⟩ rfl rfl)
  | loadwin xs ys xe ye =>
    exact .next { r with xs := xs, ys := ys, xe := xe, ye := ye, stg := r.stg + 1 }
      (blindTo_next hb ho hr hd rfl rfl rfl rfl hp ⟨fun _ => ⟨rfl, rfl, rfl, rfl⟩, hfill⟩) rfl
  | loadfill color x y w h =>
    exact .next { r with
        xs := x, ys := y, xe := corner x w, ye := corner y h, color := color, pixcnt := pixelCount w h
        stg := r.stg + 1 }
      (blindTo_next hb ho hr hd rfl rfl rfl rfl hp ⟨fun _ => ⟨rfl, rfl, rfl, rfl⟩, fun _ => ⟨rfl, rfl⟩⟩) rfl
  | pix =>
    have hs : s.sameFill r := hfill rfl
    exact .next r (.inr ⟨ops, hb, ho, hr, .inr ⟨_, _, hd, ⟨hwin, fun _ => hs⟩, .inl ⟨rfl, hs⟩⟩⟩) rfl

/-- The end of a micro-operation (R39, R40). -/
theorem lockstep_endMicroOp (h : s.blindInside r ops) :
    Lockstep (.next (endMicroOp s)) (.next (endMicroOp (s.scramble r))) := by
  obtain ⟨u, us, hd, hs, -⟩ := h
  exact .next { r with stg := r.stg + 1 } (blindTo_next hb ho hr hd rfl rfl rfl rfl rfl hs) rfl

/-- The sentinel is fetched (R35). -/
theorem lockstep_fetchSentinel (h : s.blindInside r ops) :
    Lockstep (.next (fetchSentinel s)) (.next (fetchSentinel (s.scramble r))) := by
  obtain ⟨u, us, hd, hs, -⟩ := h
  exact .next { r with opc := s.cfg.opEnd, stg := r.stg + 1 } (blindTo_next hb ho hr hd rfl rfl rfl rfl rfl hs) rfl

end

/-! ### What the two read -/

/-- The bytes at the program counter are the same. -/
theorem byteAt_scramble {s : State} {r : Residue} (hpc : s.samePc r) (hw : s.src = .win → s.sameWindow r) :
    (s.scramble r).byteAt r.src r.sp = s.byteAt s.src s.sp := by
  obtain ⟨hsrc, hsp, -⟩ := hpc
  rw [hsrc, hsp]
  funext off
  cases hs : s.src with
  | win =>
    obtain ⟨h1, h2, h3, h4⟩ := hw hs
    simp only [State.byteAt, scramble_cfg, scramble_xs, scramble_ys, scramble_xe, scramble_ye, h1, h2, h3, h4]
  | _ => rfl

theorem payload_scramble {s : State} {r : Residue} (hpc : s.samePc r) (hw : s.src = .win → s.sameWindow r)
    (hh : s.sameHeader r) : (s.scramble r).payload = s.payload := by
  obtain ⟨-, hl, -⟩ := hh
  simp only [State.payload, scramble_src, scramble_sp, scramble_len, byteAt_scramble hpc hw, hl]

/-- The two present the same transaction. -/
theorem outstanding_scramble {s : State} {r : Residue} (h : s.blindTo r) :
    (s.scramble r).outstanding = s.outstanding := by
  rcases h with hp | ⟨ops, -, -, hr, ⟨hp, -⟩ | ⟨-, -, -, -, ⟨hp, hc, hn⟩ | ⟨hp, hpc, hw, hh⟩⟩⟩
  · simp only [State.outstanding, scramble_ph, hp]
  · have hm : (s.scramble r).microOps = s.microOps := rfl
    simp only [State.outstanding, scramble_ph, hp, scramble_stg, hr, hm]
  · simp only [State.outstanding, scramble_ph, hp, scramble_pixcnt, scramble_color, scramble_cfg, hc, hn]
  · rcases inDescriptor_cases hp with hp | (hp | hp | hp) | hp <;> rw [hp] at hh
    · simp only [State.outstanding, scramble_ph, hp]
    · simp only [State.outstanding, scramble_ph, hp, scramble_opc, (hh nofun).1]
    · simp only [State.outstanding, scramble_ph, hp, payload_scramble hpc hw (hh nofun)]
    · simp only [State.outstanding, scramble_ph, hp, scramble_dlyv, (hh nofun).2.2]
    · simp only [State.outstanding, scramble_ph, hp]

/-! ### Emissions -/

theorem emit_of_ok {s : State} (h : s.nextAnswer = .ok) (e : Txn) (f : State → State) :
    emit e f s = f (s.afterTxns [e]) := by
  rcases emit_cases e f s with ⟨-, hok⟩ | ⟨hfail, -⟩
  · exact hok
  · cases h.symm.trans hfail

/-- What follows a transaction of a descriptor depends on its header only (R36, R37, R38). -/
theorem afterEmission_scramble {s : State} {r : Residue} (hp : s.ph = .cmd ∨ s.ph = .data ∨ s.ph = .dly)
    (hh : s.sameHeader r) : s.ph.afterEmission (s.scramble r) = (s.ph.afterEmission s).scramble r := by
  obtain ⟨-, hl, hd⟩ := hh
  rcases hp with hp | hp | hp <;> rw [hp]
  · show afterCommand (s.scramble r) = (afterCommand s).scramble r
    simp only [afterCommand_eq, State.scramble, hl, hd]
  · show afterPayload (s.scramble r) = (afterPayload s).scramble r
    simp only [afterPayload, State.scramble, hd]
  · rfl

section
variable {s : State} {r : Residue} {ops : List MicroOp} (hb : s.busy = true) (ho : s.microOps = some ops)
  (hr : r.stg = s.stg)
include hb ho hr

/-- The phase that presents a transaction goes on in step when it succeeds. -/
theorem lockstep_afterEmission {e : Txn} (h : s.blindAtDispatch r ops ∨ s.blindInside r ops)
    (he : s.outstanding = some e) :
    Lockstep (.next (s.ph.afterEmission (s.afterTxns [e])))
      (.next (s.ph.afterEmission ((s.afterTxns [e]).scramble r))) := by
  rcases h with ⟨hp, hs⟩ | ⟨u, us, hd, hs, ⟨hp, hc, hn⟩ | ⟨hin, hpc, hw, hh⟩⟩
  · have hu : ops[s.stg.toNat]? = some .tinit := by
      by_contra hne
      simp [State.outstanding, hp, ho, hne] at he
    have hd := drop_stg hu
    rw [hd] at hs
    rw [hp]
    exact .next { r with stg := r.stg + 1 } (blindTo_next hb ho hr hd rfl rfl rfl rfl hp hs) rfl
  · rw [hp]
    refine .next { r with pixcnt := r.pixcnt - BitVec.ofNat 32 (burst s.cfg r.pixcnt) } (.inr ⟨ops, hb, ho, hr,
      .inr ⟨u, us, hd, ⟨hs.1, fun _ => ?_⟩, .inl ⟨hp, ?_⟩⟩⟩) rfl <;>
    · refine ⟨hc, ?_⟩
      rw [hn]
      rfl
  · have hph : s.ph = .cmd ∨ s.ph = .data ∨ s.ph = .dly := by
      cases hp : s.ph <;> simp [State.outstanding, hp, Phase.inDescriptor] at he hin ⊢
    obtain ⟨p, hen, hafter⟩ := afterEmission_enters s hph
    obtain ⟨hpin, hpf⟩ := mayEnter_inDescriptor hen
    have hf : s.ph ≠ .fetch := by rcases hph with hp | hp | hp <;> simp [hp]
    refine .next r ?_ (afterEmission_scramble (s := s.afterTxns [e]) hph (hh hf))
    rw [hafter]
    exact .inr ⟨ops, hb, ho, hr, .inr ⟨u, us, hd, hs, .inr ⟨hpin, hpc, hw, fun _ => hh hf⟩⟩⟩

end

theorem lockstep_emits {s : State} {r : Residue} {e : Txn} (h : s.blindTo r) (he : s.outstanding = some e) :
    Lockstep (blockStep s) (blockStep (s.scramble r)) := by
  have he' : (s.scramble r).outstanding = some e := (outstanding_scramble h).trans he
  have ha : (s.scramble r).nextAnswer = s.nextAnswer := rfl
  rw [blockStep_emits he, blockStep_emits he']
  rcases hans : s.nextAnswer with _ | _
  · rw [emit_of_ok hans, emit_of_ok (ha.trans hans)]
    rcases h with hp | ⟨ops, hb, ho, hr, hwhere⟩
    · simp [State.outstanding, hp] at he
    · exact lockstep_afterEmission hb ho hr hwhere he
  · rw [emit_fail hans, emit_fail (ha.trans hans)]
    exact lockstep_idle (s := raiseFault faultTransportError (record e s)) rfl r

/-! ### A step of the block -/

theorem lockstep_dispatch {s : State} {r : Residue} {ops : List MicroOp} (hb : s.busy = true)
    (ho : s.microOps = some ops) (hr : r.stg = s.stg) (h : s.blindAtDispatch r ops) (he : s.outstanding = none) :
    Lockstep (blockStep s) (blockStep (s.scramble r)) := by
  have hp := h.1
  have ho' : (s.scramble r).microOps = some ops := ho
  simp only [blockStep, phaseDispatch, scramble_ph, hp, ho, ho', scramble_stg, hr]
  rcases hu : ops[s.stg.toNat]? with _ | u
  · by_cases hl : s.stg.toNat = ops.length
    · simp only [hl, if_true]
      exact lockstep_idle (s := complete s) rfl r
    · simp only [hl, if_false]
      exact .fault _
  · refine lockstep_runMicroOp hb ho hr h hu ?_
    rintro rfl
    simp [State.outstanding, hp, ho, hu] at he

theorem lockstep_fetch {s : State} {r : Residue} {ops : List MicroOp} (hb : s.busy = true) (ho : s.microOps = some ops)
    (hr : r.stg = s.stg) (hin : s.blindInside r ops) (hp : s.ph = .fetch) :
    Lockstep (blockStep s) (blockStep (s.scramble r)) := by
  obtain ⟨u, us, hd, hs, ⟨hpix, -⟩ | ⟨-, hpc, hw, -⟩⟩ := id hin
  · cases hp.symm.trans hpix
  have hat : (s.scramble r).descriptorAt = s.descriptorAt := congrArg (decodeWith s.cfg) (byteAt_scramble hpc hw)
  rcases hi : s.descriptorAt with f | i
  · simp only [blockStep, scramble_ph, hp, hat, hi]
    exact .fault f
  · rw [blockStep_fetch hp hi, blockStep_fetch (s := s.scramble r) hp (hat.trans hi)]
    rcases decodeWith_inv hi with ⟨rfl, -⟩ | ⟨d, hwf, rfl, -⟩
    · exact lockstep_fetchSentinel hb ho hr hin
    · rw [exec_fetched (classify_toDesc ..) hwf, exec_fetched (s := s.scramble r) (classify_toDesc s.cfg ..) hwf]
      exact .next { r with opc := d.opcode, len := BitVec.ofNat 8 d.payload.length, dlyv := d.delay }
        (.inr ⟨ops, hb, ho, hr, .inr ⟨u, us, hd, hs, .inr ⟨rfl, hpc, hw, fun _ => ⟨rfl, rfl, rfl⟩⟩⟩⟩) rfl

theorem blockStep_adv_one {s : State} (hp : s.ph = .adv) (hm : s.mode = .one) : blockStep s = .next (endMicroOp s) := by
  simp only [blockStep, hp, phaseAdv, hm]

theorem blockStep_adv_run {s : State} (hp : s.ph = .adv) (hm : s.mode = .run) :
    blockStep s = .next { s with sp := nextSp s.sp s.len, ph := .fetch } := by
  simp only [blockStep, hp, phaseAdv, hm]

theorem lockstep_advance {s : State} {r : Residue} {ops : List MicroOp} (hb : s.busy = true)
    (ho : s.microOps = some ops) (hr : r.stg = s.stg) (hin : s.blindInside r ops) (hp : s.ph = .adv) :
    Lockstep (blockStep s) (blockStep (s.scramble r)) := by
  obtain ⟨u, us, hd, hs, ⟨hpix, -⟩ | ⟨-, ⟨hsrc, hsp, hm⟩, hw, hh⟩⟩ := id hin
  · cases hp.symm.trans hpix
  obtain ⟨-, hl, -⟩ := hh (by simp [hp])
  rcases hmode : s.mode
  · rw [blockStep_adv_one hp hmode, blockStep_adv_one (s := s.scramble r) hp (hm.trans hmode)]
    exact lockstep_endMicroOp hb ho hr hin
  · rw [blockStep_adv_run hp hmode, blockStep_adv_run (s := s.scramble r) hp (hm.trans hmode)]
    refine .next { r with sp := nextSp r.sp r.len } (.inr ⟨ops, hb, ho, hr, .inr ⟨u, us, hd, hs, .inr ⟨rfl,
      ⟨hsrc, ?_, hm⟩, hw, fun hf => absurd rfl hf⟩⟩⟩) rfl
    rw [hsp, hl]

/-- A step of the block to which the difference is invisible. -/
theorem lockstep_blockStep {s : State} {r : Residue} (h : s.blindTo r) :
    Lockstep (blockStep s) (blockStep (s.scramble r)) := by
  rcases he : s.outstanding with _ | e
  case some => exact lockstep_emits h he
  rcases id h with hp | ⟨ops, hb, ho, hr, hdis | hin⟩
  · rw [blockStep_of_idle hp, blockStep_of_idle (s := s.scramble r) hp]
    exact lockstep_idle hp r
  · exact lockstep_dispatch hb ho hr hdis he
  · obtain ⟨u, us, hd, hs, ⟨hp, hc, hn⟩ | ⟨hdesc, hpc, hw, hh⟩⟩ := id hin
    · have hz : s.pixcnt = 0 := by
        by_contra hne
        simp only [State.outstanding, hp, if_neg hne, reduceCtorEq] at he
      simp only [blockStep, scramble_ph, hp, phasePix, scramble_pixcnt, hn, hz, if_true]
      exact lockstep_endMicroOp hb ho hr hin
    · rcases inDescriptor_cases hdesc with hp | (hp | hp | hp) | hp
      · exact lockstep_fetch hb ho hr hin hp
      · simp [State.outstanding, hp] at he
      · have hpay := payload_scramble hpc hw (hh (by simp [hp]))
        rcases hx : s.payload with f | bs
        · simp only [blockStep, scramble_ph, hp, phaseData, hpay, hx]
          exact .fault f
        · simp [State.outstanding, hp, hx] at he
      · simp [State.outstanding, hp] at he
      · exact lockstep_advance hb ho hr hin hp

/-! ### A host move -/

/-- What lies outside the block, the memory and its records of racing stores do not matter. -/
theorem blindTo_outside {s : State} {r : Residue} (h : s.blindTo r) (ext : Memory) (host : List HostMove)
    (hostReads : List (HostReg × U16)) (extStale : List Host.Cell) (extRaces : Nat) :
    ({ s with
      ext := ext, host := host, hostReads := hostReads, extStale := extStale
      extRaces := extRaces } : State).blindTo r :=
  h

theorem lockstep_same {s : State} {r : Residue} (h : s.blindTo r) : Lockstep (.next s) (.next (s.scramble r)) :=
  .next r h rfl

/-- A block that is not busy is idle, as far as it is blind. -/
theorem idle_of_blindTo {s : State} {r : Residue} (h : s.blindTo r) (hb : s.busy = false) : s.ph = .idle := by
  rcases h with hp | ⟨-, hb', -⟩
  · exact hp
  · cases hb.symm.trans hb'

/-- An accepted operation reads none of the unspecified registers before it writes them (R32 (d), R33). -/
theorem blindTo_accepted (s : State) (r : Residue) {code : BitVec 4} (hc : 1 ≤ code.toNat ∧ code.toNat ≤ 9) :
    (s.accepted code).blindTo { r with stg := 0 } := by
  obtain ⟨ops, ho⟩ := microOps_of_code (s := s.accepted code) hc
  obtain ⟨hw, hf⟩ := microOps_reads ho
  exact .inr ⟨ops, rfl, ho, rfl, .inl ⟨rfl, fun h => absurd h (Bool.eq_false_iff.1 hw),
    fun h => absurd h (Bool.eq_false_iff.1 hf)⟩⟩

/-- A write to `OPREG` (R31, R32). -/
theorem lockstep_exec {s : State} {r : Residue} (h : s.blindTo r) {i : Instr} {code : BitVec 4}
    (hi : i.opCode = some code) : Lockstep (exec i s) (exec i (s.scramble r)) := by
  rw [exec_eq_request hi, exec_eq_request hi]
  rcases hb : s.busy with _ | _
  · have hp := idle_of_blindTo h hb
    by_cases hlatch : s.fault = faultTransportError ∧ code ≠ 1
    · rw [request_latched hlatch.1 hlatch.2, request_latched (s := s.scramble r) hlatch.1 hlatch.2]
      exact lockstep_same h
    · rw [request_examined hb hlatch, request_examined (s := s.scramble r) hb hlatch]
      by_cases hres : code.toNat = 0 ∨ 10 ≤ code.toNat
      · rw [examine_reserved hres, examine_reserved hres]
        exact lockstep_idle (s := s.turnedAway code faultIllegalOp) rfl r
      · by_cases hout : s.cfg.geomCheck = true ∧ s.outsidePanel code
        · rw [examine_outside hout.1 hout.2, examine_outside (s := s.scramble r) hout.1 hout.2]
          exact lockstep_idle (s := s.turnedAway code faultInvalidRegion) rfl r
        · have hc : 1 ≤ code.toNat ∧ code.toNat ≤ 9 := by omega
          rw [examine_accepted hc.1 hc.2 hout, examine_accepted (s := s.scramble r) hc.1 hc.2 hout]
          exact .next _ (blindTo_accepted s r hc) rfl
  · rw [request_of_busy hb, request_of_busy (s := s.scramble r) hb]
    exact lockstep_same h

theorem lockstep_hostStore {s : State} {r : Residue} (h : s.blindTo r) (a : Nat) (b : Byte) :
    Lockstep (hostStore a b s) (hostStore a b (s.scramble r)) := by
  unfold hostStore
  by_cases ha : a < 2 ^ s.cfg.seqAw
  · rw [if_pos ha, if_pos (show a < 2 ^ (s.scramble r).cfg.seqAw from ha)]
    by_cases hb : s.busy = true
    · rw [if_pos hb, if_pos (show (s.scramble r).busy = true from hb)]
      exact .next r (blindTo_outside h _ s.host s.hostReads _ _) rfl
    · rw [if_neg hb, if_neg (show ¬ (s.scramble r).busy = true from hb)]
      exact .next r (blindTo_outside h _ s.host s.hostReads s.extStale s.extRaces) rfl
  · rw [if_neg ha, if_neg (show ¬ a < 2 ^ (s.scramble r).cfg.seqAw from ha)]
    exact .fault _

/-- A hardware reset gives the unspecified registers their values anew, and lets the same transaction complete (R213). -/
theorem lockstep_hardReset {s : State} {r : Residue} (h : s.blindTo r) (time : ResetTime) (r' : Residue) :
    Lockstep (.next (hardReset time r' s)) (.next (hardReset time r' (s.scramble r))) := by
  obtain ⟨-, -, -, hp, -⟩ := hardReset_effect time r' s
  refine .next r' (.inl hp) ?_
  unfold hardReset
  rw [outstanding_scramble h]
  split
  · rfl
  · split <;> rfl

theorem lockstep_hostStep {s : State} {r : Residue} (h : s.blindTo r) (m : HostMove) :
    Lockstep (hostStep m s) (hostStep m (s.scramble r)) := by
  cases m with
  | write reg v =>
    cases reg with
    | opreg => exact lockstep_exec h (decodeOp_opCode v)
    | arg i =>
      rcases hb : s.busy with _ | _
      · simp only [hostStep, writeArg_of_idle hb, writeArg_of_idle (s := s.scramble r) hb]
        have hp := idle_of_blindTo h hb
        exact lockstep_idle (s := { s with args := s.args.set i v }) hp r
      · simp only [hostStep, writeArg_of_busy hb, writeArg_of_busy (s := s.scramble r) hb]
        exact lockstep_same h
    | status => exact lockstep_same h
  | read reg => exact .next r (blindTo_outside h s.ext s.host _ s.extStale s.extRaces) (by cases reg <;> rfl)
  | storeExt a b => exact lockstep_hostStore h a b
  | pass => exact lockstep_blockStep h
  | awaitIdle => exact lockstep_same h
  | hardReset time r' => exact lockstep_hardReset h time r'

theorem lockstep_step {s : State} {r : Residue} (h : s.blindTo r) : Lockstep (step s) (step (s.scramble r)) := by
  have hrest : ∀ rest, ({ s with host := rest } : State).blindTo r :=
    fun rest => blindTo_outside h s.ext rest s.hostReads s.extStale s.extRaces
  rcases hh : s.host with _ | ⟨m, rest⟩
  · rw [step_of_quiet hh, step_of_quiet (s := s.scramble r) hh]
    exact lockstep_blockStep h
  · by_cases hm : m = .awaitIdle
    · subst hm
      rcases hb : s.busy with _ | _
      · rw [step_await_idle hh hb, step_await_idle (s := s.scramble r) hh hb]
        exact .next r (hrest rest) rfl
      · rw [step_await_busy hh hb, step_await_busy (s := s.scramble r) hh hb]
        exact lockstep_blockStep h
    · rw [step_of_move hh hm, step_of_move (s := s.scramble r) hh hm]
      exact lockstep_hostStep (hrest rest) m

/-- The two stay in step. -/
theorem lockstep_runSteps {s : State} {r : Residue} (h : s.blindTo r) (n : Nat) :
    Lockstep (runSteps n s) (runSteps n (s.scramble r)) := by
  induction n generalizing s r with
  | zero => exact lockstep_same h
  | succ n ih =>
    have hs := lockstep_step h
    rw [runSteps, runSteps]
    generalize step s = o, step (s.scramble r) = o' at hs
    cases hs with
    | next r' h' ht => exact ht ▸ ih h'
    | fault f => exact .fault f

/-- Settles O52: an idle block is blind to the registers that are unspecified after reset, and the two runs stay in step. -/
theorem unspecifiedRegistersAreNeverObserved : Obligations.UnspecifiedRegistersAreNeverObserved :=
  fun _ _ n hp _ => lockstep_observe (lockstep_runSteps (.inl hp) n)

end Sys2Proof.Machine

/-! SUPPORT. The bytes that the spaces hold: `CTL` and `WIN` address by address (R53, R54), and `EXT` after a store of the
host (R55, R56, R70). -/

namespace Sys2Proof.Machine

/-! ### Fixed contents -/

/-- A read past the end of fixed contents has no value (U6). -/
theorem listByte_of_length_le {bs : List Byte} {a : Nat} (h : bs.length ≤ a) :
    listByte bs a = .error .readOutsideSpace := by
  rw [listByte, List.getElem?_eq_none h]

theorem ctlBytes_eq (c : Config) : ctlBytes c =
    c.opRamwr :: 0 :: delayBytes 0 ++ c.opSwreset :: 0 :: delayBytes c.resetDelayMs ++
      c.opDispon :: 0 :: delayBytes c.disponDelayMs ++ c.opDispoff :: 0 :: delayBytes c.dispoffDelayMs := by
  simp [ctlBytes, Desc.enc]

theorem delayBytes_zero : delayBytes 0 = [0, 0, 0, 0] := by decide

theorem winBytes_eq (c : Config) (xs ys xe ye : U16) : winBytes c xs ys xe ye =
    c.opCaset :: 4 :: delayBytes 0 ++ pair xs xe ++ c.opRaset :: 4 :: delayBytes 0 ++ pair ys ye ++ [c.opEnd] := by
  simp [winBytes, encSeq, windowDescs, Desc.enc, pair]

/-- Settles O19: each address below 24 is looked up in the four descriptors, and no other lies in them. -/
theorem controlSpaceHoldsFourDescriptors : Obligations.ControlSpaceHoldsFourDescriptors := by
  intro s base k
  dsimp only [State.byteAt]
  generalize (base.toNat + k) % 2 ^ 16 = a
  split
  case h_25 =>
    refine listByte_of_length_le ?_
    rw [ctlBytes_length]
    simp only [imp_false] at *
    omega
  all_goals rw [ctlBytes_eq, delayBytes_zero]; rfl

/-- Settles O20: each address below 21 is looked up in the window's sequence, and no other lies in it. -/
theorem windowSpaceFollowsTheWindowRegisters : Obligations.WindowSpaceFollowsTheWindowRegisters := by
  intro s base k
  dsimp only [State.byteAt]
  generalize (base.toNat + k) % 2 ^ 16 = a
  split
  case h_22 =>
    refine listByte_of_length_le ?_
    rw [winBytes_length]
    simp only [imp_false] at *
    omega
  all_goals rw [winBytes_eq, delayBytes_zero]; rfl

/-! ### A store of the host (R55, R70) -/

theorem hostStore_of_idle {s : State} {a : Nat} (h : a < 2 ^ s.cfg.seqAw) (hb : s.busy = false) (b : Byte) :
    hostStore a b s = .next { s with ext := s.ext.write a b } := by
  simp only [hostStore, h, hb, if_true, Bool.false_eq_true, if_false]

theorem hostStore_of_busy {s : State} {a : Nat} (h : a < 2 ^ s.cfg.seqAw) (hb : s.busy = true) (b : Byte) :
    hostStore a b s = .next { s with
      ext := s.ext.write a b, extStale := (a, s.ext.read a) :: s.extStale, extRaces := s.extRaces + 1 } := by
  simp only [hostStore, h, hb, if_true]

theorem hostStore_outside {s : State} {a : Nat} (h : 2 ^ s.cfg.seqAw ≤ a) (b : Byte) :
    hostStore a b s = .fault .storeOutsideExt :=
  if_neg (Nat.not_lt.2 h)

theorem Memory.read_write {m : Memory} (hm : m.wf = true) (a : Nat) (b : Byte) (a' : Nat) :
    (m.write a b).read a' = if a' = a then b else m.read a' := by
  split
  · rename_i h
    rw [h, Memory.read_write_same hm]
  · rename_i h
    exact Memory.read_write_other m h

/-- Settles O34: acceptance forgets the races, so that the operation reads what the memory holds. -/
theorem storedBytesAreReadBack : Obligations.StoredBytesAreReadBack := by
  intro s a b rest hwf hh hb
  rw [step_of_move hh nofun]
  refine ⟨fun ha => ⟨_, hostStore_of_idle (s := { s with host := rest }) ha hb b, rfl, fun base k => ?_⟩,
    fun ha => hostStore_outside (s := { s with host := rest }) ha b⟩
  rw [byteAt_ext rfl]
  exact congrArg _ (Memory.read_write hwf a b _)

/-- No host move but a store changes `EXT` or the records of races while the block is busy (R31, R44). -/
theorem hostStep_races {m : HostMove} {s t : State} (hm : m ≠ .pass) (hb : s.busy = true)
    (hno : ∀ a b, m ≠ .storeExt a b) (h : hostStep m s = .next t) :
    t.ext = s.ext ∧ t.extStale = s.extStale ∧ t.extRaces = s.extRaces := by
  rcases hostStep_cases hm h with ⟨v, code, -, -, rfl | ⟨hidle, -⟩⟩ | ⟨i, v, -, rfl⟩ | ⟨v, -, rfl⟩ | ⟨r, -, rfl⟩ |
    ⟨a, b, rfl, -⟩ | ⟨-, rfl⟩ | ⟨time, r, -, rfl⟩
  case inl.inr => cases hb.symm.trans hidle
  case inr.inl =>
    rw [writeArg_of_busy hb]
    exact ⟨rfl, rfl, rfl⟩
  case inr.inr.inr.inr.inl => exact absurd rfl (hno a b)
  case inr.inr.inr.inr.inr.inr =>
    obtain ⟨trace, he, -⟩ := hardReset_eq time r s
    rw [he]
    exact ⟨rfl, rfl, rfl⟩
  all_goals exact ⟨rfl, rfl, rfl⟩

/-- A step of a busy machine other than a store of the host leaves `EXT` and the records of races alone. -/
theorem step_races {s t : State} (hb : s.busy = true) (hno : ∀ a b rest, s.host ≠ .storeExt a b :: rest)
    (h : step s = .next t) : t.ext = s.ext ∧ t.extStale = s.extStale ∧ t.extRaces = s.extRaces := by
  rcases step_cases h with ⟨rest, -, hs⟩ | ⟨m, rest, hh, hm, -, hs⟩
  · obtain ⟨-, -, -, -, he⟩ := blockStep_effect hs
    obtain ⟨-, -, hst, hr⟩ := blockStep_host hs
    exact ⟨he, hst, hr⟩
  · exact hostStep_races (s := { s with host := rest }) hm hb (fun a b he => hno a b rest (he ▸ hh)) hs

/-- Settles O35: the replaced byte joins the values that its address may still read as, and no other address is touched. -/
theorem aRacingStoreIsReadAsOldOrNew : Obligations.ARacingStoreIsReadAsOldOrNew := by
  refine ⟨fun s a b rest hwf hh hb ha => ?_, fun s t => step_races⟩
  rw [step_of_move hh nofun]
  refine ⟨_, hostStore_of_busy (s := { s with host := rest }) ha hb b, rfl, Memory.read_write_same hwf,
    staleBytes_cons_same .., fun off => ?_, fun a' ha' => ?_⟩
  · rcases extByte_cases { s with
      host := rest, ext := s.ext.write a b, extStale := (a, s.ext.read a) :: s.extStale
      extRaces := s.extRaces + 1 } a off with h | h
    · exact .inl (h.trans (Memory.read_write_same hwf))
    · rw [staleBytes_cons_same] at h
      exact .inr (List.mem_cons.1 h)
  · have hread : (s.ext.write a b).read a' = s.ext.read a' := Memory.read_write_other s.ext ha'
    have hstale := staleBytes_cons_other ha' (s.ext.read a) s.extStale
    exact ⟨hread, hstale, fun off => hread ▸ hstale ▸ extByte_cases _ a' off⟩

end Sys2Proof.Machine

/-! SUPPORT. RUNCMD and RUNSEQ over `EXT`, from acceptance to completion (R113, R114), and the pixel stream (R167). -/

namespace Sys2Proof.Machine

/-! ### RUNCMD (R113) -/

section
variable {s : State} (hh : s.host = [])
include hh

/-- RUNCMD is dispatched: its descriptor is to be fetched. -/
theorem step_runcmd : step (s.accepted 5) = .next (runMicroOp (.one .ext s.args[0]) (s.accepted 5)) :=
  step_dispatch (s := s.accepted 5) hh rfl rfl rfl

/-- RUNCMD at a command descriptor. -/
theorem run_runcmd {d : Desc} (hd : d.wf s.cfg = true) (hb : s.extHolds s.args[0] d.enc)
    (ha : s.answersOk (execDesc s.cfg d).length) :
    runSteps (oneStepCount s.cfg d + 1) (s.accepted 5) = .next
      ({ s.accepted 5 with
        opc := d.opcode, len := BitVec.ofNat 8 d.payload.length, dlyv := d.delay, src := .ext, sp := s.args[0]
        mode := .one, stg := 1, ph := .idle, busy := false, done := true }.afterTxns (execDesc s.cfg d)) := by
  have hone := run_desc_one (s := runMicroOp (.one .ext s.args[0]) (s.accepted 5)) hh rfl rfl hd
    (fun k b hk => (byteAt_ext rfl s.args[0] k).trans (congrArg _ (hb k b hk))) rfl ha
  have hrun := (runSteps_succ (step_runcmd hh) _).trans hone
  rw [oneStepCount, show 3 + (execDesc s.cfg d).length = 2 + (execDesc s.cfg d).length + 1 by omega]
  exact runSteps_complete hrun hh rfl rfl rfl

/-- RUNCMD at a sentinel. -/
theorem run_runcmd_sentinel (hb : s.extHolds s.args[0] [s.cfg.opEnd]) :
    runSteps 3 (s.accepted 5) = .next
      { s.accepted 5 with
        opc := s.cfg.opEnd, src := .ext, sp := s.args[0], mode := .one, stg := 1
        ph := .idle, busy := false, done := true } := by
  have hbyte : (runMicroOp (.one .ext s.args[0]) (s.accepted 5)).byteAt .ext s.args[0] 0 = .ok s.cfg.opEnd :=
    (byteAt_ext rfl s.args[0] 0).trans (congrArg _ (hb 0 _ rfl))
  have hfetch := (step_of_quiet (s := runMicroOp (.one .ext s.args[0]) (s.accepted 5)) hh).trans
    (blockStep_fetch_sentinel rfl hbyte)
  exact (runSteps_succ (step_runcmd hh) 2).trans ((runSteps_succ hfetch 1).trans
    (runSteps_one (step_complete (s := fetchSentinel _) hh rfl rfl rfl)))

end

/-- Settles O44: the dispatch, the one descriptor or the sentinel, the completion. -/
theorem runcmdExecutesOneDescriptor : Obligations.RuncmdExecutesOneDescriptor :=
  fun s hr hh => ⟨fun _ hd hb ha => ⟨s.accepted 5, exec_accept hr rfl, run_runcmd hh hd hb ha⟩,
    fun hb => ⟨s.accepted 5, exec_accept hr rfl, run_runcmd_sentinel hh hb⟩⟩

/-! ### RUNSEQ (R114) -/

/-- Settles O45: RUNSEQ's one micro-operation is a run over the sequence, and then the operation completes. -/
theorem runseqRunsToTheSentinel : Obligations.RunseqRunsToTheSentinel := by
  intro s ds hr hh haw hd hb ha
  have hholds := holds_of_extHolds (s := s.accepted 6) haw rfl hb
  obtain ⟨len, dlyv, hrun⟩ := run_run_op (s := s.accepted 6) hh rfl rfl rfl hd hholds rfl ha
  exact ⟨s.accepted 6, exec_accept hr rfl, len, dlyv, runSteps_complete hrun hh rfl rfl rfl⟩

/-! ### The pixel stream (R160, R167) -/

theorem pixelBytes_append (color : U16) (j k : Nat) :
    pixelBytes color j ++ pixelBytes color k = pixelBytes color (j + k) := by
  rw [pixelBytes, pixelBytes, pixelBytes, List.replicate_add, List.flatten_append]

theorem pixelTxns_succ (c : Config) (color : U16) (fuel : Nat) {n : Nat} (hn : n ≠ 0) :
    pixelTxns c color (fuel + 1) n =
      .tData (pixelBytes color (min n c.fillBurst)) :: pixelTxns c color fuel (n - min n c.fillBurst) :=
  if_neg hn

/-- The data of the pixel transactions is all the pixel words (R167). -/
theorem dataStream_pixelTxns {c : Config} (hb : 1 ≤ c.fillBurst) (color : U16) {fuel n : Nat} (hf : n ≤ fuel) :
    dataStream (pixelTxns c color fuel n) = pixelBytes color n := by
  induction fuel generalizing n with
  | zero =>
    obtain rfl := Nat.le_zero.1 hf
    rfl
  | succ fuel ih =>
    by_cases hn : n = 0
    · subst hn
      rfl
    · have htail := ih (n := n - min n c.fillBurst) (by omega)
      rw [pixelTxns_succ c color fuel hn]
      show pixelBytes color (min n c.fillBurst) ++ dataStream (pixelTxns c color fuel (n - min n c.fillBurst)) = _
      rw [htail, pixelBytes_append, Nat.add_sub_cancel' (Nat.min_le_left ..)]

/-- The `k`-th pixel transaction has a full burst of pixel words, or what is left of them (R160, R167). -/
theorem pixelTxns_getElem? {c : Config} {color : U16} {fuel n k : Nat} {t : Txn}
    (ht : (pixelTxns c color fuel n)[k]? = some t) :
    t = .tData (pixelBytes color (min c.fillBurst (n - k * c.fillBurst))) := by
  induction fuel generalizing n k with
  | zero => cases ht
  | succ fuel ih =>
    by_cases hn : n = 0
    · subst hn
      cases ht
    · rw [pixelTxns_succ c color fuel hn] at ht
      cases k with
      | zero =>
        cases ht
        rw [Nat.zero_mul, Nat.sub_zero, Nat.min_comm]
      | succ k =>
        rw [ih ht, Nat.succ_mul]
        congr 2
        omega

/-- Settles O48: the words, their number of transactions and each transaction by induction over the loop of `fill_area`. -/
theorem pixelStreamDoesNotDependOnTheBurst : Obligations.PixelStreamDoesNotDependOnTheBurst := by
  intro c color n hb
  refine ⟨dataStream_pixelTxns hb color le_rfl, pixelTxns_length c color hb n n le_rfl, fun k t ht => ?_⟩
  exact ⟨_, pixelTxns_getElem? ht, (pixelBytes_spec _ _).1⟩

end Sys2Proof.Machine

/-! SUPPORT. A state of the invariant takes its next step (R51 to R54, R57). -/

namespace Sys2Proof.Machine

/-! ### Reads that are answered -/

theorem getElem?_enc_payload {d : Desc} {k : Nat} {b : Byte} (h : d.payload[k]? = some b) :
    d.enc[6 + k]? = some b := by
  rw [Nat.add_comm]
  simpa [Desc.enc, delayBytes] using h

theorem getElem?_encSeq_cons {c : Config} {d : Desc} (ds : List Desc) {k : Nat} {b : Byte} (h : d.enc[k]? = some b) :
    (encSeq c (d :: ds))[k]? = some b := by
  obtain ⟨hlt, -⟩ := List.getElem?_eq_some_iff.1 h
  rw [encSeq_cons, List.getElem?_append_left hlt, h]

/-- Where the program counter stands there is an instruction (R51 to R56, R94). -/
theorem descriptorAt_of_pcOk {s : State} (hc : s.cfg.sentinelApart = true) (hpc : s.pcOk) :
    ∃ i, s.descriptorAt = .ok i := by
  rcases src_cases s with ⟨bs, hs⟩ | hs | hs
  · obtain ⟨-, hl, ds, hw, hdrop, -⟩ := (pcOk_iff_inSequence hs).1 hpc
    have hrd : ∀ (k : Nat) b, (encSeq s.cfg ds)[k]? = some b → s.byteAt s.src s.sp k = .ok b :=
      fun k b hk => byteAt_drop hs hl (hdrop ▸ hk)
    cases ds with
    | nil => exact ⟨_, decodeWith_sentinel (hrd 0 _ rfl)⟩
    | cons d ds =>
      exact ⟨_, decodeWith_enc (hw d List.mem_cons_self) (fun k b hk => hrd k b (getElem?_encSeq_cons ds hk))⟩
  · obtain ⟨d, hd, -, hb⟩ := ctl_desc hc hs hpc
    exact ⟨_, decodeWith_enc hd hb⟩
  · rw [State.descriptorAt, hs]
    exact decodeWith_total s.cfg _

/-- The payload of the descriptor in progress can be read again (R37, R65); no descriptor of `CTL` has one (R53). -/
theorem payload_of_pcOk {s : State} (hpc : s.pcOk) (hp : s.ph ≠ .fetch) : ∃ bs, s.payload = .ok bs := by
  rcases src_cases s with ⟨bs, hs⟩ | hs | hs
  · obtain ⟨-, hl, ds, hw, hdrop, hh⟩ := (pcOk_iff_inSequence hs).1 hpc
    obtain ⟨d, rest, rfl, -, hlen, -⟩ := hh hp
    refine ⟨d.payload, payload_of_bytes ?_ (fun k b hk => byteAt_drop hs hl ?_)⟩
    · rw [hlen, lenByte_toNat (hw d List.mem_cons_self)]
    · rw [hdrop]
      exact getElem?_encSeq_cons rest (getElem?_enc_payload hk)
  · obtain ⟨-, -, hlen⟩ := (pcOk_ctl_iff hs).1 hpc
    exact ⟨[], payload_of_bytes (by rw [hlen hp]; rfl) nofun⟩
  · rw [State.payload, hs]
    exact readBytes_total _ 6 _

/-! ### Steps that are taken -/

/-- No instruction's own step ends in a fault or a refusal. -/
theorem exec_answers (i : Instr) (s : State) : ∃ t, exec i s = .next t := by
  rcases instr_cases s.cfg i with ⟨code, hc⟩ | rfl | ⟨d, hd⟩
  · exact ⟨_, exec_eq_request hc s⟩
  · exact ⟨_, sentinelEndsTheRun s⟩
  · exact ⟨_, exec_of_toDesc hd⟩

/-- Phase DISPATCH finds a micro-operation, or the end of the list (R34). -/
theorem phaseDispatch_answers {s : State} {ops : List MicroOp} (ho : s.microOps = some ops)
    (hs : s.stg.toNat ≤ ops.length) : ∃ t, phaseDispatch s = .next t := by
  rcases Nat.lt_or_eq_of_le hs with hlt | heq
  · exact ⟨runMicroOp ops[s.stg.toNat] s, by simp only [phaseDispatch, ho, List.getElem?_eq_getElem hlt]⟩
  · exact ⟨complete s, by simp [phaseDispatch, ho, heq]⟩

theorem blockStep_answers {s : State} (h : s.Inv) : ∃ t, blockStep s = .next t := by
  rcases hp : s.ph
  case idle => exact ⟨s, blockStep_of_idle hp⟩
  case dispatch =>
    obtain ⟨ops, ho, hs, -⟩ := h.running (by simp [hp])
    simp only [blockStep, hp]
    exact phaseDispatch_answers ho hs
  case fetch =>
    obtain ⟨i, hi⟩ := descriptorAt_of_pcOk (legal_inv h.cfgLegal).1 (h.pc (by rw [hp]; rfl))
    rw [blockStep_fetch hp hi]
    exact exec_answers i s
  case data =>
    obtain ⟨bs, hb⟩ := payload_of_pcOk (h.pc (by rw [hp]; rfl)) (by simp [hp])
    exact ⟨_, blockStep_emits (e := .tData bs) (by simp only [State.outstanding, hp, hb])⟩
  case cmd => exact ⟨_, blockStep_emits (e := .tCmd s.opc) (by simp only [State.outstanding, hp])⟩
  case dly => exact ⟨_, blockStep_emits (e := .tDelay s.dlyv) (by simp only [State.outstanding, hp])⟩
  case adv =>
    rcases hm : s.mode
    · exact ⟨_, blockStep_adv_one hp hm⟩
    · exact ⟨_, blockStep_adv_run hp hm⟩
  case pix =>
    simp only [blockStep, hp, phasePix]
    split <;> exact ⟨_, rfl⟩

theorem hostStep_answers {m : HostMove} {s : State} (h : s.Inv) (hm : ∀ a b, m = .storeExt a b → a < 2 ^ s.cfg.seqAw) :
    ∃ t, hostStep m s = .next t := by
  cases m with
  | write r v =>
    cases r with
    | opreg => exact exec_answers _ s
    | arg i => exact ⟨_, rfl⟩
    | status => exact ⟨_, rfl⟩
  | storeExt a b =>
    rcases hb : s.busy
    · exact ⟨_, hostStore_of_idle (hm a b rfl) hb b⟩
    · exact ⟨_, hostStore_of_busy (hm a b rfl) hb b⟩
  | pass => exact blockStep_answers h
  | read r => exact ⟨_, rfl⟩
  | awaitIdle => exact ⟨_, rfl⟩
  | hardReset time r => exact ⟨_, rfl⟩

/-- Settles O51: what the block reads and dispatches is there by the invariant, and a host move can fail at a store only. -/
theorem theMachineNeverGetsStuck : Obligations.TheMachineNeverGetsStuck := by
  intro s h hin
  rcases hh : s.host with _ | ⟨m, rest⟩
  · rw [step_of_quiet hh]
    exact blockStep_answers h
  · by_cases hm : m = .awaitIdle
    · subst hm
      rcases hb : s.busy
      · exact ⟨_, step_await_idle hh hb⟩
      · rw [step_await_busy hh hb]
        exact blockStep_answers h
    · rw [step_of_move hh hm]
      exact hostStep_answers (inv_withHost h rest) (fun a b he => hin a b rest (he ▸ hh))

end Sys2Proof.Machine

/-! SUPPORT. Encodings: decode and encode agree on instructions, on records and on sequences (R81 to R88). -/

namespace Sys2Proof

/-! ### Format H (R81 to R83) -/

/-- A value whose low four bits are the code of an instruction is read as that instruction (R81). -/
theorem decodeOp_of_opCode {i : Instr} {v : U16} (h : i.opCode = some (v.extractLsb' 0 4)) : decodeOp v = i := by
  unfold decodeOp
  cases i <;> simp only [Instr.opCode, Option.some.injEq, reduceCtorEq] at h <;> simp only [← h] <;> rfl

theorem format_of_opCode {i : Instr} {code : BitVec 4} (h : i.opCode = some code) : i.format = .h := by
  cases i <;> cases h <;> rfl

/-- Settles O2: an instruction of format H is told by its code, and a value's code is its low four bits. -/
theorem operationCodeIsTheLowFourBits : Obligations.OperationCodeIsTheLowFourBits := by
  intro v w
  have hv := Machine.decodeOp_opCode v
  exact ⟨hv, format_of_opCode hv, fun h => (decodeOp_of_opCode (h ▸ hv)).symm⟩

/-! ### Format D (R84 to R87) -/

/-- An opcode that has no name stands for the generic command (R92, R93). -/
theorem classify_of_notNamed {c : Config} {op : Byte} (h : op ∉ c.namedOps) (d : U32) (p : List Byte) :
    classify c op d p = .cmd op d p := by
  simp only [Config.namedOps, List.mem_cons, List.not_mem_nil, or_false, not_or] at h
  simp only [classify, h, if_false]

/-- An admitted command is the instruction of its record, where an opcode has one name only (R92, R93, R97). -/
theorem classify_of_toDesc {c : Config} {i : Instr} {d : Desc} (hn : c.namedDistinct = true) (hw : i.wf c = true)
    (h : i.toDesc c = some d) : classify c d.opcode d.delay d.payload = i := by
  -- Read backwards, the list says that an opcode differs from those that `classify` asks about before it.
  have hrev : c.namedOps.reverse.Nodup := List.nodup_reverse.2 (of_decide_eq_true hn)
  simp only [Config.namedOps, List.reverse_cons, List.reverse_nil, List.nil_append, List.cons_append, List.nodup_cons,
    List.mem_cons, List.not_mem_nil, or_false, not_or] at hrev
  cases i <;> simp only [Instr.toDesc, Option.some.injEq, reduceCtorEq] at h <;> subst h
  case cmd op d p =>
    refine classify_of_notNamed ?_ d p
    simp only [Instr.wf, Bool.and_eq_true] at hw
    simpa using hw.2
  all_goals simp only [classify, hrev, if_true, if_false]

/-- The record of an admitted command is admitted (R84, R94). -/
theorem wf_of_toDesc {c : Config} {i : Instr} {d : Desc} (hw : i.wf c = true) (h : i.toDesc c = some d) :
    d.wf c = true := by
  cases i <;> simp only [Instr.toDesc, Option.some.injEq, reduceCtorEq] at h <;> subst h
  case cmd => exact (Bool.and_eq_true_iff.1 hw).1
  all_goals exact hw

theorem encode_of_opCode {i : Instr} {code : BitVec 4} (h : i.opCode = some code) (c : Config) :
    encode c i = .host (code.setWidth 16) := by
  simp only [encode, h]

theorem encode_of_toDesc {c : Config} {i : Instr} {d : Desc} (h : i.toDesc c = some d) :
    encode c i = .desc d.enc := by
  cases i <;> cases h <;> rfl

/-- Settles O3: an instruction is a request told by its code, the sentinel, or the instruction of its record. -/
theorem encodedInstructionsDecodeToThemselves : Obligations.EncodedInstructionsDecodeToThemselves := by
  intro c i hn hw
  rcases Machine.instr_cases c i with ⟨code, hc⟩ | rfl | ⟨d, hd⟩
  · rw [encode_of_opCode hc]
    refine ⟨fun v hv => ?_, nofun⟩
    cases hv
    have hlow : (code.setWidth 16).extractLsb' 0 4 = code := by
      ext j hj
      simp [hj, show j < 16 by omega]
    rw [decode, decodeOp_of_opCode (hc.trans (congrArg some hlow.symm))]
  · refine ⟨nofun, fun bs rest hb => ?_⟩
    cases hb
    exact decodeBytes_sentinel c rest
  · rw [encode_of_toDesc hd]
    refine ⟨nofun, fun bs rest hb => ?_⟩
    cases hb
    rw [decode, decodeBytes_enc (wf_of_toDesc hw hd), classify_of_toDesc hn hw hd]

/-- Settles O4: the bytes of a record are read as an instruction of it, and what is read tells the bytes. -/
theorem descriptorRecordAndBytesAgree : Obligations.DescriptorRecordAndBytesAgree := by
  refine fun c => ⟨fun d rest hd => ⟨_, decodeBytes_enc hd rest, classify_toDesc ..⟩, fun bs rest i h => ?_⟩
  rcases decodeBytes_inv h with hs | ⟨d, hd, hi, hb⟩
  · exact .inl hs
  · exact .inr ⟨d, hi, hd, hb⟩

/-! ### Sequences (R88) -/

/-- Bytes begin with one record's encoding at most. -/
theorem enc_append_inj {c : Config} {d e : Desc} {xs ys : List Byte} (hd : d.wf c = true) (he : e.wf c = true)
    (h : d.enc ++ xs = e.enc ++ ys) : d = e ∧ xs = ys := by
  have hde : d = e := Machine.desc_unique hd he (rd := listReader (d.enc ++ xs)) (fun k b => listReader_append k b)
    (h ▸ fun k b => listReader_append k b)
  subst hde
  exact ⟨rfl, List.append_cancel_left h⟩

/-- A record's encoding does not begin with the sentinel (R87, R94). -/
theorem enc_append_ne_sentinel {c : Config} {d : Desc} (hd : d.wf c = true) (xs ys : List Byte) :
    d.enc ++ xs ≠ c.opEnd :: ys :=
  fun h => (Machine.desc_wf_iff.1 hd).1 (List.cons.inj h).1

theorem encSeq_cons_append (c : Config) (d : Desc) (ds : List Desc) (rest : List Byte) :
    encSeq c (d :: ds) ++ rest = d.enc ++ (encSeq c ds ++ rest) := by
  rw [Machine.encSeq_cons, List.append_assoc]

/-- Settles O5, by induction on the descriptors: the front of the bytes tells the first of them, or the sentinel. -/
theorem wellFormedSequenceHasOneReading : Obligations.WellFormedSequenceHasOneReading := by
  intro c ds es rest more hds hes h
  induction ds generalizing es with
  | nil =>
    cases es with
    | nil => exact ⟨rfl, (List.cons.inj h).2⟩
    | cons e es =>
      rw [encSeq_cons_append] at h
      exact absurd h.symm (enc_append_ne_sentinel (hes e List.mem_cons_self) _ rest)
  | cons d ds ih =>
    obtain ⟨hd, hds⟩ := List.forall_mem_cons.1 hds
    rw [encSeq_cons_append] at h
    cases es with
    | nil => exact absurd h (enc_append_ne_sentinel hd _ more)
    | cons e es =>
      obtain ⟨he, htail⟩ := List.forall_mem_cons.1 hes
      rw [encSeq_cons_append] at h
      obtain ⟨rfl, hrest⟩ := enc_append_inj hd he h
      obtain ⟨rfl, hmore⟩ := ih es hds htail hrest
      exact ⟨rfl, hmore⟩

/-! ### Words of the opcode table -/

/-- Settles O1, by reading each word. -/
theorem tableWordsReadAsTheirInstructions : Obligations.TableWordsReadAsTheirInstructions :=
  ⟨rfl, rfl, rfl, rfl, rfl, rfl, rfl, rfl, rfl, rfl, rfl⟩

end Sys2Proof

/-! SUPPORT. The machine's part of the encodings: reserved codes, the sentinel on the transport, the loop of `run_seq`,
and a host that waits (R83, R94, R96, R111, R188). -/

namespace Sys2Proof.Machine

/-! ### Reserved codes (R83) -/

/-- A reserved code raises IllegalOp in a block that takes requests (R32 (b), R83). -/
theorem exec_reserved {s : State} (hr : s.ready) {i : Instr} {code : BitVec 4} (hi : i.opCode = some code)
    (hc : code.toNat = 0 ∨ 10 ≤ code.toNat) : exec i s = .next (s.turnedAway code faultIllegalOp) := by
  rw [exec_eq_request hi, request_of_ready hr, examine_reserved hc]

/-- Settles O13: each of these codes is reserved, and an instruction is told by its code. -/
theorem reservedCodesRaiseIllegalOp : Obligations.ReservedCodesRaiseIllegalOp := by
  intro s hb hf
  have hr : s.ready := ⟨hb, hf⟩
  exact ⟨exec_reserved hr rfl (by decide), exec_reserved hr rfl (by decide), exec_reserved hr rfl (by decide),
    exec_reserved hr rfl (by decide), exec_reserved hr rfl (by decide), exec_reserved hr rfl (by decide),
    exec_reserved hr rfl (by decide), fun v => exec_reserved hr (decodeOp_opCode v), fun _ => rfl⟩

/-! ### The sentinel on the transport (R85, R94) -/

/-- Only phase CMD presents a command, that of the opcode register (R36). -/
theorem outstanding_cmd {s : State} {b : Byte} (h : s.outstanding = some (.tCmd b)) : s.ph = .cmd ∧ s.opc = b := by
  unfold State.outstanding at h
  split at h
  case h_1 =>
    split at h
    · split at h <;> cases h
    · cases h
  case h_2 hp =>
    cases h
    exact ⟨hp, rfl⟩
  case h_3 => split at h <;> cases h
  case h_4 => cases h
  case h_5 => split at h <;> cases h
  case h_6 | h_7 | h_8 => cases h

/-- An emission leads to phase CMD only by what follows it in the step: a failed one leaves the block idle (R184). -/
theorem emit_ph_ne_cmd {e : Txn} {f : State → State} {s : State} (h : (f (s.afterTxns [e])).ph ≠ .cmd) :
    (emit e f s).ph ≠ .cmd := by
  rcases emit_cases e f s with ⟨-, he⟩ | ⟨-, -, he⟩ <;> rw [he]
  · exact h
  · exact nofun

/-- No micro-operation is dispatched to phase CMD (R34). -/
theorem runMicroOp_ph_ne_cmd {s : State} (hp : s.ph = .dispatch) (u : MicroOp) : (runMicroOp u s).ph ≠ .cmd := by
  have hstay : s.ph ≠ .cmd := hp.trans_ne nofun
  cases u with
  | tinit => exact emit_ph_ne_cmd hstay
  | loadwin | loadfill => exact hstay
  | run | one | pix => exact nofun

theorem afterPayload_ph_ne_cmd (s : State) : (afterPayload s).ph ≠ .cmd := by
  show (if s.dlyv = 0 then Phase.adv else .dly) ≠ .cmd
  split <;> exact nofun

theorem afterCommand_ph_ne_cmd (s : State) : (afterCommand s).ph ≠ .cmd := by
  unfold afterCommand
  split
  · exact afterPayload_ph_ne_cmd s
  · exact nofun

/-- The block enters phase CMD by a fetch only, with an opcode that is not the sentinel (R35, R94). -/
theorem blockStep_enters_cmd {s t : State} (h : blockStep s = .next t) (hp : t.ph = .cmd) : t.opc ≠ t.cfg.opEnd := by
  rcases blockStep_cases h with ⟨hs, rfl⟩ | ⟨hs, ops, -, ⟨u, -, rfl⟩ | ⟨-, rfl⟩⟩ | ⟨-, ⟨-, rfl⟩ | ⟨d, hd, -, rfl⟩⟩ |
    ⟨-, rfl⟩ | ⟨-, bs, -, rfl⟩ | ⟨-, rfl⟩ | ⟨-, ⟨-, rfl⟩ | ⟨-, rfl⟩⟩ | ⟨hs, ⟨-, rfl⟩ | ⟨-, rfl⟩⟩
  case inr.inr.inl.inr => exact (desc_wf_iff.1 hd).1
  case inl => cases hs.symm.trans hp
  case inr.inl.inl => exact absurd hp (runMicroOp_ph_ne_cmd hs u)
  case inr.inr.inr.inl => exact absurd hp (emit_ph_ne_cmd (afterCommand_ph_ne_cmd _))
  case inr.inr.inr.inr.inl => exact absurd hp (emit_ph_ne_cmd (afterPayload_ph_ne_cmd _))
  case inr.inr.inr.inr.inr.inl => exact absurd hp (emit_ph_ne_cmd nofun)
  case inr.inr.inr.inr.inr.inr.inr.inr =>
    have hstay : s.ph ≠ .cmd := hs.trans_ne nofun
    exact absurd hp (emit_ph_ne_cmd hstay)
  all_goals cases hp

/-- No host move enters phase CMD, or changes the opcode register in it (R31, R32, R44). -/
theorem hostStep_cmd {m : HostMove} {s t : State} (hm : m ≠ .pass) (h : hostStep m s = .next t) (hp : t.ph = .cmd) :
    s.ph = .cmd ∧ t.opc = s.opc := by
  rcases hostStep_cases hm h with ⟨v, code, -, -, rfl | ⟨-, ⟨rfl, -⟩ | ⟨rfl, -⟩ | ⟨-, rfl⟩⟩⟩ | ⟨i, v, -, rfl⟩ |
    ⟨v, -, rfl⟩ | ⟨r, -, rfl⟩ | ⟨a, b, -, hs⟩ | ⟨-, rfl⟩ | ⟨time, r, -, rfl⟩
  case inl.inr.inl | inl.inr.inr.inl | inl.inr.inr.inr => cases hp
  case inr.inl =>
    rcases hb : s.busy
    · rw [writeArg_of_idle hb] at hp ⊢
      exact ⟨hp, rfl⟩
    · rw [writeArg_of_busy hb] at hp ⊢
      exact ⟨hp, rfl⟩
  case inr.inr.inr.inr.inl =>
    rw [(hostStore_next hs).2] at hp ⊢
    exact ⟨hp, rfl⟩
  case inr.inr.inr.inr.inr.inr =>
    obtain ⟨-, -, -, hi, -⟩ := hardReset_effect time r s
    cases hi.symm.trans hp
  all_goals exact ⟨hp, rfl⟩

/-- A step leaves in phase CMD no sentinel, if it found none there. -/
theorem step_cmd_ne_sentinel {s t : State} (h : step s = .next t) (hs : s.ph = .cmd → s.opc ≠ s.cfg.opEnd)
    (hp : t.ph = .cmd) : t.opc ≠ t.cfg.opEnd := by
  rcases step_cases h with ⟨rest, -, hb⟩ | ⟨m, rest, -, hm, -, hh⟩
  · exact blockStep_enters_cmd hb hp
  · obtain ⟨hcmd, hopc⟩ := hostStep_cmd hm hh hp
    rw [hopc, (step_ext h).1]
    exact hs hcmd

/-- Settles O36: a step adds to the trace at most the outstanding transaction, and that sends the opcode register. -/
theorem theSentinelIsNeverTransmitted : Obligations.TheSentinelIsNeverTransmitted := by
  rintro s t ⟨hcmd, htrace⟩ h
  refine ⟨step_cmd_ne_sentinel h hcmd, ?_⟩
  rw [(step_ext h).1]
  rcases step_trace h with ht | ⟨e, a, ho, ht⟩ <;> rw [ht]
  · exact htrace
  · refine List.forall_mem_append.2 ⟨htrace, List.forall_mem_singleton.2 ?_⟩
    rintro rfl
    obtain ⟨hp, hopc⟩ := outstanding_cmd ho
    exact hcmd hp hopc

/-! ### The loop of `run_seq` (R111) -/

/-- Settles O47, by induction on the descriptors: the loop decodes the first and goes on behind it. -/
theorem runSeqLoopIsTheListOfDescriptors : Obligations.RunSeqLoopIsTheListOfDescriptors := by
  intro s space a ds hds hb
  change s.holds space a (encSeq s.cfg ds) at hb
  induction ds generalizing a with
  | nil =>
    have h0 : decodeWith s.cfg (s.byteAt space a) = .ok .sentinel := decodeWith_sentinel (hb 0 _ a 0 rfl rfl)
    simp only [List.length_nil, State.runSeq, h0]
    rfl
  | cons d ds ih =>
    obtain ⟨hd, hds⟩ := List.forall_mem_cons.1 hds
    rw [encSeq_cons] at hb
    have hrest := ih (a + BitVec.ofNat 16 d.enc.length) hds (holds_suffix hb)
    simp only [List.length_cons, State.runSeq, decodeWith_enc hd (holds_prefix hb), classify_toDesc, nextSp_enc a hd,
      hrest, seqTxns_cons]

/-! ### A host that waits (R96, R188) -/

/-- The machine with other moves of the host to come. -/
def State.withHost (s : State) (moves : List HostMove) : State := { s with host := moves }

/-- An emission and what follows it do not depend on the host. -/
theorem emit_withHost {f : State → State} {moves : List HostMove}
    (hf : ∀ u : State, f (u.withHost moves) = (f u).withHost moves) (e : Txn) (s : State) :
    emit e f (s.withHost moves) = (emit e f s).withHost moves := by
  rcases ha : s.nextAnswer
  · rw [emit_of_ok ha, emit_of_ok (s := s.withHost moves) ha]
    exact hf (s.afterTxns [e])
  · rw [emit_fail ha, emit_fail (s := s.withHost moves) ha]
    rfl

theorem afterEmission_withHost (p : Phase) (moves : List HostMove) (s : State) :
    p.afterEmission (s.withHost moves) = (p.afterEmission s).withHost moves := by
  cases p
  case cmd =>
    show afterCommand (s.withHost moves) = (afterCommand s).withHost moves
    rw [afterCommand_eq, afterCommand_eq]
    rfl
  all_goals rfl

theorem runMicroOp_withHost (u : MicroOp) (moves : List HostMove) (s : State) :
    runMicroOp u (s.withHost moves) = (runMicroOp u s).withHost moves := by
  cases u
  case tinit => exact emit_withHost (f := fun t => { t with stg := t.stg + 1 }) (fun _ => rfl) .tInit s
  all_goals rfl

theorem blockStep_dispatch {s : State} {ops : List MicroOp} {u : MicroOp} (hp : s.ph = .dispatch)
    (ho : s.microOps = some ops) (hu : ops[s.stg.toNat]? = some u) : blockStep s = .next (runMicroOp u s) := by
  simp only [blockStep, hp, phaseDispatch, ho, hu]

theorem blockStep_complete {s : State} {ops : List MicroOp} (hp : s.ph = .dispatch) (ho : s.microOps = some ops)
    (hl : s.stg.toNat = ops.length) : blockStep s = .next (complete s) := by
  simp only [blockStep, hp, phaseDispatch, ho, hl, List.getElem?_length, if_true]

theorem blockStep_pix_end {s : State} (hp : s.ph = .pix) (hz : s.pixcnt = 0) : blockStep s = .next (endMicroOp s) := by
  simp only [blockStep, hp, phasePix, hz, if_true]

/-- A step of the block does not depend on the moves of the host to come. -/
theorem blockStep_withHost {s t : State} (h : blockStep s = .next t) (moves : List HostMove) :
    blockStep (s.withHost moves) = .next (t.withHost moves) := by
  rcases ho : s.outstanding with _ | e
  · rcases blockStep_cases h with ⟨hp, rfl⟩ | ⟨hp, ops, hops, ⟨u, hu, rfl⟩ | ⟨hl, rfl⟩⟩ |
      ⟨hp, ⟨hb, rfl⟩ | ⟨d, hd, hb, rfl⟩⟩ | ⟨hp, -⟩ | ⟨hp, bs, hb, -⟩ | ⟨hp, -⟩ | ⟨hp, ⟨hm, rfl⟩ | ⟨hm, rfl⟩⟩ |
      ⟨hp, ⟨hz, rfl⟩ | ⟨hn, -⟩⟩
    · exact blockStep_of_idle (s := t.withHost moves) hp
    · rw [← runMicroOp_withHost]
      exact blockStep_dispatch (s := s.withHost moves) hp hops hu
    · exact blockStep_complete (s := s.withHost moves) hp hops hl
    · exact blockStep_fetch_sentinel (s := s.withHost moves) hp hb
    · exact blockStep_fetch_enc (s := s.withHost moves) hp hd hb
    · simp only [State.outstanding, hp, reduceCtorEq] at ho
    · simp only [State.outstanding, hp, hb, reduceCtorEq] at ho
    · simp only [State.outstanding, hp, reduceCtorEq] at ho
    · exact blockStep_adv_one (s := s.withHost moves) hp hm
    · exact blockStep_adv_run (s := s.withHost moves) hp hm
    · exact blockStep_pix_end (s := s.withHost moves) hp hz
    · simp only [State.outstanding, hp, if_neg hn, reduceCtorEq] at ho
  · have hout : (s.withHost moves).outstanding = some e := ho
    rw [blockStep_emits ho] at h
    cases h
    rw [blockStep_emits hout, ← emit_withHost (afterEmission_withHost s.ph moves)]
    rfl

/-- The run of a host that waits is the run with no host move to come, as long as the block is busy. -/
theorem runSteps_awaiting {s t : State} {n : Nat} (rest : List HostMove) (hh : s.host = [])
    (h : runSteps n s = .next t) (hb : ∀ k u, k < n → runSteps k s = .next u → u.busy = true) :
    runSteps n (s.withHost (.awaitIdle :: rest)) = .next (t.withHost (.awaitIdle :: rest)) := by
  induction n generalizing s with
  | zero =>
    cases h
    rfl
  | succ n ih =>
    obtain ⟨u, hu, hn⟩ := runSteps_succ_inv h
    have hbusy : s.busy = true := hb 0 s n.succ_pos rfl
    have hblock : blockStep s = .next u := (step_of_quiet hh).symm.trans hu
    have hwait : step (s.withHost (.awaitIdle :: rest)) = .next (u.withHost (.awaitIdle :: rest)) :=
      (step_await_busy (s := s.withHost _) rfl hbusy).trans (blockStep_withHost hblock _)
    rw [runSteps_succ hwait]
    exact ih ((blockStep_host hblock).1.trans hh) hn
      (fun k v hk hv => hb (k + 1) v (Nat.succ_lt_succ hk) ((runSteps_succ hu k).trans hv))

/-- Settles O55: the host waits while the block is busy, and one step ends the wait of an idle block. -/
theorem awaitingHostLeavesTheOperationUndisturbed : Obligations.AwaitingHostLeavesTheOperationUndisturbed := by
  intro s t rest n hh h hb
  have hrun := runSteps_awaiting rest hh h hb
  exact ⟨hrun, fun ht => runSteps_then hrun (step_await_idle rfl ht)⟩

end Sys2Proof.Machine

/-! SUPPORT. INIT from acceptance to completion when the transport answers `ok` throughout: its steps and the registers
it leaves (R130, R131). -/

namespace Sys2Proof.Machine

/-! ### The panel as a region (R33, R164) -/

/-- The panel sizes of a legal configuration (R7). -/
theorem legal_panel {c : Config} (h : c.legal = true) :
    (1 ≤ c.panelW ∧ c.panelW ≤ 65535) ∧ 1 ≤ c.panelH ∧ c.panelH ≤ 65535 := by
  simp only [Config.legal, Bool.and_eq_true, decide_eq_true_eq] at h
  obtain ⟨⟨⟨⟨⟨⟨⟨⟨⟨⟨hw, hw'⟩, hh⟩, hh'⟩, -⟩, -⟩, -⟩, -⟩, -⟩, -⟩, -⟩ := h
  exact ⟨⟨hw, hw'⟩, hh, hh'⟩

theorem panelSize_toNat {n : Nat} (h : n ≤ 65535) : (panelSize n).toNat = n := by
  rw [panelSize, BitVec.toNat_ofNat]
  omega

/-- The far corner of a region that begins at 0 (R91). -/
theorem corner_zero_panelSize {n : Nat} (h : 1 ≤ n) : corner 0 (panelSize n) = BitVec.ofNat 16 (n - 1) := by
  obtain ⟨m, rfl⟩ := Nat.exists_eq_add_of_le' h
  rw [corner, panelSize, Nat.add_sub_cancel, BitVec.ofNat_add]
  exact (congrArg (· - 1) (BitVec.zero_add _)).trans (BitVec.add_sub_cancel ..)

/-! ### INIT (R130, R131) -/

/-- A run over a table from its front ends at the table's last byte, the sentinel (R88, R111). -/
theorem sp_at_sentinel {c : Config} {rom : List Byte} {ds : List Desc} (h : rom = encSeq c ds) :
    (0 : U16) + BitVec.ofNat 16 (ds.flatMap Desc.enc).length = BitVec.ofNat 16 (rom.length - 1) := by
  rw [h, encSeq, List.length_append, List.length_singleton, Nat.add_sub_cancel]
  exact BitVec.zero_add _

/-- The transactions of INIT's own transport bring-up (R130). -/
def tinitTxns (c : Config) : List Txn := if c.initCallsTinit then [.tInit] else []

/-- The transactions of INIT after its transport bring-up: the first table, the clear, the second table (R130). -/
def tablesTxns (c : Config) (one two : List Desc) : List Txn :=
  seqTxns c one ++ (clearPanel c c.initClearColor ++ seqTxns c two)

theorem initTxns_eq (c : Config) (one two : List Desc) : initTxns c one two = tinitTxns c ++ tablesTxns c one two := by
  rw [initTxns, List.append_assoc, List.append_assoc]
  rfl

/-- The index of INIT's micro-operation after its TINIT, if it has one. -/
def afterTinit (c : Config) : BitVec 3 := if c.initCallsTinit then 1 else 0

/-- `STG` counts the six micro-operations after TINIT up to the end of the list. -/
theorem stg_after_tables {c : Config} {k : BitVec 3} (h : k = afterTinit c) :
    k + 1 + 1 + 1 + 1 + 1 + 1 = if c.initCallsTinit then 7 else 6 := by
  subst h
  unfold afterTinit
  split <;> rfl

theorem initOps_length (c : Config) : (if c.initCallsTinit then (7 : BitVec 3) else 6).toNat = (initOps c).length := by
  unfold initOps
  split <;> rfl

/-- INIT's own transport bring-up, if the configuration has one: one step, one transaction. -/
theorem run_initTinit {s : State} (hh : s.host = []) (ha : s.answersOk (tinitTxns s.cfg).length) :
    runSteps (if s.cfg.initCallsTinit then 1 else 0) (s.accepted 1) = .next
      ({ s.accepted 1 with stg := afterTinit s.cfg }.afterTxns (tinitTxns s.cfg)) := by
  unfold tinitTxns afterTinit at *
  by_cases hk : s.cfg.initCallsTinit = true
  · rw [if_pos hk] at ha
    rw [if_pos hk, if_pos hk, if_pos hk]
    have hu : (initOps s.cfg)[(s.accepted 1).stg.toNat]? = some .tinit := by
      rw [initOps, if_pos hk]
      rfl
    have hdispatch := step_dispatch (s := s.accepted 1) hh rfl rfl hu
    exact runSteps_one (hdispatch.trans (congrArg _ (emit_ok (s := s.accepted 1) ha .tInit
      (fun t => { t with stg := t.stg + 1 }))))
  · rw [if_neg hk, if_neg hk, if_neg hk, afterTxns_nil]
    rfl

/-- INIT after its TINIT, up to its completion: a run over the first table, a fill of the panel, a run over the
second. -/
theorem run_initTables {s : State} {one two : List Desc} (hh : s.host = []) (hp : s.ph = .dispatch)
    (ho : s.microOps = some (initOps s.cfg)) (hst : s.extStale = []) (hk : s.stg = afterTinit s.cfg)
    (hc : s.cfg.legal = true) (h1 : sequenceOf s.cfg s.cfg.rom1 = some one)
    (h2 : sequenceOf s.cfg s.cfg.rom2 = some two) (ha : s.answersOk (tablesTxns s.cfg one two).length) :
    ∃ len dlyv,
      runSteps (runStepCount s.cfg one +
        (fillStepCount s.cfg (s.cfg.panelW * s.cfg.panelH) + runStepCount s.cfg two)) s = .next
        ({ s with
          xs := 0, ys := 0
          xe := BitVec.ofNat 16 (s.cfg.panelW - 1), ye := BitVec.ofNat 16 (s.cfg.panelH - 1)
          color := s.cfg.initClearColor, pixcnt := 0, opc := s.cfg.opEnd, len := len, dlyv := dlyv
          src := .rom2, sp := BitVec.ofNat 16 (s.cfg.rom2.length - 1), mode := .run
          stg := if s.cfg.initCallsTinit then 7 else 6, ph := .dispatch }.afterTxns (tablesTxns s.cfg one two)) := by
  obtain ⟨hsep, hrom1, hrom2, hburst, -⟩ := legal_inv hc
  obtain ⟨⟨hw, hw'⟩, hht, hht'⟩ := legal_panel hc
  obtain ⟨hwf1, henc1⟩ := (sequenceOf_eq_some_iff ..).1 h1
  obtain ⟨hwf2, henc2⟩ := (sequenceOf_eq_some_iff ..).1 h2
  obtain ⟨u0, u1, u2, u3, u4, u5, -⟩ := initOps_at s.cfg hk
  rw [tablesTxns, List.length_append, List.length_append] at ha
  obtain ⟨len1, dlyv1, r1⟩ := run_run_op hh hp ho u0 hwf1 (henc1 ▸ holds_rom1 (romLegal_inv hrom1).1) hst
    (answersOk_mono ha (by omega))
  set t1 : State := State.afterTxns (seqTxns s.cfg one) _
  have ha1 : t1.answersOk ((clearPanel s.cfg s.cfg.initClearColor).length + (seqTxns s.cfg two).length) :=
    answersOk_rest ha rfl rfl
  have r2 := run_fillOps (s := t1) hh rfl ho hst hsep hburst u1 u2 u3 u4 (answersOk_mono ha1 (Nat.le_add_right ..))
  rw [panelSize_toNat hw', panelSize_toNat hht', corner_zero_panelSize hw, corner_zero_panelSize hht] at r2
  set t2 : State := State.afterTxns (fillArea ..) _
  obtain ⟨len2, dlyv2, r3⟩ := run_run_op (s := t2) hh rfl ho u5 hwf2
    (henc2 ▸ holds_rom2 (s := t2) (romLegal_inv hrom2).1) hst (answersOk_rest ha1 rfl rfl)
  have hstg : t2.stg + 1 = if s.cfg.initCallsTinit then 7 else 6 := stg_after_tables hk
  rw [sp_at_sentinel henc2, hstg] at r3
  refine ⟨len2, dlyv2, ?_⟩
  rw [tablesTxns, ← afterTxns_append, ← afterTxns_append]
  exact runSteps_trans r1 (runSteps_trans r2 r3)

/-- Settles O46: acceptance, the bring-up of the transport if there is one, the tables with the clear between them, the
completion. -/
theorem initBringsThePanelUp : Obligations.InitBringsThePanelUp := by
  intro s one two hb hh hc h1 h2 ha
  have hexec : exec .init s = .next (s.accepted 1) := congrArg Host.Outcome.next (request_init hb accept)
  rw [initTxns_eq, List.length_append] at ha
  have rinit := run_initTinit hh (answersOk_mono ha (Nat.le_add_right ..))
  set t : State := State.afterTxns (tinitTxns s.cfg) _
  obtain ⟨len, dlyv, rtables⟩ := run_initTables (s := t) hh rfl rfl rfl rfl hc h1 h2 (answersOk_rest ha rfl rfl)
  have rall := runSteps_complete (runSteps_trans rinit rtables) hh rfl rfl (initOps_length s.cfg)
  rw [← Nat.add_assoc, ← Nat.add_assoc] at rall
  refine ⟨s.accepted 1, hexec, _, rall, ?_⟩
  rw [initTxns_eq, ← afterTxns_append _ (tinitTxns s.cfg)]
  rfl

end Sys2Proof.Machine

/-! SUPPORT. SETWIN from acceptance to completion when the transport answers `ok` throughout (R150, R151). -/

namespace Sys2Proof.Machine

/-- SETWIN is accepted when the geometry is not checked or the window lies inside it (R32, R182). -/
theorem exec_setwin {s : State} (hr : s.ready)
    (hg : s.cfg.geomCheck = true → windowInside s.cfg s.args[0] s.args[1] s.args[2] s.args[3] = true) :
    exec .setwin s = .next (s.accepted 7) := by
  rw [exec_eq_request (i := .setwin) rfl, request_of_ready hr, examine_accepted (by decide) (by decide)]
  rintro ⟨hgeom, ⟨-, h⟩ | ⟨h, -⟩⟩
  · exact absurd (hg hgeom) (Bool.eq_false_iff.1 h)
  · exact absurd h (by decide)

/-- SETWIN's micro-operations, LOADWIN and the window-set, and its completion. -/
theorem run_setwin {s : State} (hh : s.host = []) (hc : s.cfg.sentinelApart = true) (ha : s.answersOk 5) :
    runSteps 16 (s.accepted 7) = .next
      ({ s.accepted 7 with
        xs := s.args[0], ys := s.args[1], xe := s.args[2], ye := s.args[3]
        opc := s.cfg.opRamwr, len := 0, dlyv := 0, src := .ctl, sp := 0, mode := .one, stg := 3
        ph := .idle, busy := false, done := true }.afterTxns
        (setWindow s.cfg s.args[0] s.args[1] s.args[2] s.args[3])) := by
  have hload := step_dispatch (s := s.accepted 7) (u := .loadwin s.args[0] s.args[1] s.args[2] s.args[3]) hh rfl rfl rfl
  have hset := run_windowSet (s := runMicroOp (.loadwin s.args[0] s.args[1] s.args[2] s.args[3]) (s.accepted 7))
    hh rfl rfl rfl rfl rfl hc ha
  exact runSteps_complete ((runSteps_succ hload 14).trans hset) hh rfl rfl rfl

/-- Settles O41: the transactions of a window-set are the five of R150. -/
theorem setwinSendsItsFiveTransactions : Obligations.SetwinSendsItsFiveTransactions := by
  intro s hr hh hc ha hg
  have hrun := run_setwin hh hc ha
  rw [setWindow_eq hc] at hrun
  exact ⟨s.accepted 7, exec_setwin hr hg, hrun⟩

end Sys2Proof.Machine

/-! SUPPORT. CLEAR from acceptance to completion when the transport answers `ok` throughout (R164, R165). -/

namespace Sys2Proof.Machine

/-- CLEAR's micro-operations, those of a fill of the panel's region, and its completion: the region has
`CFG.PANEL_W * CFG.PANEL_H` pixels and its far corner is the panel's (R7). -/
theorem run_clear {s : State} (hh : s.host = []) (hc : s.cfg.sentinelApart = true) (hb : 1 ≤ s.cfg.fillBurst)
    (hw : 1 ≤ s.cfg.panelW) (hw' : s.cfg.panelW ≤ 65535) (hht : 1 ≤ s.cfg.panelH) (hht' : s.cfg.panelH ≤ 65535)
    (ha : s.answersOk (clearPanel s.cfg s.args[0]).length) :
    runSteps (fillStepCount s.cfg (s.cfg.panelW * s.cfg.panelH) + 1) (s.accepted 9) = .next
      ({ s.accepted 9 with
        xs := 0, ys := 0
        xe := BitVec.ofNat 16 (s.cfg.panelW - 1), ye := BitVec.ofNat 16 (s.cfg.panelH - 1)
        color := s.args[0], pixcnt := 0
        opc := s.cfg.opRamwr, len := 0, dlyv := 0, src := .ctl, sp := 0, mode := .one, stg := 4
        ph := .idle, busy := false, done := true }.afterTxns (clearPanel s.cfg s.args[0])) := by
  have hops : (s.accepted 9).microOps = some (clearOps s.cfg s.args[0]) := rfl
  have hrun := run_fill hh hops hc hb ha
  rw [panelSize_toNat hw', panelSize_toNat hht', corner_zero_panelSize hw, corner_zero_panelSize hht] at hrun
  exact hrun

/-- Settles O43: CLEAR is not checked, and its transactions are those of the fill that R164 defines it by. -/
theorem clearIsAFillOfThePanel : Obligations.ClearIsAFillOfThePanel :=
  fun s hr hh hc hb hw hw' hht hht' ha => ⟨s.accepted 9, exec_accept hr rfl, run_clear hh hc hb hw hw' hht hht' ha⟩

end Sys2Proof.Machine

/-! SUPPORT. Faults (R180 to R191): which step raises one and which code, what a failed transaction leaves, and what the
geometry check turns away. -/

namespace Sys2Proof.Machine

/-! ### The geometry check (R182) -/

/-- An idle block accepts an operation that the geometry check, if it is on, lets through (R32 (d), R182). -/
theorem exec_inside {s : State} (hr : s.ready) {i : Instr} {code : BitVec 4} (hi : i.opCode = some code)
    (hlo : 1 ≤ code.toNat) (hhi : code.toNat ≤ 9) (h : ¬ (s.cfg.geomCheck = true ∧ s.outsidePanel code)) :
    exec i s = .next (s.accepted code) := by
  rw [exec_eq_request hi, request_of_ready hr, examine_accepted hlo hhi h]

/-- An idle block that checks the geometry turns away an operation outside the panel (R32 (c), R182). -/
theorem exec_outside {s : State} (hr : s.ready) {i : Instr} {code : BitVec 4} (hi : i.opCode = some code)
    (hg : s.cfg.geomCheck = true) (h : s.outsidePanel code) :
    exec i s = .next (s.turnedAway code faultInvalidRegion) := by
  rw [exec_eq_request hi, request_of_ready hr, examine_outside hg h]

/-- Settles O14: SETWIN and FILL are the two codes that can name a region outside the panel; the others are not checked. -/
theorem geometryCheckGuardsSetwinAndFillOnly : Obligations.GeometryCheckGuardsSetwinAndFillOnly := by
  intro s hb hf window region
  have hr : s.ready := ⟨hb, hf⟩
  have hwindow : s.outsidePanel 7 ↔ ¬ window := by simp [outsidePanel_iff, window]
  have hregion : s.outsidePanel 8 ↔ ¬ region := by simp [outsidePanel_iff, region]
  have hsetwin := exec_inside hr (i := .setwin) rfl (by decide) (by decide)
  have hfill := exec_inside hr (i := .fill) rfl (by decide) (by decide)
  obtain ⟨hinit, hrest⟩ := uncheckedOperationsAreAccepted s hb
  obtain ⟨-, -, -, hruncmd, hrunseq, hclear⟩ := hrest hf
  refine ⟨fun hg => ⟨fun hw => ?_, fun hw => ?_, fun hw => ?_, fun hw => ?_⟩, fun hg => ?_, hclear, hinit, hruncmd,
    hrunseq⟩
  · exact hsetwin fun ⟨_, ho⟩ => hwindow.1 ho hw
  · exact exec_outside hr rfl hg (hwindow.2 hw)
  · exact hfill fun ⟨_, ho⟩ => hregion.1 ho hw
  · exact exec_outside hr rfl hg (hregion.2 hw)
  · have hoff : s.cfg.geomCheck ≠ true := Bool.eq_false_iff.1 hg
    exact ⟨hsetwin fun h => hoff h.1, hfill fun h => hoff h.1⟩

/-! ### A failed transaction (R184, R186) -/

theorem terr_of_fail {s : State} (h : s.nextAnswer = .fail) : s.cfg.terr = true := by
  by_contra ht
  cases h.symm.trans (nextAnswer_of_not_terr (Bool.eq_false_iff.2 ht))

theorem nextAnswer_of_queue {s : State} {a : Answer} {rest : List Answer} (ht : s.cfg.terr = true)
    (ha : s.answers = a :: rest) : s.nextAnswer = a := by
  simp [State.nextAnswer, ht, ha]

/-- The trace takes a failed transaction, and its answer leaves the queue. -/
theorem record_of_fail {s : State} (h : s.nextAnswer = .fail) (e : Txn) :
    record e s = { s with trace := s.trace ++ [⟨e, .fail⟩], answers := s.answers.tail } := by
  rw [record, h, if_pos (terr_of_fail h)]

theorem afterEmission_fault (p : Phase) (s : State) : (p.afterEmission s).fault = s.fault := by
  cases p
  case cmd =>
    show (afterCommand s).fault = s.fault
    rw [afterCommand_eq]
  all_goals rfl

/-- Settles O29: the step emits the transaction that its phase presents, and the answer decides what follows. -/
theorem failedAnswerEndsTheOperation : Obligations.FailedAnswerEndsTheOperation := by
  intro s e hh ho
  have hstep : step s = .next (emit e s.ph.afterEmission s) := (step_of_quiet hh).trans (blockStep_emits ho)
  refine ⟨fun hfail => ⟨terr_of_fail hfail, ?_⟩, fun hok => ⟨_, hstep, ?_⟩, nextAnswer_of_not_terr,
    fun a rest => nextAnswer_of_queue⟩
  · rw [hstep, emit_fail hfail, record_of_fail hfail]
    rfl
  · rw [emit_of_ok hok, afterEmission_trace, afterEmission_fault]
    exact ⟨rfl, rfl⟩

/-! ### The step that raises a fault (R180, R181, R185) -/

/-- From `s` to `t` the fault `code` is raised: the record takes it, `FAULT` holds it, and the block is idle. -/
def State.Raises (s : State) (code : BitVec 3) (t : State) : Prop :=
  t.faultLog = s.faultLog ++ [code] ∧ t.fault = code ∧ t.busy = false ∧ t.done = false ∧ t.ph = .idle

theorem raises_turnedAway (s : State) (code : BitVec 4) (f : BitVec 3) : s.Raises f (s.turnedAway code f) :=
  ⟨rfl, rfl, rfl, rfl, rfl⟩

/-- A host move raises a fault only by a write to `OPREG` of an idle block: IllegalOp for a reserved code, or InvalidRegion
under the geometry check (R32 (b), (c)). -/
theorem hostStep_faults {m : HostMove} {s t : State} (hm : m ≠ .pass) (h : hostStep m s = .next t) :
    t.faultLog = s.faultLog ∨
      (s.busy = false ∧ ∃ v, m = .write .opreg v ∧
        ((s.Raises 3 t ∧ ((v.extractLsb' 0 4).toNat = 0 ∨ 10 ≤ (v.extractLsb' 0 4).toNat)) ∨
          (s.cfg.geomCheck = true ∧ s.Raises 1 t))) := by
  rcases hostStep_cases hm h with ⟨v, code, rfl, rfl, rfl | ⟨hb, ⟨rfl, -⟩ | ⟨rfl, hc⟩ | ⟨hg, rfl⟩⟩⟩ | ⟨i, v, -, rfl⟩ |
    ⟨v, -, rfl⟩ | ⟨r, -, rfl⟩ | ⟨a, b, -, hs⟩ | ⟨-, rfl⟩ | ⟨time, r, -, rfl⟩
  case inl.inr.inr.inl => exact .inr ⟨hb, v, rfl, .inl ⟨raises_turnedAway s _ 3, hc⟩⟩
  case inl.inr.inr.inr => exact .inr ⟨hb, v, rfl, .inr ⟨hg, raises_turnedAway s _ 1⟩⟩
  case inr.inl =>
    unfold writeArg
    split <;> exact .inl rfl
  case inr.inr.inr.inr.inl =>
    rw [(hostStore_next hs).2]
    exact .inl rfl
  case inr.inr.inr.inr.inr.inr =>
    obtain ⟨hlog, -⟩ := hardReset_effect time r s
    exact .inl hlog
  all_goals exact .inl rfl

/-- What a step adds to the record of faults: nothing, the TransportError of the block's transaction, or the fault of a
host's write to `OPREG`. -/
theorem step_faults {s t : State} (h : step s = .next t) :
    t.faultLog = s.faultLog ∨ (s.cfg.terr = true ∧ s.Raises 2 t) ∨
      (s.busy = false ∧ ∃ v rest, s.host = .write .opreg v :: rest ∧
        ((s.Raises 3 t ∧ ((v.extractLsb' 0 4).toNat = 0 ∨ 10 ≤ (v.extractLsb' 0 4).toNat)) ∨
          (s.cfg.geomCheck = true ∧ s.Raises 1 t))) := by
  rcases step_cases h with ⟨rest, -, hb⟩ | ⟨m, rest, hh, hm, -, hs⟩
  · obtain ⟨-, hlog, -⟩ := blockStep_effect hb
    exact hlog.imp_right .inl
  · rcases hostStep_faults hm hs with hlog | ⟨hb, v, rfl, hraised⟩
    · exact .inl hlog
    · exact .inr (.inr ⟨hb, v, rest, hh, hraised⟩)

/-- Settles O30: each of the three ways to raise a fault raises one, and leaves the block idle. -/
theorem aStepRaisesAtMostOneFault : Obligations.AStepRaisesAtMostOneFault := by
  intro s t h
  have raised : ∀ code, code = 1 ∨ code = 2 ∨ code = 3 → s.Raises code t →
      t.faultLog = s.faultLog ++ [t.fault] ∧ (t.fault = 1 ∨ t.fault = 2 ∨ t.fault = 3) ∧
        t.busy = false ∧ t.done = false ∧ t.ph = .idle := by
    rintro code hcode ⟨hlog, rfl, hidle⟩
    exact ⟨hlog, hcode, hidle⟩
  rcases step_faults h with hlog | ⟨-, hr⟩ | ⟨-, v, rest, -, ⟨hr, -⟩ | ⟨-, hr⟩⟩
  · exact .inl hlog
  · exact .inr (raised 2 (by decide) hr)
  · exact .inr (raised 3 (by decide) hr)
  · exact .inr (raised 1 (by decide) hr)

/-- Settles O31: of the three ways to raise a fault, one needs `TERR` and one needs `GEOM_CHECK`. -/
theorem defaultConfigurationRaisesOnlyIllegalOp : Obligations.DefaultConfigurationRaisesOnlyIllegalOp := by
  intro s t hg ht h
  rcases step_faults h with hlog | ⟨hterr, -⟩ | ⟨hb, v, rest, hh, ⟨⟨hlog, -⟩, hc⟩ | ⟨hgeom, -⟩⟩
  · exact .inl hlog
  · cases ht.symm.trans hterr
  · exact .inr ⟨hlog, hb, v, rest, hh, hc⟩
  · cases hg.symm.trans hgeom

/-! ### The idle phase (R184, R211) -/

/-- Of the host's moves only a write to `OPREG` leaves the idle phase, by acceptance (R32 (d)). -/
theorem hostStep_of_idle {m : HostMove} {s t : State} (hm : m ≠ .pass) (hp : s.ph = .idle)
    (h : hostStep m s = .next t) :
    t.ph = .idle ∨ t.ph = .dispatch ∧ t.busy = true ∧ ∃ v, m = .write .opreg v := by
  rcases hostStep_cases hm h with ⟨v, code, rfl, -, rfl | ⟨-, ⟨rfl, -⟩ | ⟨rfl, -⟩ | ⟨-, rfl⟩⟩⟩ | ⟨i, v, -, rfl⟩ |
    ⟨v, -, rfl⟩ | ⟨r, -, rfl⟩ | ⟨a, b, -, hs⟩ | ⟨-, rfl⟩ | ⟨time, r, -, rfl⟩
  case inl.inr.inl => exact .inr ⟨rfl, rfl, v, rfl⟩
  case inl.inr.inr.inl | inl.inr.inr.inr => exact .inl rfl
  case inr.inl =>
    unfold writeArg
    split <;> exact .inl hp
  case inr.inr.inr.inr.inl =>
    rw [(hostStore_next hs).2]
    exact .inl hp
  case inr.inr.inr.inr.inr.inr =>
    obtain ⟨-, -, -, hidle, -⟩ := hardReset_effect time r s
    exact .inl hidle
  all_goals exact .inl hp

/-- The idle phase presents no transaction, so no step from it emits. -/
theorem step_trace_of_idle {s t : State} (hp : s.ph = .idle) (h : step s = .next t) : t.trace = s.trace := by
  have hnone : s.outstanding = none := by simp only [State.outstanding, hp]
  rcases step_trace h with ht | ⟨e, a, ho, -⟩
  · exact ht
  · cases hnone.symm.trans ho

/-- Settles O28: the assignments of `raise Fault` are its definition, and the idle block stays idle until the host writes an
operation. -/
theorem raisingAFaultChangesOnlyFlagsAndPhase : Obligations.RaisingAFaultChangesOnlyFlagsAndPhase := by
  refine ⟨fun _ _ => rfl, fun s t hp h => ⟨step_trace_of_idle hp h, ?_⟩⟩
  rcases step_cases h with ⟨rest, -, hb⟩ | ⟨m, rest, hh, hm, -, hs⟩
  · cases (blockStep_of_idle (s := { s with host := rest }) hp).symm.trans hb
    exact .inl hp
  · rcases hostStep_of_idle (s := { s with host := rest }) hm hp hs with hidle | ⟨hd, hbusy, v, rfl⟩
    · exact .inl hidle
    · exact .inr ⟨hd, hbusy, v, rest, hh⟩

end Sys2Proof.Machine
